-- ==== Sys2Proof/Word.lean ====
section
/-! DEFINITION. The word types of the block: bytes, 32-bit words, the 128-bit container value and texts. -/

namespace Sys2Proof

/-- An 8-bit unsigned integer (00_scope.md R8). -/
abbrev Byte := BitVec 8

/-- A 32-bit unsigned integer (00_scope.md R8). -/
abbrev Word := BitVec 32

/-- A BitWord128 as the 128-bit integer `V(W)` of 00_scope.md R10 and 40_bitword.md R100. Spec bit `b` is numeric
bit `127 - b`; the first of the four words is the most significant one. Two values are equal exactly when
their four words are. -/
abbrev BitWord := BitVec 128

/-- A text: ASCII bytes without a terminator (10_state.md R25, 30_encoding.md R85). -/
abbrev Text := List Byte

/-- The bytes of an ASCII string literal. -/
def asc (s : String) : Text := s.toList.map fun c => BitVec.ofNat 8 c.toNat

end Sys2Proof
end

