-- ==== Sys2Proof/Machine/Status.lean ====
section
/-! DEFINITION. The status of a command and the results of the pure functions (60_exceptions.md R240). -/

namespace Sys2Proof.Machine

/-- The six values of `ST` (10_state.md R26, 60_exceptions.md R240). -/
inductive Status where
  | ok | contractViolation | conflictingFetch | conflictingModifier | malformedContainer | outOfMemory
  deriving DecidableEq, Repr

/-- The 3-bit code of a status (10_state.md R26). Codes 6 and 7 are no status. -/
def Status.code : Status → BitVec 3
  | .ok => 0
  | .contractViolation => 1
  | .conflictingFetch => 2
  | .conflictingModifier => 3
  | .malformedContainer => 4
  | .outOfMemory => 5

/-- Why a pure function has no result: it raises a status (00_scope.md R10 `raise`), or it applied `MemRead` outside its
domain, which no rule does (20_memory.md R50). -/
inductive Stop where
  | raise (e : Status)
  | outside
  deriving DecidableEq, Repr

/-- The result of a pure function that may read memory (00_scope.md R11). -/
abbrev Result (α : Type) := Except Stop α

/-- A result that reads no memory, seen as one that may. -/
def liftStatus {α : Type} : Except Status α → Result α
  | .ok a => .ok a
  | .error e => .error (.raise e)

end Sys2Proof.Machine
end

