-- ==== Sys2Proof/Machine/BitContainer.lean ====
section
/-! DEFINITION. The bit container BitWord128 and its operations as pure functions (40_bitword.md), and the byte image
of a word (20_memory.md R42 to R44). -/

namespace Sys2Proof.Machine

/-- `bit(W, b)` of 00_scope.md R10, for `b < 128`. -/
def bit (w : BitWord) (b : Nat) : Bool := w.getLsbD (127 - b)

/-- `W.w[k]`, for `k` in 0..3: the first word is the most significant one (00_scope.md R9, R10). -/
def wordAt (w : BitWord) (k : Nat) : Word := w.extractLsb' (96 - 32 * k) 32

/-- The four words `W.w[0..3]` in order. -/
def wordsOf (w : BitWord) : List Word := [wordAt w 0, wordAt w 1, wordAt w 2, wordAt w 3]

/-- The container made of four words, the first the most significant (00_scope.md R10 `V(W)`). -/
def ofWords (w0 w1 w2 w3 : Word) : BitWord := w0 ++ w1 ++ w2 ++ w3

/-- The mask of `n` low bits, `2^n - 1`. -/
def lowMask (n : Nat) : BitWord := BitVec.ofNat 128 (2 ^ n - 1)

/-- `W[lo:hi]` of 00_scope.md R10: spec bit `hi` becomes numeric bit 0. -/
def rangeValue (w : BitWord) (lo hi : Nat) : BitWord := (w >>> (127 - hi)) &&& lowMask (hi - lo + 1)

/-- `w` with spec bits `lo..hi` replaced by `v` (the assignment of 40_bitword.md R105). -/
def setRange (w : BitWord) (lo hi : Nat) (v : BitWord) : BitWord :=
  (w &&& ~~~(lowMask (hi - lo + 1) <<< (127 - hi))) ||| (v <<< (127 - hi))

/-- 40_bitword.md R102, `from_words(words, count)` with `count` the length of the list (log entry 10). -/
def fromWords (words : List Word) : Except Status BitWord :=
  if words.length > 4 then .error .contractViolation
  else .ok (ofWords (words.getD 0 0) (words.getD 1 0) (words.getD 2 0) (words.getD 3 0))

/-- 40_bitword.md R104, `extract(lo, hi)`. -/
def extract (w : BitWord) (lo hi : Nat) : Except Status BitWord :=
  if lo ≤ hi ∧ hi < 128 then .ok (rangeValue w lo hi) else .error .contractViolation

/-- 40_bitword.md R105, `insert(lo, hi, value)`: a value wider than the range is refused (90_conflicts.md C1). -/
def insert (w : BitWord) (lo hi value : Nat) : Except Status BitWord :=
  if lo ≤ hi ∧ hi < 128 then
    if value < 2 ^ (hi - lo + 1) then .ok (setRange w lo hi (BitVec.ofNat 128 value))
    else .error .contractViolation
  else .error .contractViolation

/-- 40_bitword.md R106, `get_bit(i)`: the bit as a 128-bit result. -/
def getBit (w : BitWord) (i : Nat) : Except Status BitWord :=
  if i < 128 then .ok (BitVec.ofNat 128 (bit w i).toNat) else .error .contractViolation

/-- 40_bitword.md R107, `set_bit(i, b)`. -/
def setBit (w : BitWord) (i b : Nat) : Except Status BitWord :=
  if i < 128 ∧ b ≤ 1 then .ok (setRange w i i (BitVec.ofNat 128 b)) else .error .contractViolation

/-- The four bytes of a word, lowest address first: numeric bits 7 to 0 come first (20_memory.md R42). -/
def bytesOfWord (x : Word) : List Byte :=
  [x.extractLsb' 0 8, x.extractLsb' 8 8, x.extractLsb' 16 8, x.extractLsb' 24 8]

/-- The little-endian word of four bytes (20_memory.md R42). -/
def wordOfBytes (b0 b1 b2 b3 : Byte) : Word := b3 ++ b2 ++ b1 ++ b0

/-- `bytes_of_words` of 20_memory.md R44: the 16-byte image. -/
def bytesOfWords (w : BitWord) : List Byte :=
  bytesOfWord (wordAt w 0) ++ bytesOfWord (wordAt w 1) ++ bytesOfWord (wordAt w 2) ++ bytesOfWord (wordAt w 3)

/-- The word of the four bytes of `g` at offset `a`. -/
def wordInBytes (g : List Byte) (a : Nat) : Word :=
  wordOfBytes (g.getD a 0) (g.getD (a + 1) 0) (g.getD (a + 2) 0) (g.getD (a + 3) 0)

/-- `words_of_bytes` of 20_memory.md R44, for a 16-byte group. -/
def wordsOfBytes (g : List Byte) : BitWord :=
  ofWords (wordInBytes g 0) (wordInBytes g 4) (wordInBytes g 8) (wordInBytes g 12)

end Sys2Proof.Machine
end

