-- ==== Sys2Proof/Config.lean ====
section
/-! DEFINITION. What an instance of the block fixes: the fields of the instruction word with their widths, the
mnemonics, the symbol types, the parameters of 00_scope.md R6 with the constraints of R7, and the free values.
The default instances of the parameters stand in Machine/Tables.lean. -/

namespace Sys2Proof

/-- The 30 fields of the instruction word (30_encoding.md R63; the subfields of the three slots are separate). -/
inductive Field where
  | last | tgt | sdst | vmask | smask
  | s2type | s2idx | s2swz | s2neg
  | s1type | s1idx | s1swz | s1neg
  | s0type | s0idx | s0swz | s0neg
  | afetch | cfetch | vop | sop
  | pswz | pneg | pen | vdst
  | s0abs | s1abs | s2abs | sat | vflag
  deriving DecidableEq, Repr

/-- The width of each field (30_encoding.md R63, column "width"). -/
@[reducible] def Field.width : Field → Nat
  | .last => 1 | .tgt => 5 | .sdst => 6 | .vmask => 4 | .smask => 4
  | .s2type => 2 | .s2idx => 6 | .s2swz => 8 | .s2neg => 1
  | .s1type => 2 | .s1idx => 6 | .s1swz => 8 | .s1neg => 1
  | .s0type => 2 | .s0idx => 6 | .s0swz => 8 | .s0neg => 1
  | .afetch => 4 | .cfetch => 8 | .vop => 5 | .sop => 4
  | .pswz => 8 | .pneg => 1 | .pen => 1 | .vdst => 6
  | .s0abs => 1 | .s1abs => 1 | .s2abs => 1 | .sat => 1 | .vflag => 1

/-- Every field once, in the order of the table of 30_encoding.md R63. -/
def Field.all : List Field :=
  [.last, .tgt, .sdst, .vmask, .smask, .s2type, .s2idx, .s2swz, .s2neg, .s1type, .s1idx, .s1swz, .s1neg,
   .s0type, .s0idx, .s0swz, .s0neg, .afetch, .cfetch, .vop, .sop, .pswz, .pneg, .pen, .vdst,
   .s0abs, .s1abs, .s2abs, .sat, .vflag]

/-- The seventeen vector mnemonics (30_encoding.md R77). -/
inductive VMnemonic where
  | mov | mul | add | mad | dp3 | dp4 | min | max | slt | sge | arl | frc | flr | seq | sgt | sle | sne
  deriving DecidableEq, Repr

/-- Every vector mnemonic once, in the source's order. -/
def VMnemonic.all : List VMnemonic :=
  [.mov, .mul, .add, .mad, .dp3, .dp4, .min, .max, .slt, .sge, .arl, .frc, .flr, .seq, .sgt, .sle, .sne]

/-- The seven scalar mnemonics (30_encoding.md R78). -/
inductive SMnemonic where
  | cos | mov | rcp | rsq | lg2 | ex2 | sin
  deriving DecidableEq, Repr

/-- Every scalar mnemonic once, in the source's order. -/
def SMnemonic.all : List SMnemonic := [.cos, .mov, .rcp, .rsq, .lg2, .ex2, .sin]

/-- The types of a symbol (10_state.md R29, 93_implementation_defined.md U9). -/
inductive SymType where
  | float | vec2 | vec3 | vec4 | mat2 | mat3 | mat4 | sampler2D | sampler3D
  | int | ivec2 | ivec3 | ivec4 | bool | bvec2 | bvec3 | bvec4 | unknown
  deriving DecidableEq, Repr

/-- Parameter `SYMREC_LAYOUT`: the word of a symbol record that holds each field (30_encoding.md R91). Which
instances are valid is log entry 26. -/
structure SymRecLayout where
  dtypeWord : Nat
  kindWord : Nat
  locationWord : Nat
  nameWord : Nat
  valuesWord : Nat
  deriving DecidableEq, Repr

/-- Parameter `TEXT`: the literal strings of the disassembly (30_encoding.md R85, decision D14). -/
structure TextStrings where
  space : Text
  satSuffix : Text
  dot : Text
  comma : Text
  newline : Text
  lastLine : Text
  predOpen : Text
  predNot : Text
  predReg : Text
  predClose : Text
  unknownOpen : Text
  unknownClose : Text
  minus : Text
  absOpen : Text
  absClose : Text
  regTemp : Text
  regAttribute : Text
  regConstant : Text
  regInvalid : Text
  dstVarying : Text
  dstPredicate : Text
  deriving DecidableEq, Repr

/-- Parameter `VSH_FIELDS`: where inside the binary payload the stream's offset and length stand (00_scope.md R6), as the
byte offsets of two words of the payload (log entry 20). -/
structure VshFields where
  offsetAt : Nat
  lengthAt : Nat
  deriving DecidableEq, Repr

/-- The parameters of 00_scope.md R6. `lo f` is the lowest spec bit of field `f`; its highest is
`lo f + width f - 1`, so R7 (b) holds by construction. `vnum` and `snum` are `VOPTAB` and `SOPTAB` read from mnemonic
to number; `dtype` is `DTYPE_TABLE`;
`vshFields` is `none` where nothing is given, since `VSH_FIELDS` is OPEN with no default. -/
structure Params where
  lo : Field → Nat
  vnum : VMnemonic → BitVec 5
  snum : SMnemonic → BitVec 4
  symRec : SymRecLayout
  dtype : List (Byte × SymType)
  maxSymbols : Nat
  text : TextStrings
  vshFields : Option VshFields

/-- The highest spec bit of a field. -/
def Params.hi (P : Params) (f : Field) : Nat := P.lo f + f.width - 1

/-- What the spec asks of every instance: 00_scope.md R7 (a) and (c) for `LAYOUT` ((b) holds by construction, (d) because
one function serves both directions), and the constraints of decisions D7, D8 and D21 for the tables.
DESIGN CHOICE (log entry 26): the spec states no constraint on an instance of `SYMREC_LAYOUT` (D20). `symRec_inside` asks that
each field stand in one of the record's twelve words (30_encoding.md R91) and no more: words may repeat and stand in any
order, the source's order among them. `MAX_SYMBOLS`, `TEXT` and `VSH_FIELDS` are not constrained. -/
structure Params.Valid (P : Params) : Prop where
  last_first : P.lo .last = 0
  inside : ∀ f : Field, P.lo f + f.width ≤ 128
  disjoint : ∀ f g : Field, f ≠ g → P.lo f + f.width ≤ P.lo g ∨ P.lo g + g.width ≤ P.lo f
  vnum_distinct : ∀ m n : VMnemonic, P.vnum m = P.vnum n → m = n
  snum_distinct : ∀ m n : SMnemonic, P.snum m = P.snum n → m = n
  dtype_bytes_distinct : (P.dtype.map Prod.fst).Nodup
  dtype_types_distinct : (P.dtype.map Prod.snd).Nodup
  dtype_known : SymType.unknown ∉ P.dtype.map Prod.snd
  symRec_inside : P.symRec.dtypeWord < 12 ∧ P.symRec.kindWord < 12 ∧ P.symRec.locationWord < 12 ∧
    P.symRec.nameWord < 12 ∧ P.symRec.valuesWord < 12

/-- FREE VALUE (log entry 8): what byte `a` of `BUF` holds after the `epoch`-th reset while the host has not written it.
70_reset_and_hazards.md R270 calls it unspecified; nothing constrains it. -/
opaque Config.bufFree (epoch a : Nat) : Byte

/-- FREE VALUE (log entry 8): the same for `STRM`. -/
opaque Config.strmFree (epoch a : Nat) : Byte

end Sys2Proof
end

