-- ==== Sys2Proof/Syntax/Operands.lean ====
section
/-! DEFINITION. The operands of an instruction: the descriptor `D` of 10_state.md R23, the fields of a word of
30_encoding.md R63, and the two operand forms of a micro-op (encode side and decode side of 44_vector_ops.md R210
and 45_scalar_ops.md R230). -/

namespace Sys2Proof

/-- A register type of a descriptor (10_state.md R23): temp, attribute, constant, varying. -/
inductive RegType where
  | temp | attr | constant | varying
  deriving DecidableEq, Repr

/-- `Dst` of 10_state.md R23. A zero mask means the op is absent. -/
structure Dst where
  idx : BitVec 8
  type : RegType
  mask : BitVec 4
  sat : Bool
  deriving DecidableEq, Repr

/-- `Src` of 10_state.md R23, with the `valid` bit of its slot. -/
structure Src where
  valid : Bool
  idx : BitVec 8
  type : RegType
  swz : BitVec 8
  neg : Bool
  abs : Bool
  deriving DecidableEq, Repr

/-- The descriptor register bank `D` (10_state.md R23). -/
structure Desc where
  vop : BitVec 5
  vdst : Dst
  sop : BitVec 4
  sdst : Dst
  src0 : Src
  src1 : Src
  src2 : Src
  last : Bool
  deriving DecidableEq, Repr

/-- The vector op fields of a word: `vop`, `vmask`, `vdst`. -/
structure VHalf where
  op : BitVec 5
  mask : BitVec 4
  dst : BitVec 6
  deriving DecidableEq, Repr

/-- The scalar op fields of a word: `sop`, `smask`, `sdst`. -/
structure SHalf where
  op : BitVec 4
  mask : BitVec 4
  dst : BitVec 6
  deriving DecidableEq, Repr

/-- One source slot of a word with its abs flag (30_encoding.md R72, R74). -/
structure Slot where
  type : BitVec 2
  idx : BitVec 6
  swz : BitVec 8
  neg : Bool
  abs : Bool
  deriving DecidableEq, Repr

/-- The fields both ops of a word share (30_encoding.md R64, R69 to R71, R73, R75). -/
structure Shared where
  last : Bool
  tgt : BitVec 5
  afetch : BitVec 4
  cfetch : BitVec 8
  pswz : BitVec 8
  pneg : Bool
  pen : Bool
  sat : Bool
  vflag : Bool
  deriving DecidableEq, Repr

/-- All 30 fields of a word (30_encoding.md R63). -/
structure Fields where
  vec : VHalf
  sc : SHalf
  s0 : Slot
  s1 : Slot
  s2 : Slot
  sh : Shared
  deriving DecidableEq, Repr

/-- A word whose vector op's opcode is known from the constructor: every field but `vop`. -/
structure VecWord where
  mask : BitVec 4
  dst : BitVec 6
  sc : SHalf
  s0 : Slot
  s1 : Slot
  s2 : Slot
  sh : Shared
  deriving DecidableEq, Repr

/-- A word whose scalar op's opcode is known from the constructor: every field but `sop`. -/
structure ScaWord where
  mask : BitVec 4
  dst : BitVec 6
  vec : VHalf
  s0 : Slot
  s1 : Slot
  s2 : Slot
  sh : Shared
  deriving DecidableEq, Repr

/-- A descriptor whose vector opcode is known from the constructor: every field but `D.vop`. -/
structure VecDesc where
  dst : Dst
  sop : BitVec 4
  sdst : Dst
  src0 : Src
  src1 : Src
  src2 : Src
  last : Bool
  deriving DecidableEq, Repr

/-- A descriptor whose scalar opcode is known from the constructor: every field but `D.sop`. -/
structure ScaDesc where
  dst : Dst
  vop : BitVec 5
  vdst : Dst
  src0 : Src
  src1 : Src
  src2 : Src
  last : Bool
  deriving DecidableEq, Repr

/-- The two operand forms of a vector micro-op: the fields of a word (the decode side of 44_vector_ops.md R210) or a
descriptor (its encode side). -/
inductive VecForm where
  | word (o : VecWord)
  | desc (o : VecDesc)
  deriving DecidableEq, Repr

/-- The two operand forms of a scalar micro-op (45_scalar_ops.md R230). -/
inductive ScaForm where
  | word (o : ScaWord)
  | desc (o : ScaDesc)
  deriving DecidableEq, Repr

/-- The fields of a word whose vector opcode is `n`. -/
def VecWord.toFields (o : VecWord) (n : BitVec 5) : Fields :=
  { vec := { op := n, mask := o.mask, dst := o.dst }, sc := o.sc, s0 := o.s0, s1 := o.s1, s2 := o.s2, sh := o.sh }

/-- The fields of a word whose scalar opcode is `n`. -/
def ScaWord.toFields (o : ScaWord) (n : BitVec 4) : Fields :=
  { vec := o.vec, sc := { op := n, mask := o.mask, dst := o.dst }, s0 := o.s0, s1 := o.s1, s2 := o.s2, sh := o.sh }

/-- The descriptor whose vector opcode is `n`. -/
def VecDesc.toDesc (o : VecDesc) (n : BitVec 5) : Desc :=
  { vop := n, vdst := o.dst, sop := o.sop, sdst := o.sdst, src0 := o.src0, src1 := o.src1, src2 := o.src2,
    last := o.last }

/-- The descriptor whose scalar opcode is `n`. -/
def ScaDesc.toDesc (o : ScaDesc) (n : BitVec 4) : Desc :=
  { vop := o.vop, vdst := o.vdst, sop := n, sdst := o.dst, src0 := o.src0, src1 := o.src1, src2 := o.src2,
    last := o.last }

/-- A word's fields without the vector opcode. -/
def Fields.vecWord (F : Fields) : VecWord :=
  { mask := F.vec.mask, dst := F.vec.dst, sc := F.sc, s0 := F.s0, s1 := F.s1, s2 := F.s2, sh := F.sh }

/-- A word's fields without the scalar opcode. -/
def Fields.scaWord (F : Fields) : ScaWord :=
  { mask := F.sc.mask, dst := F.sc.dst, vec := F.vec, s0 := F.s0, s1 := F.s1, s2 := F.s2, sh := F.sh }

/-- A descriptor without the vector opcode. -/
def Desc.vecDesc (D : Desc) : VecDesc :=
  { dst := D.vdst, sop := D.sop, sdst := D.sdst, src0 := D.src0, src1 := D.src1, src2 := D.src2, last := D.last }

/-- A descriptor without the scalar opcode. -/
def Desc.scaDesc (D : Desc) : ScaDesc :=
  { dst := D.sdst, vop := D.vop, vdst := D.vdst, src0 := D.src0, src1 := D.src1, src2 := D.src2, last := D.last }

end Sys2Proof
end

