-- ==== Sys2Proof/Machine/Tables.lean ====
section
/-! DEFINITION. The source's fixed numbers and the default instances of the parameters (00_scope.md R6). A default has no
authority beyond this instance of the block (log entries 5, 6 and 7). -/

namespace Sys2Proof.Machine

/-- DESIGN CHOICE of the spec (D4, log entry 5): the default `LAYOUT`, lowest spec bit of each field (30_encoding.md R63,
column "default position"). Only `last` at 0 is the source's. -/
def defaultLo : Field → Nat
  | .last => 0 | .tgt => 2 | .sdst => 7 | .vmask => 13 | .smask => 17
  | .s2type => 21 | .s2idx => 23 | .s2swz => 29 | .s2neg => 37
  | .s1type => 38 | .s1idx => 40 | .s1swz => 46 | .s1neg => 54
  | .s0type => 55 | .s0idx => 57 | .s0swz => 63 | .s0neg => 71
  | .afetch => 72 | .cfetch => 76 | .vop => 86 | .sop => 91
  | .pswz => 98 | .pneg => 108 | .pen => 109 | .vdst => 111
  | .s0abs => 117 | .s1abs => 118 | .s2abs => 119 | .sat => 122 | .vflag => 126

/-- The default `VOPTAB` numbers (30_encoding.md R77, log entry 6). -/
def defaultVnum : VMnemonic → BitVec 5
  | .mov => 1 | .mul => 2 | .add => 3 | .mad => 4 | .dp3 => 5 | .dp4 => 7 | .min => 9 | .max => 10
  | .slt => 11 | .sge => 12 | .arl => 13 | .frc => 14 | .flr => 15 | .seq => 16 | .sgt => 18 | .sle => 19 | .sne => 20

/-- The default `SOPTAB` numbers (30_encoding.md R78, log entry 6). -/
def defaultSnum : SMnemonic → BitVec 4
  | .cos => 0 | .mov => 1 | .rcp => 2 | .rsq => 4 | .lg2 => 13 | .ex2 => 14 | .sin => 15

/-- How many sources a vector op takes (30_encoding.md R77; `add` by decision D9). -/
def arity : VMnemonic → Nat
  | .mov => 1 | .mul => 2 | .add => 2 | .mad => 3 | .dp3 => 2 | .dp4 => 2 | .min => 2 | .max => 2
  | .slt => 2 | .sge => 2 | .arl => 1 | .frc => 1 | .flr => 1 | .seq => 2 | .sgt => 2 | .sle => 2 | .sne => 2

/-- How many sources an unknown vector opcode takes (30_encoding.md R81, 44_vector_ops.md R228). -/
def unknownArity : Nat := 3

/-- The text of a vector mnemonic (30_encoding.md R85 `vname`). -/
def vText : VMnemonic → Text
  | .mov => asc "mov" | .mul => asc "mul" | .add => asc "add" | .mad => asc "mad" | .dp3 => asc "dp3"
  | .dp4 => asc "dp4" | .min => asc "min" | .max => asc "max" | .slt => asc "slt" | .sge => asc "sge"
  | .arl => asc "arl" | .frc => asc "frc" | .flr => asc "flr" | .seq => asc "seq" | .sgt => asc "sgt"
  | .sle => asc "sle" | .sne => asc "sne"

/-- The text of a scalar mnemonic (30_encoding.md R85 `sname`). -/
def sText : SMnemonic → Text
  | .cos => asc "cos" | .mov => asc "mov" | .rcp => asc "rcp" | .rsq => asc "rsq" | .lg2 => asc "lg2"
  | .ex2 => asc "ex2" | .sin => asc "sin"

/-- The default `SYMREC_LAYOUT` (30_encoding.md R91, log entry 7). -/
def defaultSymRec : SymRecLayout :=
  { dtypeWord := 0, kindWord := 1, locationWord := 2, nameWord := 3, valuesWord := 4 }

/-- The default `DTYPE_TABLE` (30_encoding.md R93, log entry 7). -/
def defaultDtype : List (Byte × SymType) :=
  [(0x15, .float), (0x16, .vec2), (0x17, .vec3), (0x18, .vec4), (0x1e, .mat2), (0x23, .mat3), (0x28, .mat4),
   (0x2a, .sampler2D), (0x2b, .sampler3D), (0x45, .int), (0x46, .ivec2), (0x47, .ivec3), (0x48, .ivec4),
   (0x5a, .bool), (0x5b, .bvec2), (0x5c, .bvec3), (0x5d, .bvec4)]

/-- The default `TEXT` (30_encoding.md R85, log entry 7). -/
def defaultText : TextStrings :=
  { space := asc " ", satSuffix := asc "_sat", dot := asc ".", comma := asc ", ", newline := asc "\n",
    lastLine := asc "last", predOpen := asc "(", predNot := asc "!", predReg := asc "p0.", predClose := asc ") ",
    unknownOpen := asc "unknown(0x", unknownClose := asc ")", minus := asc "-", absOpen := asc "abs(",
    absClose := asc ")", regTemp := asc "r", regAttribute := asc "v", regConstant := asc "c", regInvalid := asc "?",
    dstVarying := asc "o", dstPredicate := asc "p0" }

/-- The instance of the parameters where nothing else is given: every default of 00_scope.md R6, and no `VSH_FIELDS`. -/
def params : Params :=
  { lo := defaultLo, vnum := defaultVnum, snum := defaultSnum, symRec := defaultSymRec, dtype := defaultDtype,
    maxSymbols := 256, text := defaultText, vshFields := none }

/-- `VOPTAB` read from number to mnemonic; `none` is an unknown opcode (30_encoding.md R77, R81). -/
def vLookup (P : Params) (n : BitVec 5) : Option VMnemonic := VMnemonic.all.find? fun m => P.vnum m == n

/-- `SOPTAB` read from number to mnemonic (30_encoding.md R78, R81). -/
def sLookup (P : Params) (n : BitVec 4) : Option SMnemonic := SMnemonic.all.find? fun m => P.snum m == n

/-- `VOPTAB(n).arity or 3` (43_decoder.md R181, 42_encoder.md R153). -/
def vArity (P : Params) (n : BitVec 5) : Nat :=
  match vLookup P n with
  | some m => arity m
  | none => unknownArity

/-- The sentinel destination index, "shared target" (30_encoding.md R68). -/
def sentinel : BitVec 6 := 63

/-- The type tag of a vertex program (30_encoding.md R90). -/
def tagVertex : Word := 0x1b5d

/-- The type tag of a fragment program (30_encoding.md R90). -/
def tagFragment : Word := 0x1b5e

/-- The kind tag of an attribute (30_encoding.md R92). -/
def kindAttribute : Word := 0x1005

/-- The kind tag of a uniform (30_encoding.md R92). -/
def kindUniform : Word := 0x1006

/-- The kind tag of a constant (30_encoding.md R92). -/
def kindConstant : Word := 0x1007

/-- The header's size in bytes: 12 words (30_encoding.md R89). -/
def headerBytes : Nat := 48

/-- A symbol record's size in bytes: 12 words (30_encoding.md R91). -/
def recordBytes : Nat := 48

end Sys2Proof.Machine
end

