-- ==== Sys2Proof/Machine/Fields.lean ====
section
/-! DEFINITION. The fields of the instruction word, read and written by the range operations of the bit container at the
positions of `LAYOUT` (00_scope.md R10 `W.<field>`, R7 (d); 30_encoding.md R63). -/

namespace Sys2Proof.Machine

/-- `W.<field>`. -/
def getField (P : Params) (w : BitWord) (f : Field) : BitVec f.width :=
  (rangeValue w (P.lo f) (P.hi f)).setWidth f.width

/-- `W.<field> <- v`. -/
def putField (P : Params) (w : BitWord) (f : Field) (v : BitVec f.width) : BitWord :=
  setRange w (P.lo f) (P.hi f) (v.setWidth 128)

/-- A 1-bit field as a flag. -/
def flag (b : BitVec 1) : Bool := b == 1

/-- The value of each field of a word's field record. -/
def fieldValue (F : Fields) : (f : Field) → BitVec f.width
  | .last => BitVec.ofBool F.sh.last
  | .tgt => F.sh.tgt
  | .sdst => F.sc.dst
  | .vmask => F.vec.mask
  | .smask => F.sc.mask
  | .s2type => F.s2.type
  | .s2idx => F.s2.idx
  | .s2swz => F.s2.swz
  | .s2neg => BitVec.ofBool F.s2.neg
  | .s1type => F.s1.type
  | .s1idx => F.s1.idx
  | .s1swz => F.s1.swz
  | .s1neg => BitVec.ofBool F.s1.neg
  | .s0type => F.s0.type
  | .s0idx => F.s0.idx
  | .s0swz => F.s0.swz
  | .s0neg => BitVec.ofBool F.s0.neg
  | .afetch => F.sh.afetch
  | .cfetch => F.sh.cfetch
  | .vop => F.vec.op
  | .sop => F.sc.op
  | .pswz => F.sh.pswz
  | .pneg => BitVec.ofBool F.sh.pneg
  | .pen => BitVec.ofBool F.sh.pen
  | .vdst => F.vec.dst
  | .s0abs => BitVec.ofBool F.s0.abs
  | .s1abs => BitVec.ofBool F.s1.abs
  | .s2abs => BitVec.ofBool F.s2.abs
  | .sat => BitVec.ofBool F.sh.sat
  | .vflag => BitVec.ofBool F.sh.vflag

/-- All 30 fields of a word, never a reserved bit (43_decoder.md R181). -/
def readFields (P : Params) (w : BitWord) : Fields :=
  { vec := { op := getField P w .vop, mask := getField P w .vmask, dst := getField P w .vdst }
    sc := { op := getField P w .sop, mask := getField P w .smask, dst := getField P w .sdst }
    s0 := { type := getField P w .s0type, idx := getField P w .s0idx, swz := getField P w .s0swz,
            neg := flag (getField P w .s0neg), abs := flag (getField P w .s0abs) }
    s1 := { type := getField P w .s1type, idx := getField P w .s1idx, swz := getField P w .s1swz,
            neg := flag (getField P w .s1neg), abs := flag (getField P w .s1abs) }
    s2 := { type := getField P w .s2type, idx := getField P w .s2idx, swz := getField P w .s2swz,
            neg := flag (getField P w .s2neg), abs := flag (getField P w .s2abs) }
    sh := { last := flag (getField P w .last), tgt := getField P w .tgt, afetch := getField P w .afetch,
            cfetch := getField P w .cfetch, pswz := getField P w .pswz, pneg := flag (getField P w .pneg),
            pen := flag (getField P w .pen), sat := flag (getField P w .sat), vflag := flag (getField P w .vflag) } }

/-- The word with the given fields and every reserved bit 0: the zero word with each field inserted
(42_encoder.md R162, 30_encoding.md R76). -/
def writeFields (P : Params) (F : Fields) : BitWord :=
  Field.all.foldl (fun w f => putField P w f (fieldValue F f)) 0

end Sys2Proof.Machine
end

