-- ==== Sys2Proof/Machine/Operands.lean ====
section
/-! DEFINITION. The operand forms, on both sides: which ops are present and which slots they use, what a destination and a
source of a descriptor become in the word, and what a destination and a source of a word stand for. -/

namespace Sys2Proof.Machine

/-! ### Presence and used slots -/

/-- An op is present exactly when its write mask is not zero (30_encoding.md R79, 42_encoder.md R152). -/
def present (mask : BitVec 4) : Bool := mask != 0

/-- The three source slots of a descriptor, by number. -/
def srcAt (D : Desc) : Nat → Src
  | 0 => D.src0
  | 1 => D.src1
  | _ => D.src2

/-- `used(i)` of 42_encoder.md R153 and 30_encoding.md R80. -/
def used (P : Params) (D : Desc) (i : Nat) : Bool :=
  (present D.vdst.mask && decide (i < vArity P D.vop)) || (present D.sdst.mask && i == 2)

/-- A slot is encoded when it is used and valid (42_encoder.md R153). -/
def encoded (P : Params) (D : Desc) (i : Nat) : Bool := used P D i && (srcAt D i).valid

/-- The encoded slots, in slot order. -/
def encodedSrcs (P : Params) (D : Desc) : List Src :=
  ([0, 1, 2].filter (encoded P D)).map (srcAt D)

/-- The destinations of the present ops, the vector op's first. -/
def presentDsts (D : Desc) : List Dst :=
  (if present D.vdst.mask then [D.vdst] else []) ++ (if present D.sdst.mask then [D.sdst] else [])

/-! ### Contract checks -/

/-- 42_encoder.md R154 (a) to (c). -/
def dstOk (d : Dst) : Bool :=
  match d.type with
  | .temp => decide (d.idx.toNat ≤ 62)
  | .varying => decide (d.idx.toNat ≤ 31)
  | .attr => false
  | .constant => false

/-- 42_encoder.md R154 (d) to (g). -/
def srcOk (s : Src) : Bool :=
  match s.type with
  | .temp => decide (s.idx.toNat ≤ 63)
  | .attr => decide (s.idx.toNat ≤ 15)
  | .constant => decide (s.idx.toNat ≤ 255)
  | .varying => false

/-- No check of 42_encoder.md R154 fails. -/
def contractOk (P : Params) (D : Desc) : Bool := (presentDsts D).all dstOk && (encodedSrcs P D).all srcOk

/-! ### Reconciliation -/

/-- The one pass of 42_encoder.md R155 to R157: candidates are folded into an accumulator, and a second, differing one
raises `e`. -/
def agree {α : Type} [DecidableEq α] (e : Status) : Option α → List α → Except Status (Option α)
  | acc, [] => .ok acc
  | none, x :: xs => agree e (some x) xs
  | some c, x :: xs => if c = x then agree e (some c) xs else .error e

/-- The register indices of the encoded slots of a type. -/
def fetchCandidates (P : Params) (D : Desc) (t : RegType) : List (BitVec 8) :=
  ((encodedSrcs P D).filter fun s => s.type == t).map Src.idx

/-- The shared fetch index of a type: 42_encoder.md R155 for constants, R156 for attributes. -/
def fetchIndex (P : Params) (D : Desc) (t : RegType) : Except Status (Option (BitVec 8)) :=
  agree .conflictingFetch none (fetchCandidates P D t)

/-! ### What the encoder writes -/

/-- The type code of a source (30_encoding.md R65). A varying source never reaches this (42_encoder.md R154 (d)). -/
def typeCode : RegType → BitVec 2
  | .temp => 1
  | .attr => 2
  | .constant => 3
  | .varying => 0

/-- An empty slot: all zero (30_encoding.md R74). -/
def emptySlot : Slot := { type := 0, idx := 0, swz := 0, neg := false, abs := false }

/-- The slot fields of an encoded source (42_encoder.md R160). -/
def slotOf (s : Src) : Slot :=
  { type := typeCode s.type, idx := if s.type = .temp then s.idx.setWidth 6 else 0, swz := s.swz, neg := s.neg,
    abs := s.abs }

/-- Slot `i` of the word of a descriptor (42_encoder.md R160). -/
def slotAt (P : Params) (D : Desc) (i : Nat) : Slot := if encoded P D i then slotOf (srcAt D i) else emptySlot

/-- The destination field of a present op (42_encoder.md R159). -/
def dstField (d : Dst) : BitVec 6 := if d.type = .varying then sentinel else d.idx.setWidth 6

/-- The vector op fields (42_encoder.md R159): an absent op's are all zero. -/
def vHalfOf (D : Desc) : VHalf :=
  if present D.vdst.mask then { op := D.vop, mask := D.vdst.mask, dst := dstField D.vdst }
  else { op := 0, mask := 0, dst := 0 }

/-- The scalar op fields (42_encoder.md R159). -/
def sHalfOf (D : Desc) : SHalf :=
  if present D.sdst.mask then { op := D.sop, mask := D.sdst.mask, dst := dstField D.sdst }
  else { op := 0, mask := 0, dst := 0 }

end Sys2Proof.Machine
end

