-- ==== Sys2Proof/Machine/Flags.lean ====
section
/-! DEFINITION. The flags of the instruction word. The block itself has none but `ST` (10_state.md R34): saturate, the
varying-write flag, the predicate gate and the last flag are fields of the word being serialised. -/

namespace Sys2Proof.Machine

/-- The varying indices the present ops write, the vector op's first (42_encoder.md R157). -/
def targetCandidates (D : Desc) : List (BitVec 8) :=
  ((presentDsts D).filter fun d => d.type == .varying).map Dst.idx

/-- The shared target (42_encoder.md R157). -/
def sharedTarget (D : Desc) : Except Status (Option (BitVec 8)) :=
  agree .conflictingModifier none (targetCandidates D)

/-- The saturate flag (42_encoder.md R158). -/
def saturate (D : Desc) : Except Status Bool :=
  if present D.vdst.mask && present D.sdst.mask && D.vdst.sat != D.sdst.sat then .error .conflictingModifier
  else .ok ((present D.vdst.mask && D.vdst.sat) || (present D.sdst.mask && D.sdst.sat))

/-- The shared and fixed fields (42_encoder.md R161): `vflag` is set exactly when a varying is written (30_encoding.md R70),
the predicate gate is always zero (R73), `last` is the descriptor's flag (42_encoder.md R165). -/
def sharedOf (D : Desc) (cf af tg : Option (BitVec 8)) (sat : Bool) : Shared :=
  { last := D.last, tgt := (tg.getD 0).setWidth 5, afetch := (af.getD 0).setWidth 4, cfetch := cf.getD 0,
    pswz := 0, pneg := false, pen := false, sat := sat, vflag := tg.isSome }

end Sys2Proof.Machine
end

