-- ==== Sys2Proof/Machine/Encoder.lean ====
section
/-! DEFINITION. The instruction encoder as a pure function (42_encoder.md R150, R162). -/

namespace Sys2Proof.Machine

/-- The fields of the word of a descriptor, or the status that refuses it. The checks run in the order of 42_encoder.md
R164: contract, constant fetch, attribute fetch, shared target, saturate. -/
def encodeFields (P : Params) (D : Desc) : Except Status Fields :=
  if contractOk P D then do
    let cf ← fetchIndex P D .constant
    let af ← fetchIndex P D .attr
    let tg ← sharedTarget D
    let sat ← saturate D
    return { vec := vHalfOf D, sc := sHalfOf D, s0 := slotAt P D 0, s1 := slotAt P D 1, s2 := slotAt P D 2,
             sh := sharedOf D cf af tg sat }
  else .error .contractViolation

/-- `encode(D)` of 42_encoder.md R162. The word is built whole from the zero word, after every check (R163). -/
def encodeDesc (P : Params) (D : Desc) : Except Status BitWord := (encodeFields P D).map (writeFields P)

end Sys2Proof.Machine
end

