-- ==== Sys2Proof/Syntax.lean ====
section
/-! DEFINITION. The instructions: one constructor for each row of spec/opcode_table.json. A vector row's constructor
is its mnemonic after `v`, a scalar row's its mnemonic after `s`; the vector `mov` and the scalar `mov` are different
rows (45_scalar_ops.md R232). -/

namespace Sys2Proof

/-- A micro-op of the table with its operands, in the encode form or the decode form. A vector constructor also carries
whatever scalar half stands beside it, and a scalar constructor whatever vector half does: a word is one unit
(30_encoding.md R60). -/
inductive Instr where
  | vmov (f : VecForm)
  | vmul (f : VecForm)
  | vadd (f : VecForm)
  | vmad (f : VecForm)
  | vdp3 (f : VecForm)
  | vdp4 (f : VecForm)
  | vmin (f : VecForm)
  | vmax (f : VecForm)
  | vslt (f : VecForm)
  | vsge (f : VecForm)
  | varl (f : VecForm)
  | vfrc (f : VecForm)
  | vflr (f : VecForm)
  | vseq (f : VecForm)
  | vsgt (f : VecForm)
  | vsle (f : VecForm)
  | vsne (f : VecForm)
  | scos (f : ScaForm)
  | smov (f : ScaForm)
  | srcp (f : ScaForm)
  | srsq (f : ScaForm)
  | slg2 (f : ScaForm)
  | sex2 (f : ScaForm)
  | ssin (f : ScaForm)
  deriving DecidableEq, Repr

end Sys2Proof
end

