-- ==== Sys2Proof/WellFormed.lean ====
section
/-! DEFINITION. When an instruction is well formed: its own op is present, and a scalar constructor stands beside no vector
op of the table (that word is the vector constructor's). -/

namespace Sys2Proof

/-- The mnemonic and the form of a vector constructor put together. -/
def Instr.ofVec : VMnemonic → VecForm → Instr
  | .mov, f => .vmov f | .mul, f => .vmul f | .add, f => .vadd f | .mad, f => .vmad f
  | .dp3, f => .vdp3 f | .dp4, f => .vdp4 f | .min, f => .vmin f | .max, f => .vmax f
  | .slt, f => .vslt f | .sge, f => .vsge f | .arl, f => .varl f | .frc, f => .vfrc f
  | .flr, f => .vflr f | .seq, f => .vseq f | .sgt, f => .vsgt f | .sle, f => .vsle f | .sne, f => .vsne f

/-- The mnemonic and the form of a scalar constructor put together. -/
def Instr.ofSca : SMnemonic → ScaForm → Instr
  | .cos, f => .scos f | .mov, f => .smov f | .rcp, f => .srcp f | .rsq, f => .srsq f
  | .lg2, f => .slg2 f | .ex2, f => .sex2 f | .sin, f => .ssin f

/-- A vector op of the table is present in this half (30_encoding.md R79, R81). -/
def knownVec (P : Params) (mask : BitVec 4) (op : BitVec 5) : Bool :=
  Machine.present mask && (Machine.vLookup P op).isSome

/-- A vector form is well formed when its op is present (44_vector_ops.md R210 "require w.vmask != 0"). -/
def VecForm.wellFormed : VecForm → Bool
  | .word o => Machine.present o.mask
  | .desc o => Machine.present o.dst.mask

/-- A scalar form is well formed when its op is present (45_scalar_ops.md R230) and no vector op of the table is. -/
def ScaForm.wellFormed (P : Params) : ScaForm → Bool
  | .word o => Machine.present o.mask && !knownVec P o.vec.mask o.vec.op
  | .desc o => Machine.present o.dst.mask && !knownVec P o.vdst.mask o.vop

/-- Well-formedness under an instance of the parameters. -/
def Instr.wellFormedIn (P : Params) : Instr → Bool
  | .vmov f => f.wellFormed | .vmul f => f.wellFormed | .vadd f => f.wellFormed | .vmad f => f.wellFormed
  | .vdp3 f => f.wellFormed | .vdp4 f => f.wellFormed | .vmin f => f.wellFormed | .vmax f => f.wellFormed
  | .vslt f => f.wellFormed | .vsge f => f.wellFormed | .varl f => f.wellFormed | .vfrc f => f.wellFormed
  | .vflr f => f.wellFormed | .vseq f => f.wellFormed | .vsgt f => f.wellFormed | .vsle f => f.wellFormed
  | .vsne f => f.wellFormed
  | .scos f => f.wellFormed P | .smov f => f.wellFormed P | .srcp f => f.wellFormed P | .srsq f => f.wellFormed P
  | .slg2 f => f.wellFormed P | .sex2 f => f.wellFormed P | .ssin f => f.wellFormed P

/-- Well-formedness in the machine's own instance. -/
def Instr.wellFormed (i : Instr) : Bool := i.wellFormedIn Machine.params

end Sys2Proof
end

