-- ==== Sys2Proof/Decode.lean ====
section
/-! DEFINITION. The decoder from words (and from descriptors) to instructions of the table, total and rejecting by name, and
after it the encoder. Which words hold which row is 30_encoding.md R77 to R79: the opcode under the side condition that
the op is present. -/

namespace Sys2Proof

open Sys2Proof.Machine

/-- Why bytes, a word or a descriptor hold no instruction of the table. None of these is an error of the block: DEC, DISASM and
ENC are defined there too (30_encoding.md R82, 60_exceptions.md R247). -/
inductive DecodeError where
  /-- Fewer than the 16 bytes of a word (30_encoding.md R60). -/
  | tooShort
  /-- Both write masks are zero (30_encoding.md R79). -/
  | noOp
  /-- The present vector op's opcode is in no row, and no scalar op of the table stands beside it (44_vector_ops.md R228). -/
  | unknownVector (n : BitVec 5)
  /-- The only present op is scalar and its opcode is in no row (45_scalar_ops.md R238). -/
  | unknownScalar (n : BitVec 4)
  deriving DecidableEq, Repr

/-- The present vector op's row, if it has one (30_encoding.md R77, R79). -/
def vecRow (P : Params) (mask : BitVec 4) (op : BitVec 5) : Option VMnemonic :=
  if present mask then vLookup P op else none

/-- The present scalar op's row, if it has one (30_encoding.md R78, R79). -/
def scaRow (P : Params) (mask : BitVec 4) (op : BitVec 4) : Option SMnemonic :=
  if present mask then sLookup P op else none

/-- Why two halves without a row hold none. -/
def rowError (vmask : BitVec 4) (vop : BitVec 5) (smask sop : BitVec 4) : DecodeError :=
  if present vmask then .unknownVector vop else if present smask then .unknownScalar sop else .noOp

/-- The instruction of a word's fields: the vector op's when the table knows it, else the scalar op's (log entry 2). -/
def decodeFieldsInstr (P : Params) (F : Fields) : Except DecodeError Instr :=
  match vecRow P F.vec.mask F.vec.op with
  | some m => .ok (Instr.ofVec m (.word F.vecWord))
  | none =>
    match scaRow P F.sc.mask F.sc.op with
    | some m => .ok (Instr.ofSca m (.word F.scaWord))
    | none => .error (rowError F.vec.mask F.vec.op F.sc.mask F.sc.op)

/-- The instruction of a word. Reserved bits are not looked at (30_encoding.md R76). -/
def decodeWord (P : Params) (w : BitWord) : Except DecodeError Instr := decodeFieldsInstr P (readFields P w)

/-- The instruction of a descriptor, in its encode form. -/
def descInstr (P : Params) (D : Desc) : Except DecodeError Instr :=
  match vecRow P D.vdst.mask D.vop with
  | some m => .ok (Instr.ofVec m (.desc D.vecDesc))
  | none =>
    match scaRow P D.sdst.mask D.sop with
    | some m => .ok (Instr.ofSca m (.desc D.scaDesc))
    | none => .error (rowError D.vdst.mask D.vop D.sdst.mask D.sop)

/-- The instruction of the first 16 bytes, and the bytes after them (20_memory.md R43, R44). -/
def decodeBytes (P : Params) (bs : List Byte) : Except DecodeError (Instr × List Byte) :=
  if bs.length < 16 then .error .tooShort
  else (decodeWord P (wordsOfBytes (bs.take 16))).map fun i => (i, bs.drop 16)

/-- The container of an instruction given as a number the way spec/opcode_table.json's `match` and `mask` are: the 128-bit value
`V(W)` (log entry 3). Bits at and above `nbits` are 0. -/
def tableWord (nbits w : Nat) : BitWord := BitVec.ofNat 128 (w % 2 ^ nbits)

/-- The instruction the decoder reads from a table word laid out as its 16 bytes. -/
def decodeTableWord (nbits w : Nat) : Option Instr :=
  match decodeBytes params (bytesOfWords (tableWord nbits w)) with
  | .ok (i, _) => some i
  | .error _ => none

/-! ### The encoder -/

/-- The word of a vector form with opcode `n`: its fields inserted into the zero word, or what the encode side gives. -/
def VecForm.toWord (P : Params) (n : BitVec 5) : VecForm → Except Status BitWord
  | .word o => .ok (writeFields P (o.toFields n))
  | .desc o => encodeDesc P (o.toDesc n)

/-- The word of a scalar form with opcode `n`. -/
def ScaForm.toWord (P : Params) (n : BitVec 4) : ScaForm → Except Status BitWord
  | .word o => .ok (writeFields P (o.toFields n))
  | .desc o => encodeDesc P (o.toDesc n)

/-- The word of an instruction: always one for a word form; for a descriptor form the word ENC gives, or its refusal. -/
def encode (P : Params) : Instr → Except Status BitWord
  | .vmov f => f.toWord P (P.vnum .mov)
  | .vmul f => f.toWord P (P.vnum .mul)
  | .vadd f => f.toWord P (P.vnum .add)
  | .vmad f => f.toWord P (P.vnum .mad)
  | .vdp3 f => f.toWord P (P.vnum .dp3)
  | .vdp4 f => f.toWord P (P.vnum .dp4)
  | .vmin f => f.toWord P (P.vnum .min)
  | .vmax f => f.toWord P (P.vnum .max)
  | .vslt f => f.toWord P (P.vnum .slt)
  | .vsge f => f.toWord P (P.vnum .sge)
  | .varl f => f.toWord P (P.vnum .arl)
  | .vfrc f => f.toWord P (P.vnum .frc)
  | .vflr f => f.toWord P (P.vnum .flr)
  | .vseq f => f.toWord P (P.vnum .seq)
  | .vsgt f => f.toWord P (P.vnum .sgt)
  | .vsle f => f.toWord P (P.vnum .sle)
  | .vsne f => f.toWord P (P.vnum .sne)
  | .scos f => f.toWord P (P.snum .cos)
  | .smov f => f.toWord P (P.snum .mov)
  | .srcp f => f.toWord P (P.snum .rcp)
  | .srsq f => f.toWord P (P.snum .rsq)
  | .slg2 f => f.toWord P (P.snum .lg2)
  | .sex2 f => f.toWord P (P.snum .ex2)
  | .ssin f => f.toWord P (P.snum .sin)

end Sys2Proof
end

