-- ==== Sys2Proof/Machine/Records.lean ====
section
/-! DEFINITION. The block's output records: the decoded record `DREC` (43_decoder.md R181), the text register `TXT`
(10_state.md R25), the parsed header and the symbols (10_state.md R28, R29). -/

namespace Sys2Proof.Machine

/-- What a destination field stands for (43_decoder.md R181 `dst_of`). -/
inductive DstRec where
  | temp (n : BitVec 6)
  | varying (n : BitVec 5)
  | predicate
  deriving DecidableEq, Repr

/-- A source as decoded: the slot's own fields with its resolved index (43_decoder.md R181 `src_of`). -/
structure SrcRec where
  type : BitVec 2
  index : BitVec 8
  swz : BitVec 8
  neg : Bool
  abs : Bool
  deriving DecidableEq, Repr

/-- The name of a vector op: a mnemonic of the table or an unknown opcode (43_decoder.md R181). -/
inductive VName where
  | known (m : VMnemonic)
  | unknown (n : BitVec 5)
  deriving DecidableEq, Repr

/-- The name of a scalar op (43_decoder.md R181). -/
inductive SName where
  | known (m : SMnemonic)
  | unknown (n : BitVec 4)
  deriving DecidableEq, Repr

/-- `rec.vec` of 43_decoder.md R181. -/
structure VecRec where
  opcode : BitVec 5
  name : VName
  arity : Nat
  dst : DstRec
  mask : BitVec 4
  srcs : List SrcRec
  deriving DecidableEq, Repr

/-- `rec.sc` of 43_decoder.md R181. -/
structure ScaRec where
  opcode : BitVec 4
  name : SName
  dst : DstRec
  mask : BitVec 4
  srcs : List SrcRec
  deriving DecidableEq, Repr

/-- An enabled predicate gate (43_decoder.md R181 `rec.pred`). -/
structure PredRec where
  neg : Bool
  swz : BitVec 8
  deriving DecidableEq, Repr

/-- The record of 43_decoder.md R181. -/
structure DRec where
  last : Bool
  vpresent : Bool
  spresent : Bool
  pred : Option PredRec
  sat : Bool
  vec : Option VecRec
  sc : Option ScaRec
  deriving DecidableEq, Repr

/-- `TXT`: the text of DEC or the list of texts of DISASM (10_state.md R25). The empty text and the empty list are
different values (95_test_vectors.md P5). -/
inductive Txt where
  | one (t : Text)
  | many (ts : List Text)
  deriving DecidableEq, Repr

/-- `HDR.ptype` (10_state.md R28, 41_container.md R124). -/
inductive PType where
  | vertex
  | fragment
  | other (tag : Word)
  deriving DecidableEq, Repr

/-- `HDR`: the twelve words by name (30_encoding.md R89) and the program type. -/
structure Header where
  type : Word
  unknown0 : Word
  size : Word
  numSymbols : Word
  barSize : Word
  barOffset : Word
  binarySize : Word
  binaryOffset : Word
  unknown1 : Word
  unknown2 : Word
  unknown3 : Word
  unknown4 : Word
  ptype : PType
  deriving DecidableEq, Repr

/-- The kind of a symbol (10_state.md R29): attribute, uniform, constant, unknown. -/
inductive SymKind where
  | attr | uniform | constant | unknown
  deriving DecidableEq, Repr

/-- The four value words of a symbol (30_encoding.md R95). -/
structure Vec4 where
  x0 : Word
  x1 : Word
  x2 : Word
  x3 : Word
  deriving DecidableEq, Repr

/-- A resolved symbol (10_state.md R29). -/
structure SymbolRec where
  location : Word
  kind : SymKind
  type : SymType
  name : Option (List Byte)
  vector : Vec4
  hasValues : Bool
  deriving DecidableEq, Repr

/-- The result of a successful `parse` (41_container.md R120). -/
structure Parsed where
  hdr : Header
  syms : List SymbolRec
  diag : List Nat
  deriving DecidableEq, Repr

end Sys2Proof.Machine
end

