-- ==== Sys2Proof/Machine/Text.lean ====
section
/-! DEFINITION. From a decoded record to text (43_decoder.md R183 to R191, 30_encoding.md R85). -/

namespace Sys2Proof.Machine

/-- The digits of `n` in base `b`, most significant first, with enough fuel (`n < b ^ fuel`). -/
def digits (b : Nat) : Nat → Nat → List Nat
  | 0, _ => []
  | fuel + 1, n => if n < b then [n] else digits b fuel (n / b) ++ [n % b]

/-- The character of a digit, lower case (00_scope.md R10). -/
def digitByte (d : Nat) : Byte := BitVec.ofNat 8 (if d < 10 then 48 + d else 87 + d)

/-- `dec(n)` of 00_scope.md R10. -/
def dec (n : Nat) : Text := (digits 10 (n + 1) n).map digitByte

/-- `hex(n)` of 00_scope.md R10. -/
def hex (n : Nat) : Text := (digits 16 (n + 1) n).map digitByte

/-- The letter of a component: 0 is `x`, 1 `y`, 2 `z`, 3 `w` (30_encoding.md R67). -/
def compLetter (c : BitVec 2) : Text :=
  match c.toNat with
  | 0 => asc "x"
  | 1 => asc "y"
  | 2 => asc "z"
  | _ => asc "w"

/-- `render_swz` of 43_decoder.md R185: numeric bits 7..6 select for x. -/
def renderSwz (s : BitVec 8) : Text :=
  compLetter (s.extractLsb' 6 2) ++ compLetter (s.extractLsb' 4 2) ++ compLetter (s.extractLsb' 2 2) ++
    compLetter (s.extractLsb' 0 2)

/-- `render_mask` of 43_decoder.md R185: numeric bit 3 enables x. -/
def renderMask (m : BitVec 4) : Text :=
  (if m.getLsbD 3 then asc "x" else []) ++ (if m.getLsbD 2 then asc "y" else []) ++
    (if m.getLsbD 1 then asc "z" else []) ++ (if m.getLsbD 0 then asc "w" else [])

/-- `render_dst` of 43_decoder.md R183. -/
def renderDst (T : TextStrings) : DstRec → Text
  | .temp n => T.regTemp ++ dec n.toNat
  | .varying n => T.dstVarying ++ dec n.toNat
  | .predicate => T.dstPredicate

/-- The register letter of a type code (30_encoding.md R65). -/
def typeLetter (T : TextStrings) (t : BitVec 2) : Text :=
  match t.toNat with
  | 0 => T.regInvalid
  | 1 => T.regTemp
  | 2 => T.regAttribute
  | _ => T.regConstant

/-- `render_src` of 43_decoder.md R184: negate stands outside abs. -/
def renderSrc (T : TextStrings) (s : SrcRec) : Text :=
  let core := typeLetter T s.type ++ dec s.index.toNat ++ T.dot ++ renderSwz s.swz
  let core := if s.abs then T.absOpen ++ core ++ T.absClose else core
  if s.neg then T.minus ++ core else core

/-- `render_pred` of 43_decoder.md R186. -/
def renderPred (T : TextStrings) : Option PredRec → Text
  | none => []
  | some p => T.predOpen ++ (if p.neg then T.predNot else []) ++ T.predReg ++ renderSwz p.swz ++ T.predClose

/-- `render_name` of 43_decoder.md R191 for an unknown opcode. -/
def renderUnknown (T : TextStrings) (n : Nat) : Text := T.unknownOpen ++ hex n ++ T.unknownClose

/-- `render_name` of a vector op. -/
def renderVName (T : TextStrings) : VName → Text
  | .known m => vText m
  | .unknown n => renderUnknown T n.toNat

/-- `render_name` of a scalar op. -/
def renderSName (T : TextStrings) : SName → Text
  | .known m => sText m
  | .unknown n => renderUnknown T n.toNat

/-- The line of one op: the parts in the order of 43_decoder.md R187. -/
def opLine (T : TextStrings) (pred : Option PredRec) (name : Text) (dst : DstRec) (sat : Bool) (mask : BitVec 4)
    (srcs : List SrcRec) : Text :=
  renderPred T pred ++ name ++ T.space ++ renderDst T dst ++ (if sat then T.satSuffix else []) ++ T.dot ++
    renderMask mask ++ srcs.flatMap fun s => T.comma ++ renderSrc T s

/-- The vector line (43_decoder.md R187). -/
def vecLine (T : TextStrings) (r : DRec) (v : VecRec) : Text :=
  opLine T r.pred (renderVName T v.name) v.dst r.sat v.mask v.srcs

/-- The scalar line (43_decoder.md R188): the same shape, with the word's predicate prefix and saturate suffix. -/
def scaLine (T : TextStrings) (r : DRec) (s : ScaRec) : Text :=
  opLine T r.pred (renderSName T s.name) s.dst r.sat s.mask s.srcs

/-- The lines of a record: vector, scalar, terminal marker (43_decoder.md R189, R190). -/
def renderLines (T : TextStrings) (r : DRec) : List Text :=
  (match r.vec with | some v => [vecLine T r v] | none => []) ++
    (match r.sc with | some s => [scaLine T r s] | none => []) ++
    (if r.last then [T.lastLine] else [])

/-- Lines joined by a separator, none at the end (43_decoder.md R190). -/
def joinLines (sep : Text) : List Text → Text
  | [] => []
  | [l] => l
  | l :: ls => l ++ sep ++ joinLines sep ls

/-- `render(rec)` of 43_decoder.md R190. -/
def render (T : TextStrings) (r : DRec) : Text := joinLines T.newline (renderLines T r)

end Sys2Proof.Machine
end

