-- ==== Sys2Proof/Machine/Decoder.lean ====
section
/-! DEFINITION. The instruction decoder as pure functions (43_decoder.md R180, R181), and the record of a descriptor without
going through bits (R193). -/

namespace Sys2Proof.Machine

/-- `dst_of` of 43_decoder.md R181. -/
def dstOf (sh : Shared) (d : BitVec 6) : DstRec :=
  if d ≠ sentinel then .temp d else if sh.vflag then .varying sh.tgt else .predicate

/-- `src_of` of 43_decoder.md R181: attribute and constant slots take the shared fetch index. -/
def srcOf (sh : Shared) (s : Slot) : SrcRec :=
  { type := s.type
    index := if s.type = 2 then sh.afetch.setWidth 8 else if s.type = 3 then sh.cfetch else s.idx.setWidth 8
    swz := s.swz, neg := s.neg, abs := s.abs }

/-- The first `n` slots of a word, decoded. -/
def vecSrcs (F : Fields) (n : Nat) : List SrcRec := ([F.s0, F.s1, F.s2].take n).map (srcOf F.sh)

/-- The vector record with the given name and arity (44_vector_ops.md R210, decode side). -/
def vecRecNamed (F : Fields) (name : VName) (n : Nat) : VecRec :=
  { opcode := F.vec.op, name := name, arity := n, dst := dstOf F.sh F.vec.dst, mask := F.vec.mask,
    srcs := vecSrcs F n }

/-- The scalar record with the given name: its source is slot 2 (45_scalar_ops.md R230, decode side). -/
def scaRecNamed (F : Fields) (name : SName) : ScaRec :=
  { opcode := F.sc.op, name := name, dst := dstOf F.sh F.sc.dst, mask := F.sc.mask, srcs := [srcOf F.sh F.s2] }

/-- `VOPTAB(n).mnemonic or Unknown(n)`. -/
def vName (P : Params) (n : BitVec 5) : VName :=
  match vLookup P n with
  | some m => .known m
  | none => .unknown n

/-- `SOPTAB(n).mnemonic or Unknown(n)`. -/
def sName (P : Params) (n : BitVec 4) : SName :=
  match sLookup P n with
  | some m => .known m
  | none => .unknown n

/-- `rec.vec` of 43_decoder.md R181, the name and arity looked up in `VOPTAB`. -/
def vecRec (P : Params) (F : Fields) : Option VecRec :=
  if present F.vec.mask then some (vecRecNamed F (vName P F.vec.op) (vArity P F.vec.op)) else none

/-- `rec.sc` of 43_decoder.md R181, the name looked up in `SOPTAB`. -/
def scaRec (P : Params) (F : Fields) : Option ScaRec :=
  if present F.sc.mask then some (scaRecNamed F (sName P F.sc.op)) else none

/-- `rec.pred` of 43_decoder.md R181. -/
def predOf (sh : Shared) : Option PredRec := if sh.pen then some { neg := sh.pneg, swz := sh.pswz } else none

/-- The record of a word's fields with the two halves given. -/
def recWith (F : Fields) (v : Option VecRec) (s : Option ScaRec) : DRec :=
  { last := F.sh.last, vpresent := present F.vec.mask, spresent := present F.sc.mask, pred := predOf F.sh,
    sat := F.sh.sat, vec := v, sc := s }

/-- The record of a word's fields. -/
def recOfFields (P : Params) (F : Fields) : DRec := recWith F (vecRec P F) (scaRec P F)

/-- `decode_fields(w)` of 43_decoder.md R181. -/
def decodeFields (P : Params) (w : BitWord) : DRec := recOfFields P (readFields P w)

/-- `decode(w)` of 43_decoder.md R180. -/
def decodeText (P : Params) (w : BitWord) : Text := render P.text (decodeFields P w)

/-! ### The record of a descriptor (43_decoder.md R193) -/

/-- The source of a slot as a record: the empty source when the slot is not valid. -/
def descSrc (s : Src) : SrcRec :=
  if s.valid then { type := typeCode s.type, index := s.idx, swz := s.swz, neg := s.neg, abs := s.abs }
  else { type := 0, index := 0, swz := 0, neg := false, abs := false }

/-- The destination of a descriptor as a record. -/
def descDst (d : Dst) : DstRec :=
  if d.type = .varying then .varying (d.idx.setWidth 5) else .temp (d.idx.setWidth 6)

/-- `rec_of(D)` of 43_decoder.md R193, for a descriptor that ENC accepts. -/
def recOfDesc (P : Params) (D : Desc) : DRec :=
  { last := D.last, vpresent := present D.vdst.mask, spresent := present D.sdst.mask, pred := none
    sat := (present D.vdst.mask && D.vdst.sat) || (present D.sdst.mask && D.sdst.sat)
    vec :=
      if present D.vdst.mask then
        some { opcode := D.vop, name := vName P D.vop, arity := vArity P D.vop, dst := descDst D.vdst,
               mask := D.vdst.mask, srcs := ([D.src0, D.src1, D.src2].take (vArity P D.vop)).map descSrc }
      else none
    sc :=
      if present D.sdst.mask then
        some { opcode := D.sop, name := sName P D.sop, dst := descDst D.sdst, mask := D.sdst.mask,
               srcs := [descSrc D.src2] }
      else none }

end Sys2Proof.Machine
end

