-- ==== Sys2Proof/Machine/Buffer.lean ====
section
/-! DEFINITION. A byte memory as the argument of a pure function: its length and its bytes, sampled once (20_memory.md R48),
and the bounds-checked reads of it (R50). -/

namespace Sys2Proof.Machine

/-- The bytes `[0, len)` of a memory. No rule looks at `byte a` for `a ≥ len` (60_exceptions.md R257). -/
structure Buffer where
  len : Nat
  byte : Nat → Byte

/-- `MemRead(M, a, 1)`: defined only inside the memory (00_scope.md R10). -/
def readByte (b : Buffer) (a : Nat) : Option Byte := if a + 1 ≤ b.len then some (b.byte a) else none

/-- `MemRead(M, a, 4)`: a little-endian word (20_memory.md R42), at any address (R46). -/
def readWord (b : Buffer) (a : Nat) : Option Word :=
  if a + 4 ≤ b.len then some (wordOfBytes (b.byte a) (b.byte (a + 1)) (b.byte (a + 2)) (b.byte (a + 3))) else none

/-- `n` consecutive words from address `a`. -/
def readWords (b : Buffer) (a : Nat) : Nat → Option (List Word)
  | 0 => some []
  | n + 1 =>
    match readWord b a, readWords b (a + 4) n with
    | some w, some ws => some (w :: ws)
    | _, _ => none

/-- The instruction word of the 16 bytes at `a` (20_memory.md R43). -/
def readGroup (b : Buffer) (a : Nat) : Option BitWord :=
  match readWord b a, readWord b (a + 4), readWord b (a + 8), readWord b (a + 12) with
  | some w0, some w1, some w2, some w3 => some (ofWords w0 w1 w2 w3)
  | _, _, _, _ => none

/-- A read as a result: outside its domain `MemRead` has no value. -/
def needed {α : Type} : Option α → Result α
  | some a => .ok a
  | none => .error .outside

end Sys2Proof.Machine
end

