-- ==== Sys2Proof/Machine/State.lean ====
section
/-! DEFINITION. The state of the block (10_state.md R21), the host's commands and actions (10_state.md R35,
70_reset_and_hazards.md R275), the reasons a step can stop, and the state after reset (70_reset_and_hazards.md R270). -/

namespace Sys2Proof.Machine

/-- The twelve commands with the arguments the host supplies (10_state.md R35). Arguments are natural numbers, so every
value a host could give is here (log entry 17). -/
inductive Command where
  | bwZero
  | bwLoadw (words : List Word)
  | bwLoadb (sOff k : Nat)
  | bwStorew
  | bwExtract (lo hi : Nat)
  | bwInsert (lo hi value : Nat)
  | bwGetbit (i : Nat)
  | bwSetbit (i b : Nat)
  | parse
  | enc
  | dec
  | disasm (sOff sLen : Nat)
  deriving DecidableEq, Repr

/-- What the host does between commands (70_reset_and_hazards.md R272, R275), the commands themselves, and the reset event
(R270). -/
inductive HostAction where
  | command (c : Command)
  | writeD (d : Desc)
  | writeBuf (addr : Nat) (bytes : List Byte)
  | setBufLen (n : Nat)
  | writeStrm (addr : Nat) (bytes : List Byte)
  | setStrmLen (n : Nat)
  | reset
  deriving DecidableEq, Repr

/-- A byte memory of the host with its length register (10_state.md R31): the bytes written so far, addresses strictly
rising. An address that is not listed holds no value of its own (log entry 8). -/
structure Memory where
  len : Nat
  cells : List Host.Cell
  deriving DecidableEq, Repr

/-- What BW.STOREW returns: the four words and their 16 bytes (40_bitword.md R103). -/
structure ReadOut where
  words : List Word
  bytes : List Byte
  deriving DecidableEq, Repr

/-- Why a step stops with a fault. -/
inductive Fault where
  /-- `MemRead` was applied outside its domain (00_scope.md R10). No rule does so (20_memory.md R50, 60_exceptions.md R257)
  and no step of this model raises it; safe. -/
  | readOutsideMemory
  deriving DecidableEq, Repr

/-- Why a step stops with a refusal. -/
inductive Refusal where
  /-- An instruction of the table without a meaning yet; raised by no arm of exec in this model; safe. -/
  | notModelled (mnemonic : String)
  deriving DecidableEq, Repr

/-- The complete state: the table of 10_state.md R21 and three fields of the model's own. -/
structure State where
  /-- `W` (10_state.md R22). -/
  w : BitWord
  /-- `R` (R24). -/
  r : BitVec 128
  /-- `D` (R23). -/
  d : Desc
  /-- `DREC` (R25). -/
  drec : DRec
  /-- `TXT` (R25). -/
  txt : Txt
  /-- `ST` (R26). -/
  st : Status
  /-- `HDR` (R28). -/
  hdr : Header
  /-- `NSYM` (R21). -/
  nsym : BitVec 32
  /-- `SYM[0..NSYM-1]` (R29, log entry 13). -/
  sym : List SymbolRec
  /-- `DIAG` (R30). -/
  diag : List Nat
  /-- `BUF` and `BUFLEN` (R31). -/
  buf : Memory
  /-- `STRM` and `STRMLEN` (R31). -/
  strm : Memory
  /-- The model's own: the host's remaining actions, oldest first (log entry 1). -/
  host : List HostAction
  /-- The model's own: what the last BW.STOREW handed to the host (log entry 11). -/
  out : Option ReadOut
  /-- The model's own: how many resets have happened, for the free contents of unwritten bytes (log entries 8, 12). -/
  epoch : Nat
  deriving DecidableEq, Repr

/-- The absent destination: mask zero, every other field zero, type temp (10_state.md R23, R270). -/
def absentDst : Dst := { idx := 0, type := .temp, mask := 0, sat := false }

/-- The empty source of a descriptor (10_state.md R23, R270). -/
def absentSrc : Src := { valid := false, idx := 0, type := .temp, swz := 0, neg := false, abs := false }

/-- The absent instruction (10_state.md R23). -/
def absentDesc : Desc :=
  { vop := 0, vdst := absentDst, sop := 0, sdst := absentDst, src0 := absentSrc, src1 := absentSrc, src2 := absentSrc,
    last := false }

/-- The record of the zero word (70_reset_and_hazards.md R270). -/
def absentRec : DRec :=
  { last := false, vpresent := false, spresent := false, pred := none, sat := false, vec := none, sc := none }

/-- The header after reset: all words 0, `ptype = other(0)` (70_reset_and_hazards.md R270). -/
def zeroHeader : Header :=
  { type := 0, unknown0 := 0, size := 0, numSymbols := 0, barSize := 0, barOffset := 0, binarySize := 0,
    binaryOffset := 0, unknown1 := 0, unknown2 := 0, unknown3 := 0, unknown4 := 0, ptype := .other 0 }

/-- A memory of length 0 in which nothing has been written. -/
def emptyMemory : Memory := { len := 0, cells := [] }

/-- The state right after reset: the table of 70_reset_and_hazards.md R270. `host`, `out` and `epoch` are the model's own
fields (DESIGN CHOICE, log entries 1, 11, 12). -/
def State.reset : State :=
  { w := 0, r := 0, d := absentDesc, drec := absentRec, txt := .one [], st := .ok, hdr := zeroHeader, nsym := 0,
    sym := [], diag := [], buf := emptyMemory, strm := emptyMemory, host := [], out := none, epoch := 0 }

end Sys2Proof.Machine
end

