-- ==== Sys2Proof/Machine/Ops.lean ====
section
/-! DEFINITION. The shared operations of the commands: refusing a command and completing one (60_exceptions.md R246), the
host's byte memories (20_memory.md R40), and the argument a command samples from them (R48). -/

namespace Sys2Proof.Machine

/-! ### Refusal and completion -/

/-- `raise e`: the ONE way the block takes an exception. Only `ST` is written (60_exceptions.md R246, 00_scope.md R10).
Nothing is saved and there is nothing to return from (R249). -/
def State.raise (s : State) (e : Status) : State := { s with st := e }

/-- Completion: `ST <- OK` (60_exceptions.md R246). -/
def State.succeed (s : State) : State := { s with st := .ok }

/-- How every command ends: on a result its writes and `ST <- OK` at once, on a raised status that status alone
(60_exceptions.md R246, 70_reset_and_hazards.md R273). -/
def finish (s : State) (r : Result State) : Host.Outcome State Fault Refusal :=
  match r with
  | .ok t => .next t.succeed
  | .error (.raise e) => .next (s.raise e)
  | .error .outside => .fault .readOutsideMemory

/-! ### Byte memories -/

/-- The byte written at an address, if any. -/
def lookupCell : List Host.Cell → Nat → Option Byte
  | [], _ => none
  | (b, x) :: cs, a => if a = b then some x else lookupCell cs a

/-- The cells with one byte written, addresses kept rising. -/
def insertCell : List Host.Cell → Nat → Byte → List Host.Cell
  | [], a, v => [(a, v)]
  | (b, x) :: cs, a, v =>
    if a < b then (a, v) :: (b, x) :: cs else if a = b then (a, v) :: cs else (b, x) :: insertCell cs a v

/-- The canonical form: addresses strictly rising. An unlisted address has no value of its own, so no listed byte equals
one (log entry 8). -/
abbrev Memory.wf (m : Memory) : Prop := (m.cells.map Prod.fst).Pairwise (· < ·)

/-- The host writes one byte. -/
def Memory.write (m : Memory) (a : Nat) (v : Byte) : Memory := { m with cells := insertCell m.cells a v }

/-- The host writes bytes from an address on. -/
def Memory.writeBytes (m : Memory) : Nat → List Byte → Memory
  | _, [] => m
  | a, v :: vs => Memory.writeBytes (m.write a v) (a + 1) vs

/-- The host writes the length register. -/
def Memory.setLen (m : Memory) (n : Nat) : Memory := { m with len := n }

/-- The byte at an address: the one written, else the free value of the address (log entry 8). -/
def Memory.byte (m : Memory) (free : Nat → Byte) (a : Nat) : Byte := (lookupCell m.cells a).getD (free a)

/-- A memory sampled as the argument of a command (20_memory.md R48). -/
def Memory.view (m : Memory) (free : Nat → Byte) : Buffer := { len := m.len, byte := m.byte free }

/-- `BUF[0 .. BUFLEN-1]` as PARSE reads it. -/
def State.bufView (s : State) : Buffer := s.buf.view (Config.bufFree s.epoch)

/-- `STRM[0 .. STRMLEN-1]` as DISASM and BW.LOADB read it. -/
def State.strmView (s : State) : Buffer := s.strm.view (Config.strmFree s.epoch)

/-- The reset event between commands (70_reset_and_hazards.md R270): every register and both memories as after reset. The
host keeps its own plan and what it has read out (log entry 12). -/
def State.afterReset (s : State) : State := { State.reset with host := s.host, out := s.out, epoch := s.epoch + 1 }

end Sys2Proof.Machine
end

