-- ==== Sys2Proof/Machine/Codec.lean ====
section
/-! DEFINITION. What all instructions share: the decode side writes `DREC`, `TXT` and `ST` (43_decoder.md R194), the encode
side `W` and `ST` (42_encoder.md R167). All of it takes the parameters as an argument (00_scope.md R6). -/

namespace Sys2Proof.Machine

/-- The writes of DEC: the record and its text (43_decoder.md R194). `W` is not changed. -/
def State.showRec (P : Params) (s : State) (r : DRec) : State := { s with drec := r, txt := .one (render P.text r) }

/-- The decode side ends: it never fails (43_decoder.md R194). -/
def showRecord (P : Params) (s : State) (r : DRec) : Host.Outcome State Fault Refusal := finish s (.ok (s.showRec P r))

/-- The encode side of a descriptor: `W` on success, a refusal otherwise (42_encoder.md R167). -/
def encodeInto (P : Params) (s : State) (D : Desc) : Host.Outcome State Fault Refusal :=
  finish s ((liftStatus (encodeDesc P D)).map fun x => { s with w := x })

/-- The common template of the vector micro-ops, both sides (44_vector_ops.md R210). When the form's mask is zero the op
is absent (R229). -/
def execVector (P : Params) (m : VMnemonic) (f : VecForm) (s : State) : Host.Outcome State Fault Refusal :=
  match f with
  | .word o =>
    let F := o.toFields (P.vnum m)
    let v := if present o.mask then some (vecRecNamed F (.known m) (arity m)) else none
    showRecord P s (recWith F v (scaRec P F))
  | .desc o => encodeInto P s (o.toDesc (P.vnum m))

/-- The common template of the scalar micro-ops, both sides (45_scalar_ops.md R230). When the form's mask is zero the op
is absent (R239). -/
def execScalar (P : Params) (m : SMnemonic) (f : ScaForm) (s : State) : Host.Outcome State Fault Refusal :=
  match f with
  | .word o =>
    let F := o.toFields (P.snum m)
    let c := if present o.mask then some (scaRecNamed F (.known m)) else none
    showRecord P s (recWith F (vecRec P F) c)
  | .desc o => encodeInto P s (o.toDesc (P.snum m))

end Sys2Proof.Machine
end

