-- ==== Sys2Proof/Machine/Scalar.lean ====
section
/-! DEFINITION. The seven scalar micro-ops, one meaning each: the common template of 45_scalar_ops.md R230 with the op's own
name and number (Machine/Tables.lean).
Each takes the parameters as an argument, and has the default instance beside it (00_scope.md R6). -/

namespace Sys2Proof.Machine

/-- Scalar `cos` (45_scalar_ops.md R231): `sop` 0, slot 2. -/
def execScosIn (P : Params) (f : ScaForm) (s : State) : Host.Outcome State Fault Refusal :=
  execScalar P .cos f s

/-- Scalar `cos` in the default instance. -/
def execScos (f : ScaForm) (s : State) : Host.Outcome State Fault Refusal := execScosIn params f s

/-- Scalar `mov` (45_scalar_ops.md R232): `sop` 1, slot 2. -/
def execSmovIn (P : Params) (f : ScaForm) (s : State) : Host.Outcome State Fault Refusal :=
  execScalar P .mov f s

/-- Scalar `mov` in the default instance. -/
def execSmov (f : ScaForm) (s : State) : Host.Outcome State Fault Refusal := execSmovIn params f s

/-- Scalar `rcp` (45_scalar_ops.md R233): `sop` 2, slot 2. -/
def execSrcpIn (P : Params) (f : ScaForm) (s : State) : Host.Outcome State Fault Refusal :=
  execScalar P .rcp f s

/-- Scalar `rcp` in the default instance. -/
def execSrcp (f : ScaForm) (s : State) : Host.Outcome State Fault Refusal := execSrcpIn params f s

/-- Scalar `rsq` (45_scalar_ops.md R234): `sop` 4, slot 2. -/
def execSrsqIn (P : Params) (f : ScaForm) (s : State) : Host.Outcome State Fault Refusal :=
  execScalar P .rsq f s

/-- Scalar `rsq` in the default instance. -/
def execSrsq (f : ScaForm) (s : State) : Host.Outcome State Fault Refusal := execSrsqIn params f s

/-- Scalar `lg2` (45_scalar_ops.md R235): `sop` 13, slot 2. -/
def execSlg2In (P : Params) (f : ScaForm) (s : State) : Host.Outcome State Fault Refusal :=
  execScalar P .lg2 f s

/-- Scalar `lg2` in the default instance. -/
def execSlg2 (f : ScaForm) (s : State) : Host.Outcome State Fault Refusal := execSlg2In params f s

/-- Scalar `ex2` (45_scalar_ops.md R236): `sop` 14, slot 2. -/
def execSex2In (P : Params) (f : ScaForm) (s : State) : Host.Outcome State Fault Refusal :=
  execScalar P .ex2 f s

/-- Scalar `ex2` in the default instance. -/
def execSex2 (f : ScaForm) (s : State) : Host.Outcome State Fault Refusal := execSex2In params f s

/-- Scalar `sin` (45_scalar_ops.md R237): `sop` 15, slot 2. -/
def execSsinIn (P : Params) (f : ScaForm) (s : State) : Host.Outcome State Fault Refusal :=
  execScalar P .sin f s

/-- Scalar `sin` in the default instance. -/
def execSsin (f : ScaForm) (s : State) : Host.Outcome State Fault Refusal := execSsinIn params f s

end Sys2Proof.Machine
end

