-- ==== Sys2Proof/Machine/Vector.lean ====
section
/-! DEFINITION. The seventeen vector micro-ops, one meaning each: the common template of 44_vector_ops.md R210 with the
op's own name, number and arity (Machine/Tables.lean).
Each takes the parameters as an argument, and has the default instance beside it (00_scope.md R6). -/

namespace Sys2Proof.Machine

/-- Vector `mov` (44_vector_ops.md R211): `vop` 1, arity 1, slot 0. -/
def execVmovIn (P : Params) (f : VecForm) (s : State) : Host.Outcome State Fault Refusal :=
  execVector P .mov f s

/-- Vector `mov` in the default instance. -/
def execVmov (f : VecForm) (s : State) : Host.Outcome State Fault Refusal := execVmovIn params f s

/-- Vector `mul` (44_vector_ops.md R212): `vop` 2, arity 2, slots 0 and 1. -/
def execVmulIn (P : Params) (f : VecForm) (s : State) : Host.Outcome State Fault Refusal :=
  execVector P .mul f s

/-- Vector `mul` in the default instance. -/
def execVmul (f : VecForm) (s : State) : Host.Outcome State Fault Refusal := execVmulIn params f s

/-- Vector `add` (44_vector_ops.md R213): `vop` 3, arity 2, slots 0 and 1. -/
def execVaddIn (P : Params) (f : VecForm) (s : State) : Host.Outcome State Fault Refusal :=
  execVector P .add f s

/-- Vector `add` in the default instance. -/
def execVadd (f : VecForm) (s : State) : Host.Outcome State Fault Refusal := execVaddIn params f s

/-- Vector `mad` (44_vector_ops.md R214): `vop` 4, arity 3, slots 0, 1 and 2. -/
def execVmadIn (P : Params) (f : VecForm) (s : State) : Host.Outcome State Fault Refusal :=
  execVector P .mad f s

/-- Vector `mad` in the default instance. -/
def execVmad (f : VecForm) (s : State) : Host.Outcome State Fault Refusal := execVmadIn params f s

/-- Vector `dp3` (44_vector_ops.md R215): `vop` 5, arity 2, slots 0 and 1. -/
def execVdp3In (P : Params) (f : VecForm) (s : State) : Host.Outcome State Fault Refusal :=
  execVector P .dp3 f s

/-- Vector `dp3` in the default instance. -/
def execVdp3 (f : VecForm) (s : State) : Host.Outcome State Fault Refusal := execVdp3In params f s

/-- Vector `dp4` (44_vector_ops.md R216): `vop` 7, arity 2, slots 0 and 1. -/
def execVdp4In (P : Params) (f : VecForm) (s : State) : Host.Outcome State Fault Refusal :=
  execVector P .dp4 f s

/-- Vector `dp4` in the default instance. -/
def execVdp4 (f : VecForm) (s : State) : Host.Outcome State Fault Refusal := execVdp4In params f s

/-- Vector `min` (44_vector_ops.md R217): `vop` 9, arity 2, slots 0 and 1. -/
def execVminIn (P : Params) (f : VecForm) (s : State) : Host.Outcome State Fault Refusal :=
  execVector P .min f s

/-- Vector `min` in the default instance. -/
def execVmin (f : VecForm) (s : State) : Host.Outcome State Fault Refusal := execVminIn params f s

/-- Vector `max` (44_vector_ops.md R218): `vop` 10, arity 2, slots 0 and 1. -/
def execVmaxIn (P : Params) (f : VecForm) (s : State) : Host.Outcome State Fault Refusal :=
  execVector P .max f s

/-- Vector `max` in the default instance. -/
def execVmax (f : VecForm) (s : State) : Host.Outcome State Fault Refusal := execVmaxIn params f s

/-- Vector `slt` (44_vector_ops.md R219): `vop` 11, arity 2, slots 0 and 1. -/
def execVsltIn (P : Params) (f : VecForm) (s : State) : Host.Outcome State Fault Refusal :=
  execVector P .slt f s

/-- Vector `slt` in the default instance. -/
def execVslt (f : VecForm) (s : State) : Host.Outcome State Fault Refusal := execVsltIn params f s

/-- Vector `sge` (44_vector_ops.md R220): `vop` 12, arity 2, slots 0 and 1. -/
def execVsgeIn (P : Params) (f : VecForm) (s : State) : Host.Outcome State Fault Refusal :=
  execVector P .sge f s

/-- Vector `sge` in the default instance. -/
def execVsge (f : VecForm) (s : State) : Host.Outcome State Fault Refusal := execVsgeIn params f s

/-- Vector `arl` (44_vector_ops.md R221): `vop` 13, arity 1, slot 0. -/
def execVarlIn (P : Params) (f : VecForm) (s : State) : Host.Outcome State Fault Refusal :=
  execVector P .arl f s

/-- Vector `arl` in the default instance. -/
def execVarl (f : VecForm) (s : State) : Host.Outcome State Fault Refusal := execVarlIn params f s

/-- Vector `frc` (44_vector_ops.md R222): `vop` 14, arity 1, slot 0. -/
def execVfrcIn (P : Params) (f : VecForm) (s : State) : Host.Outcome State Fault Refusal :=
  execVector P .frc f s

/-- Vector `frc` in the default instance. -/
def execVfrc (f : VecForm) (s : State) : Host.Outcome State Fault Refusal := execVfrcIn params f s

/-- Vector `flr` (44_vector_ops.md R223): `vop` 15, arity 1, slot 0. -/
def execVflrIn (P : Params) (f : VecForm) (s : State) : Host.Outcome State Fault Refusal :=
  execVector P .flr f s

/-- Vector `flr` in the default instance. -/
def execVflr (f : VecForm) (s : State) : Host.Outcome State Fault Refusal := execVflrIn params f s

/-- Vector `seq` (44_vector_ops.md R224): `vop` 16, arity 2, slots 0 and 1. -/
def execVseqIn (P : Params) (f : VecForm) (s : State) : Host.Outcome State Fault Refusal :=
  execVector P .seq f s

/-- Vector `seq` in the default instance. -/
def execVseq (f : VecForm) (s : State) : Host.Outcome State Fault Refusal := execVseqIn params f s

/-- Vector `sgt` (44_vector_ops.md R225): `vop` 18, arity 2, slots 0 and 1. -/
def execVsgtIn (P : Params) (f : VecForm) (s : State) : Host.Outcome State Fault Refusal :=
  execVector P .sgt f s

/-- Vector `sgt` in the default instance. -/
def execVsgt (f : VecForm) (s : State) : Host.Outcome State Fault Refusal := execVsgtIn params f s

/-- Vector `sle` (44_vector_ops.md R226): `vop` 19, arity 2, slots 0 and 1. -/
def execVsleIn (P : Params) (f : VecForm) (s : State) : Host.Outcome State Fault Refusal :=
  execVector P .sle f s

/-- Vector `sle` in the default instance. -/
def execVsle (f : VecForm) (s : State) : Host.Outcome State Fault Refusal := execVsleIn params f s

/-- Vector `sne` (44_vector_ops.md R227): `vop` 20, arity 2, slots 0 and 1. -/
def execVsneIn (P : Params) (f : VecForm) (s : State) : Host.Outcome State Fault Refusal :=
  execVector P .sne f s

/-- Vector `sne` in the default instance. -/
def execVsne (f : VecForm) (s : State) : Host.Outcome State Fault Refusal := execVsneIn params f s

end Sys2Proof.Machine
end

