-- ==== Sys2Proof/Machine/Dispatch.lean ====
section
/-! DEFINITION. One arm per row of spec/opcode_table.json. -/

namespace Sys2Proof.Machine

def exec (i : Instr) (s : State) : Host.Outcome State Fault Refusal :=
  match i with
  | .vmov f => Sys2Proof.Machine.execVmov f s
  | .vmul f => Sys2Proof.Machine.execVmul f s
  | .vadd f => Sys2Proof.Machine.execVadd f s
  | .vmad f => Sys2Proof.Machine.execVmad f s
  | .vdp3 f => Sys2Proof.Machine.execVdp3 f s
  | .vdp4 f => Sys2Proof.Machine.execVdp4 f s
  | .vmin f => Sys2Proof.Machine.execVmin f s
  | .vmax f => Sys2Proof.Machine.execVmax f s
  | .vslt f => Sys2Proof.Machine.execVslt f s
  | .vsge f => Sys2Proof.Machine.execVsge f s
  | .varl f => Sys2Proof.Machine.execVarl f s
  | .vfrc f => Sys2Proof.Machine.execVfrc f s
  | .vflr f => Sys2Proof.Machine.execVflr f s
  | .vseq f => Sys2Proof.Machine.execVseq f s
  | .vsgt f => Sys2Proof.Machine.execVsgt f s
  | .vsle f => Sys2Proof.Machine.execVsle f s
  | .vsne f => Sys2Proof.Machine.execVsne f s
  | .scos f => Sys2Proof.Machine.execScos f s
  | .smov f => Sys2Proof.Machine.execSmov f s
  | .srcp f => Sys2Proof.Machine.execSrcp f s
  | .srsq f => Sys2Proof.Machine.execSrsq f s
  | .slg2 f => Sys2Proof.Machine.execSlg2 f s
  | .sex2 f => Sys2Proof.Machine.execSex2 f s
  | .ssin f => Sys2Proof.Machine.execSsin f s

end Sys2Proof.Machine
end

