-- ==== Sys2Proof/Machine/Instance.lean ====
section
/-! DEFINITION. The instructions under any instance of the parameters (00_scope.md R6). Machine/Dispatch.lean has them under
the default instance. -/

namespace Sys2Proof.Machine

/-- What runs an instruction. -/
abbrev Runner := Instr → State → Host.Outcome State Fault Refusal

/-- The instruction under an instance of the parameters. -/
def execIn (P : Params) (i : Instr) (s : State) : Host.Outcome State Fault Refusal :=
  match i with
  | .vmov f => execVmovIn P f s
  | .vmul f => execVmulIn P f s
  | .vadd f => execVaddIn P f s
  | .vmad f => execVmadIn P f s
  | .vdp3 f => execVdp3In P f s
  | .vdp4 f => execVdp4In P f s
  | .vmin f => execVminIn P f s
  | .vmax f => execVmaxIn P f s
  | .vslt f => execVsltIn P f s
  | .vsge f => execVsgeIn P f s
  | .varl f => execVarlIn P f s
  | .vfrc f => execVfrcIn P f s
  | .vflr f => execVflrIn P f s
  | .vseq f => execVseqIn P f s
  | .vsgt f => execVsgtIn P f s
  | .vsle f => execVsleIn P f s
  | .vsne f => execVsneIn P f s
  | .scos f => execScosIn P f s
  | .smov f => execSmovIn P f s
  | .srcp f => execSrcpIn P f s
  | .srsq f => execSrsqIn P f s
  | .slg2 f => execSlg2In P f s
  | .sex2 f => execSex2In P f s
  | .ssin f => execSsinIn P f s

end Sys2Proof.Machine
end

