-- ==== Sys2Proof/Machine/Parser.lean ====
section
/-! DEFINITION. The container parser as a pure function (41_container.md R120 to R138). -/

namespace Sys2Proof.Machine

/-- Refusal of a container (60_exceptions.md R244). -/
def malformed {α : Type} : Result α := .error (.raise .malformedContainer)

/-- `HDR.ptype` of a tag (41_container.md R124): the whole word is compared, and no tag is an error. -/
def ptypeOf (tag : Word) : PType :=
  if tag = tagVertex then .vertex else if tag = tagFragment then .fragment else .other tag

/-- The header of its twelve words (30_encoding.md R89). -/
def headerOf (h : List Word) : Header :=
  { type := h.getD 0 0, unknown0 := h.getD 1 0, size := h.getD 2 0, numSymbols := h.getD 3 0, barSize := h.getD 4 0,
    barOffset := h.getD 5 0, binarySize := h.getD 6 0, binaryOffset := h.getD 7 0, unknown1 := h.getD 8 0,
    unknown2 := h.getD 9 0, unknown3 := h.getD 10 0, unknown4 := h.getD 11 0, ptype := ptypeOf (h.getD 0 0) }

/-- 41_container.md R121: check (1) of R134, then the twelve words. -/
def readHeader (b : Buffer) : Result Header :=
  if b.len < headerBytes then malformed
  else do
    let h ← needed (readWords b 0 12)
    return headerOf h

/-- 41_container.md R123: the offset lies inside the container, and so does the region's end. The sum does not wrap. -/
def regionOk (size off sz : Nat) : Bool := decide (off < size) && decide (off + sz ≤ size)

/-- Checks (2) to (5) of 41_container.md R134, in that order (R122, R123, R125). -/
def checkHeader (P : Params) (b : Buffer) (h : Header) : Result Unit :=
  if h.size.toNat < headerBytes ∨ h.size.toNat > b.len then malformed
  else if headerBytes + recordBytes * h.numSymbols.toNat > h.size.toNat then malformed
  else if regionOk h.size.toNat h.barOffset.toNat h.barSize.toNat = false then malformed
  else if regionOk h.size.toNat h.binaryOffset.toNat h.binarySize.toNat = false then malformed
  else if h.numSymbols.toNat > P.maxSymbols then .error (.raise .outOfMemory)
  else .ok ()

/-- The bytes from `p` up to the first zero byte below `p + fuel` (41_container.md R127). -/
def scanName (b : Buffer) : Nat → Nat → Result (List Byte)
  | 0, _ => malformed
  | fuel + 1, p => do
    let c ← needed (readByte b p)
    if c = 0 then return []
    else do
      let rest ← scanName b fuel (p + 1)
      return c :: rest

/-- The name of a record (41_container.md R127): offset 0 means none. -/
def readName (b : Buffer) (size off : Nat) : Result (Option (List Byte)) :=
  if off = 0 then .ok none
  else if off ≥ size then malformed
  else do
    let n ← scanName b (size - off) off
    return some n

/-- The kind of a tag (41_container.md R129): the whole word is compared. -/
def kindOf (tag : Word) : SymKind :=
  if tag = kindAttribute then .attr
  else if tag = kindUniform then .uniform
  else if tag = kindConstant then .constant
  else .unknown

/-- The type of a record's type word (41_container.md R130): the table is searched by the low byte. -/
def typeOf (P : Params) (w : Word) : SymType := (P.dtype.lookup (w.setWidth 8)).getD .unknown

/-- The zeroed vector (41_container.md R131). -/
def zeroVec : Vec4 := { x0 := 0, x1 := 0, x2 := 0, x3 := 0 }

/-- The four value words of a list. -/
def vecOf (ws : List Word) : Vec4 := { x0 := ws.getD 0 0, x1 := ws.getD 1 0, x2 := ws.getD 2 0, x3 := ws.getD 3 0 }

/-- Are the four value words read (41_container.md R131)? -/
def hasValues (kind : SymKind) (off : Nat) : Bool := decide (kind = .constant) && decide (off ≠ 0)

/-- The vector of a record (41_container.md R131). -/
def readVector (b : Buffer) (kind : SymKind) (off : Nat) : Result Vec4 :=
  if hasValues kind off then do
    let ws ← needed (readWords b off 4)
    return vecOf ws
  else .ok zeroVec

/-- A record without values offset whose kind is constant gives a diagnostic (41_container.md R131, 10_state.md R30). -/
def diagnosed (s : SymbolRec) : Bool := decide (s.kind = .constant) && !s.hasValues

/-- Record `i` resolved (41_container.md R126 to R132): the name's check comes before the values offset's (R134 (6)), and a
non-zero values offset is checked whatever the kind (R128). -/
def parseRecord (P : Params) (b : Buffer) (size i : Nat) : Result SymbolRec := do
  let r ← needed (readWords b (headerBytes + recordBytes * i) 12)
  let kind := kindOf (r.getD P.symRec.kindWord 0)
  let values := (r.getD P.symRec.valuesWord 0).toNat
  let name ← readName b size (r.getD P.symRec.nameWord 0).toNat
  if values ≠ 0 ∧ values + 16 > size then malformed
  else do
    let vec ← readVector b kind values
    return { location := r.getD P.symRec.locationWord 0, kind := kind,
             type := typeOf P (r.getD P.symRec.dtypeWord 0), name := name, vector := vec,
             hasValues := hasValues kind values }

/-- `n` records from record `i` on, in order (41_container.md R126). -/
def parseRecords (P : Params) (b : Buffer) (size : Nat) : Nat → Nat → Result (List SymbolRec)
  | 0, _ => .ok []
  | n + 1, i => do
    let s ← parseRecord P b size i
    let ss ← parseRecords P b size n (i + 1)
    return s :: ss

/-- The diagnostics of symbols numbered from `i` (41_container.md R131, 10_state.md R30): increasing indices. -/
def diagFrom : Nat → List SymbolRec → List Nat
  | _, [] => []
  | i, s :: ss => if diagnosed s then i :: diagFrom (i + 1) ss else diagFrom (i + 1) ss

/-- `parse(buffer)` of 41_container.md R120, in the order of R134. -/
def parse (P : Params) (b : Buffer) : Result Parsed := do
  let h ← readHeader b
  checkHeader P b h
  let ss ← parseRecords P b h.size.toNat h.numSymbols.toNat 0
  return { hdr := h, syms := ss, diag := diagFrom 0 ss }

/-- The word at an offset of the binary payload, when it lies inside the payload (20_memory.md R42, R49). -/
def payloadWord (b : Buffer) (h : Header) (k : Nat) : Option Word :=
  if k + 4 ≤ h.binarySize.toNat then readWord b (h.binaryOffset.toNat + k) else none

/-- What the HOST reads out of the binary payload under `VSH_FIELDS` and passes to DISASM as `(s_off, s_len)`
(20_memory.md R41, 41_container.md R136, log entry 20); nothing when the parameter is not given. No command does so. -/
def streamPlace (P : Params) (b : Buffer) (h : Header) : Option (Nat × Nat) :=
  match P.vshFields with
  | none => none
  | some v =>
    match payloadWord b h v.offsetAt, payloadWord b h v.lengthAt with
    | some off, some len => some (off.toNat, len.toNat)
    | _, _ => none

end Sys2Proof.Machine
end

