-- ==== Sys2Proof/Machine/Commands.lean ====
section
/-! DEFINITION. The twelve commands over the state (10_state.md R35), the host's writes between them
(70_reset_and_hazards.md R275), and one action of the host. They take the parameters as an argument (00_scope.md R6). -/

namespace Sys2Proof.Machine

/-- BW.ZERO (40_bitword.md R101). -/
def runZero (s : State) : Host.Outcome State Fault Refusal := finish s (.ok { s with w := 0 })

/-- BW.LOADW (40_bitword.md R102). -/
def runLoadw (words : List Word) (s : State) : Host.Outcome State Fault Refusal :=
  finish s ((liftStatus (fromWords words)).map fun x => { s with w := x })

/-- Word `k` of the stream at `sOff` (40_bitword.md R111). -/
def loadGroup (b : Buffer) (sOff k : Nat) : Result BitWord :=
  if sOff + 16 * k + 16 > b.len then .error (.raise .malformedContainer) else needed (readGroup b (sOff + 16 * k))

/-- BW.LOADB (40_bitword.md R111). -/
def runLoadb (sOff k : Nat) (s : State) : Host.Outcome State Fault Refusal :=
  finish s ((loadGroup s.strmView sOff k).map fun x => { s with w := x })

/-- BW.STOREW (40_bitword.md R103): it writes no register of the block; what it returns goes to the host (log entry 11). -/
def runStorew (s : State) : Host.Outcome State Fault Refusal :=
  finish s (.ok { s with out := some { words := wordsOf s.w, bytes := bytesOfWords s.w } })

/-- BW.EXTRACT (40_bitword.md R104). -/
def runExtract (lo hi : Nat) (s : State) : Host.Outcome State Fault Refusal :=
  finish s ((liftStatus (extract s.w lo hi)).map fun x => { s with r := x })

/-- BW.INSERT (40_bitword.md R105). -/
def runInsert (lo hi value : Nat) (s : State) : Host.Outcome State Fault Refusal :=
  finish s ((liftStatus (insert s.w lo hi value)).map fun x => { s with w := x })

/-- BW.GETBIT (40_bitword.md R106). -/
def runGetbit (i : Nat) (s : State) : Host.Outcome State Fault Refusal :=
  finish s ((liftStatus (getBit s.w i)).map fun x => { s with r := x })

/-- BW.SETBIT (40_bitword.md R107). -/
def runSetbit (i b : Nat) (s : State) : Host.Outcome State Fault Refusal :=
  finish s ((liftStatus (setBit s.w i b)).map fun x => { s with w := x })

/-- The writes of a successful PARSE (41_container.md R133): all four registers together. -/
def State.writeParsed (s : State) (p : Parsed) : State :=
  { s with hdr := p.hdr, nsym := BitVec.ofNat 32 p.syms.length, sym := p.syms, diag := p.diag }

/-- PARSE (41_container.md R133). -/
def runParse (P : Params) (s : State) : Host.Outcome State Fault Refusal :=
  finish s ((parse P s.bufView).map s.writeParsed)

/-- ENC (42_encoder.md R167): the descriptor's instruction runs its encode side; a descriptor that holds no op of the table
(both ops absent, or unknown opcodes) is encoded by the same function (44_vector_ops.md R228, R229). -/
def runEnc (P : Params) (run : Runner) (s : State) : Host.Outcome State Fault Refusal :=
  match descInstr P s.d with
  | .ok i => run i s
  | .error _ => encodeInto P s s.d

/-- DEC (43_decoder.md R194): the word's instruction runs its decode side; a word that holds no op of the table is decoded by
the same functions (30_encoding.md R82). -/
def runDec (P : Params) (run : Runner) (s : State) : Host.Outcome State Fault Refusal :=
  match decodeWord P s.w with
  | .ok i => run i s
  | .error _ => showRecord P s (decodeFields P s.w)

/-- The texts of `n` words from address `a` on, in address order (43_decoder.md R195, 20_memory.md R55): `last` does not
stop it. -/
def disasmWords (P : Params) (b : Buffer) : Nat → Nat → Result (List Text)
  | 0, _ => .ok []
  | n + 1, a => do
    let w ← needed (readGroup b a)
    let ts ← disasmWords P b n (a + 16)
    return decodeText P w :: ts

/-- `disassemble` of a stream of `sLen` bytes at `sOff` (43_decoder.md R195). -/
def disassemble (P : Params) (b : Buffer) (sOff sLen : Nat) : Result (List Text) :=
  if sLen % 16 ≠ 0 ∨ sOff + sLen > b.len then .error (.raise .malformedContainer)
  else disasmWords P b (sLen / 16) sOff

/-- DISASM (43_decoder.md R195): `W` and `DREC` are not changed. -/
def runDisasm (P : Params) (sOff sLen : Nat) (s : State) : Host.Outcome State Fault Refusal :=
  finish s ((disassemble P s.strmView sOff sLen).map fun ts => { s with txt := .many ts })

/-- One command (10_state.md R35) under an instance of the parameters, with what runs its instructions. -/
def runCommandWith (P : Params) (run : Runner) (c : Command) (s : State) : Host.Outcome State Fault Refusal :=
  match c with
  | .bwZero => runZero s
  | .bwLoadw words => runLoadw words s
  | .bwLoadb sOff k => runLoadb sOff k s
  | .bwStorew => runStorew s
  | .bwExtract lo hi => runExtract lo hi s
  | .bwInsert lo hi value => runInsert lo hi value s
  | .bwGetbit i => runGetbit i s
  | .bwSetbit i b => runSetbit i b s
  | .parse => runParse P s
  | .enc => runEnc P run s
  | .dec => runDec P run s
  | .disasm sOff sLen => runDisasm P sOff sLen s

/-- One command under any instance of the parameters (00_scope.md R6). -/
def runCommandIn (P : Params) (c : Command) (s : State) : Host.Outcome State Fault Refusal :=
  runCommandWith P (execIn P) c s

/-- One command in the default instance. -/
def runCommand (c : Command) (s : State) : Host.Outcome State Fault Refusal := runCommandWith params exec c s

/-- One action of the host: a command, a write to an input register or memory between commands, or the reset event. -/
def runAction (P : Params) (run : Runner) (a : HostAction) (s : State) : Host.Outcome State Fault Refusal :=
  match a with
  | .command c => runCommandWith P run c s
  | .writeD d => .next { s with d := d }
  | .writeBuf addr bytes => .next { s with buf := s.buf.writeBytes addr bytes }
  | .setBufLen n => .next { s with buf := s.buf.setLen n }
  | .writeStrm addr bytes => .next { s with strm := s.strm.writeBytes addr bytes }
  | .setStrmLen n => .next { s with strm := s.strm.setLen n }
  | .reset => .next s.afterReset

/-- The word of a table number becomes the content of `W` (log entry 4). -/
def State.withWord (s : State) (w : BitWord) : State := { s with w := w, host := .command .dec :: s.host }

end Sys2Proof.Machine
end

