-- ==== Sys2Proof/Machine/Step.lean ====
section
/-! DEFINITION. One step: the host's next action (10_state.md R20); with none left the block waits (70_reset_and_hazards.md
R271). -/

namespace Sys2Proof.Machine

/-- One atomic step under an instance of the parameters, with what runs its instructions. -/
def stepWith (P : Params) (run : Runner) (s : State) : Host.Outcome State Fault Refusal :=
  match s.host with
  | [] => .next s
  | a :: rest => runAction P run a { s with host := rest }

/-- One atomic step under any instance of the parameters (00_scope.md R6). -/
def stepIn (P : Params) (s : State) : Host.Outcome State Fault Refusal := stepWith P (execIn P) s

/-- One atomic step in the default instance. -/
def step (s : State) : Host.Outcome State Fault Refusal := stepWith params exec s

/-- The state whose next step decodes the instruction of a table word: the word stands in `W` and the host's next action is
DEC (log entry 4). -/
def State.withFetchWord (s : State) (nbits w : Nat) : State := s.withWord (tableWord nbits w)

end Sys2Proof.Machine
end

