-- ==== Sys2Proof/Safety.lean ====
section
/-! DEFINITION. The terms the statements use: what a good state of the block is, when a descriptor or a container is
refused, in the words of the rules, and the rows of the opcode table. -/

namespace Sys2Proof

/-! ### Operand forms -/

/-- The operand form of an instruction is a word's fields, not a descriptor. -/
def VecForm.isWord : VecForm → Bool
  | .word _ => true
  | .desc _ => false

/-- The same for a scalar form. -/
def ScaForm.isWord : ScaForm → Bool
  | .word _ => true
  | .desc _ => false

/-- The operand form of an instruction is a word's fields. -/
def Instr.isWord : Instr → Bool
  | .vmov f => VecForm.isWord f | .vmul f => VecForm.isWord f | .vadd f => VecForm.isWord f
  | .vmad f => VecForm.isWord f | .vdp3 f => VecForm.isWord f | .vdp4 f => VecForm.isWord f
  | .vmin f => VecForm.isWord f | .vmax f => VecForm.isWord f | .vslt f => VecForm.isWord f
  | .vsge f => VecForm.isWord f | .varl f => VecForm.isWord f | .vfrc f => VecForm.isWord f
  | .vflr f => VecForm.isWord f | .vseq f => VecForm.isWord f | .vsgt f => VecForm.isWord f
  | .vsle f => VecForm.isWord f | .vsne f => VecForm.isWord f
  | .scos f => ScaForm.isWord f | .smov f => ScaForm.isWord f | .srcp f => ScaForm.isWord f
  | .srsq f => ScaForm.isWord f | .slg2 f => ScaForm.isWord f | .sex2 f => ScaForm.isWord f
  | .ssin f => ScaForm.isWord f

/-- Slot `i` of a word's fields. -/
def Fields.slot (F : Fields) : Nat → Slot
  | 0 => F.s0
  | 1 => F.s1
  | _ => F.s2

end Sys2Proof

namespace Sys2Proof.Machine

/-! ### Good states -/

/-- A symbol is as PARSE makes them: its vector is valid for constants only, and zero when it is not valid
(10_state.md R29). -/
def SymbolRec.good (y : SymbolRec) : Prop :=
  (y.hasValues = true → y.kind = .constant) ∧ (y.hasValues = false → y.vector = { x0 := 0, x1 := 0, x2 := 0, x3 := 0 })

/-- The invariant of the registers: the memories have their canonical form, `NSYM` counts `SYM`, which fits its capacity,
`DIAG` lists the constants without values, `HDR.ptype` is that of `HDR.type`, and `DREC` is the decode of some word
(10_state.md R25, R28 to R30, log entry 8). -/
structure State.Good (s : State) : Prop where
  buf_wf : s.buf.wf
  strm_wf : s.strm.wf
  nsym_counts : s.nsym.toNat = s.sym.length
  sym_fits : s.sym.length ≤ params.maxSymbols
  nsym_header : s.nsym = s.hdr.numSymbols
  sym_good : ∀ y ∈ s.sym, y.good
  diag_lists : s.diag = diagFrom 0 s.sym
  ptype_of : s.hdr.ptype = ptypeOf s.hdr.type
  drec_decodes : ∃ x : BitWord, s.drec = decodeFields params x

/-! ### When ENC refuses a descriptor -/

/-- 42_encoder.md R154 (a) to (c), for the destination of a present op. -/
def DstBroken (d : Dst) : Prop :=
  d.type = .attr ∨ d.type = .constant ∨ (d.type = .temp ∧ 62 < d.idx.toNat) ∨
    (d.type = .varying ∧ 31 < d.idx.toNat)

/-- 42_encoder.md R154 (d) to (g), for an encoded slot. -/
def SrcBroken (s : Src) : Prop :=
  s.type = .varying ∨ (s.type = .temp ∧ 63 < s.idx.toNat) ∨ (s.type = .attr ∧ 15 < s.idx.toNat) ∨
    (s.type = .constant ∧ 255 < s.idx.toNat)

/-- A slot is encoded: a present op uses it and it is valid (42_encoder.md R153). -/
def SlotEncoded (P : Params) (D : Desc) (i : Nat) : Prop :=
  i < 3 ∧ ((D.vdst.mask ≠ 0 ∧ i < vArity P D.vop) ∨ (D.sdst.mask ≠ 0 ∧ i = 2)) ∧ (srcAt D i).valid = true

/-- Some check of 42_encoder.md R154 fails. -/
def ContractBroken (P : Params) (D : Desc) : Prop :=
  (D.vdst.mask ≠ 0 ∧ DstBroken D.vdst) ∨ (D.sdst.mask ≠ 0 ∧ DstBroken D.sdst) ∨
    ∃ i, SlotEncoded P D i ∧ SrcBroken (srcAt D i)

/-- Two encoded slots ask for different constants, or for different attributes (60_exceptions.md R242). -/
def FetchConflict (P : Params) (D : Desc) : Prop :=
  ∃ i j, SlotEncoded P D i ∧ SlotEncoded P D j ∧ (srcAt D i).idx ≠ (srcAt D j).idx ∧
    (((srcAt D i).type = .constant ∧ (srcAt D j).type = .constant) ∨
      ((srcAt D i).type = .attr ∧ (srcAt D j).type = .attr))

/-- Both ops are present and disagree on the varying target or on saturate (60_exceptions.md R243). -/
def ModifierConflict (D : Desc) : Prop :=
  D.vdst.mask ≠ 0 ∧ D.sdst.mask ≠ 0 ∧
    ((D.vdst.type = .varying ∧ D.sdst.type = .varying ∧ D.vdst.idx ≠ D.sdst.idx) ∨ D.vdst.sat ≠ D.sdst.sat)

/-- A slot of a word that a present op uses (30_encoding.md R80). -/
def usesSlot (P : Params) (F : Fields) (i : Nat) : Prop :=
  (F.vec.mask ≠ 0 ∧ i < vArity P F.vec.op) ∨ (F.sc.mask ≠ 0 ∧ i = 2)

/-- The properties 42_encoder.md R166 lists for the words the encoder returns. -/
structure Canonical (P : Params) (w : BitWord) : Prop where
  reserved_zero : ∀ b, b < 128 → (∀ f : Field, b < P.lo f ∨ P.hi f < b) → bit w b = false
  gate_zero : getField P w .pen = 0 ∧ getField P w .pneg = 0 ∧ getField P w .pswz = 0
  vec_absent : getField P w .vmask = 0 → getField P w .vop = 0 ∧ getField P w .vdst = 0
  sc_absent : getField P w .smask = 0 → getField P w .sop = 0 ∧ getField P w .sdst = 0
  unused_zero : ∀ i, i < 3 → ¬ usesSlot P (readFields P w) i → (readFields P w).slot i = emptySlot
  shared_index_zero : ∀ i, i < 3 →
    ((readFields P w).slot i).type = 2 ∨ ((readFields P w).slot i).type = 3 → ((readFields P w).slot i).idx = 0
  untyped_zero : ∀ i, i < 3 → ((readFields P w).slot i).type = 0 → (readFields P w).slot i = emptySlot
  cfetch_used : getField P w .cfetch ≠ 0 → ∃ i, i < 3 ∧ ((readFields P w).slot i).type = 3
  afetch_used : getField P w .afetch ≠ 0 → ∃ i, i < 3 ∧ ((readFields P w).slot i).type = 2
  vflag_exact : getField P w .vflag = 1 ↔ getField P w .vdst = 63 ∨ getField P w .sdst = 63
  tgt_used : getField P w .tgt ≠ 0 → getField P w .vdst = 63 ∨ getField P w .sdst = 63
  sat_used : getField P w .sat = 1 → getField P w .vmask ≠ 0 ∨ getField P w .smask ≠ 0

/-! ### When PARSE refuses a container -/

/-- The little-endian word at an address. -/
def Buffer.word (b : Buffer) (a : Nat) : Word :=
  wordOfBytes (b.byte a) (b.byte (a + 1)) (b.byte (a + 2)) (b.byte (a + 3))

/-- The number a header or record word holds. -/
def Buffer.num (b : Buffer) (a : Nat) : Nat := (b.word a).toNat

/-- A region of the header lies inside the container (41_container.md R123). -/
def RegionInside (size off sz : Nat) : Prop := off < size ∧ off + sz ≤ size

/-- One of the checks (1) to (4) of 41_container.md R134 fails: header words 2 to 7 stand at bytes 8, 12, 16, 20, 24, 28. -/
def HeaderBroken (b : Buffer) : Prop :=
  b.len < 48 ∨ b.num 8 < 48 ∨ b.len < b.num 8 ∨ b.num 8 < 48 + 48 * b.num 12 ∨
    ¬ RegionInside (b.num 8) (b.num 20) (b.num 16) ∨ ¬ RegionInside (b.num 8) (b.num 28) (b.num 24)

/-- The name at an offset is outside the container or not terminated inside it (41_container.md R127). -/
def NameBroken (b : Buffer) (size off : Nat) : Prop :=
  off ≠ 0 ∧ (size ≤ off ∨ ∀ p, off ≤ p → p < size → b.byte p ≠ 0)

/-- Check (6) of 41_container.md R134 fails for record `i`, with the default record layout. -/
def RecordBroken (b : Buffer) (i : Nat) : Prop :=
  NameBroken b (b.num 8) (b.num (48 + 48 * i + 12)) ∨
    (b.num (48 + 48 * i + 16) ≠ 0 ∧ b.num 8 < b.num (48 + 48 * i + 16) + 16)

/-- A name as 41_container.md R127 gives it: none at offset 0, else the bytes up to the first zero byte, which stands
inside the container. -/
def NameIs (b : Buffer) (size off : Nat) : Option (List Byte) → Prop
  | none => off = 0
  | some n => off ≠ 0 ∧ off + n.length < size ∧ b.byte (off + n.length) = 0 ∧
      ∀ j, j < n.length → b.byte (off + j) ≠ 0 ∧ n[j]? = some (b.byte (off + j))

/-- Symbol `i` of a container with the default record layout (41_container.md R126 to R132). The data-type byte is the
record's first byte. -/
structure SymbolIs (P : Params) (b : Buffer) (i : Nat) (y : SymbolRec) : Prop where
  location_is : y.location = b.word (48 + 48 * i + 8)
  kind_is : y.kind =
    if b.num (48 + 48 * i + 4) = 0x1005 then .attr
    else if b.num (48 + 48 * i + 4) = 0x1006 then .uniform
    else if b.num (48 + 48 * i + 4) = 0x1007 then .constant
    else .unknown
  type_is : y.type = (P.dtype.lookup (b.byte (48 + 48 * i))).getD .unknown
  name_is : NameIs b (b.num 8) (b.num (48 + 48 * i + 12)) y.name
  values_is : y.hasValues = true ↔ b.num (48 + 48 * i + 4) = 0x1007 ∧ b.num (48 + 48 * i + 16) ≠ 0
  vector_is : y.vector =
    if y.hasValues then
      { x0 := b.word (b.num (48 + 48 * i + 16)), x1 := b.word (b.num (48 + 48 * i + 16) + 4),
        x2 := b.word (b.num (48 + 48 * i + 16) + 8), x3 := b.word (b.num (48 + 48 * i + 16) + 12) }
    else { x0 := 0, x1 := 0, x2 := 0, x3 := 0 }

/-! ### What a command reads and writes (10_state.md R35) -/

/-- Two memories hold the same bytes up to the same length. -/
def Buffer.same (b c : Buffer) : Prop := b.len = c.len ∧ ∀ a, a < b.len → b.byte a = c.byte a

/-- Two states agree on everything a command reads (10_state.md R35, column "reads"). -/
def Command.inputsAgree (s s' : State) : Command → Prop
  | .bwZero | .bwLoadw _ => True
  | .bwLoadb _ _ | .disasm _ _ => s.strmView.same s'.strmView
  | .bwStorew | .bwExtract _ _ | .bwInsert _ _ _ | .bwGetbit _ | .bwSetbit _ _ | .dec => s.w = s'.w
  | .parse => s.bufView.same s'.bufView
  | .enc => s.d = s'.d

/-- Two states agree on everything a command writes on success (10_state.md R35, column "writes on success"; the read-out
of BW.STOREW stands in the model's own field `out`). -/
def Command.outputsAgree (t t' : State) : Command → Prop
  | .bwZero | .bwLoadw _ | .bwLoadb _ _ | .bwInsert _ _ _ | .bwSetbit _ _ | .enc => t.w = t'.w
  | .bwStorew => t.out = t'.out
  | .bwExtract _ _ | .bwGetbit _ => t.r = t'.r
  | .parse => t.hdr = t'.hdr ∧ t.nsym = t'.nsym ∧ t.sym = t'.sym ∧ t.diag = t'.diag
  | .dec => t.drec = t'.drec ∧ t.txt = t'.txt
  | .disasm _ _ => t.txt = t'.txt

/-- When a command ends with a refusal, and with which (60_exceptions.md R241 to R245 with the priorities of R248). No
other pair of a command and a status is a refusal. -/
def Command.refusedWith (s : State) : Command → Status → Prop
  | .bwLoadw words, .contractViolation => 4 < words.length
  | .bwExtract lo hi, .contractViolation => ¬ (lo ≤ hi ∧ hi < 128)
  | .bwInsert lo hi value, .contractViolation => ¬ (lo ≤ hi ∧ hi < 128) ∨ 2 ^ (hi - lo + 1) ≤ value
  | .bwGetbit i, .contractViolation => 128 ≤ i
  | .bwSetbit i b, .contractViolation => 128 ≤ i ∨ 1 < b
  | .enc, .contractViolation => ContractBroken params s.d
  | .enc, .conflictingFetch => ¬ ContractBroken params s.d ∧ FetchConflict params s.d
  | .enc, .conflictingModifier =>
    ¬ ContractBroken params s.d ∧ ¬ FetchConflict params s.d ∧ ModifierConflict s.d
  | .bwLoadb sOff k, .malformedContainer => s.strm.len < sOff + 16 * k + 16
  | .disasm sOff sLen, .malformedContainer => sLen % 16 ≠ 0 ∨ s.strm.len < sOff + sLen
  | .parse, .malformedContainer =>
    HeaderBroken s.bufView ∨
      (s.bufView.num 12 ≤ params.maxSymbols ∧ ∃ i, i < s.bufView.num 12 ∧ RecordBroken s.bufView i)
  | .parse, .outOfMemory => ¬ HeaderBroken s.bufView ∧ params.maxSymbols < s.bufView.num 12
  | _, _ => False

/-! ### The rows of the opcode table -/

/-- A vector row: its constructor, `vop` number, mnemonic, printed name and arity (30_encoding.md R77). -/
structure VecRow where
  make : VecForm → Instr
  number : BitVec 5
  mnemonic : VMnemonic
  name : Text
  arity : Nat

/-- The seventeen vector rows, as 30_encoding.md R77 and 44_vector_ops.md R211 to R227 give them. -/
def vectorRows : List VecRow :=
  [⟨.vmov, 1, .mov, asc "mov", 1⟩, ⟨.vmul, 2, .mul, asc "mul", 2⟩, ⟨.vadd, 3, .add, asc "add", 2⟩,
   ⟨.vmad, 4, .mad, asc "mad", 3⟩, ⟨.vdp3, 5, .dp3, asc "dp3", 2⟩, ⟨.vdp4, 7, .dp4, asc "dp4", 2⟩,
   ⟨.vmin, 9, .min, asc "min", 2⟩, ⟨.vmax, 10, .max, asc "max", 2⟩, ⟨.vslt, 11, .slt, asc "slt", 2⟩,
   ⟨.vsge, 12, .sge, asc "sge", 2⟩, ⟨.varl, 13, .arl, asc "arl", 1⟩, ⟨.vfrc, 14, .frc, asc "frc", 1⟩,
   ⟨.vflr, 15, .flr, asc "flr", 1⟩, ⟨.vseq, 16, .seq, asc "seq", 2⟩, ⟨.vsgt, 18, .sgt, asc "sgt", 2⟩,
   ⟨.vsle, 19, .sle, asc "sle", 2⟩, ⟨.vsne, 20, .sne, asc "sne", 2⟩]

/-- A scalar row: its constructor, `sop` number, mnemonic and printed name (30_encoding.md R78). -/
structure ScaRow where
  make : ScaForm → Instr
  number : BitVec 4
  mnemonic : SMnemonic
  name : Text

/-- The seven scalar rows, as 30_encoding.md R78 and 45_scalar_ops.md R231 to R237 give them. -/
def scalarRows : List ScaRow :=
  [⟨.scos, 0, .cos, asc "cos"⟩, ⟨.smov, 1, .mov, asc "mov"⟩, ⟨.srcp, 2, .rcp, asc "rcp"⟩,
   ⟨.srsq, 4, .rsq, asc "rsq"⟩, ⟨.slg2, 13, .lg2, asc "lg2"⟩, ⟨.sex2, 14, .ex2, asc "ex2"⟩,
   ⟨.ssin, 15, .sin, asc "sin"⟩]

end Sys2Proof.Machine
end

