-- ==== Sys2Proof/Certificates/Slice0/Obligations.lean ====
section
/-! DEFINITION. The statements for the provers. Each docstring names the rule of spec/ it formalises. `runCommand c s` is
the state after the command `c` when the host issues it in `s`; a refusal is a next state whose `st` is not `ok`. -/

section Statements

open Sys2Proof Sys2Proof.Machine

/-! ### Reset and the host -/

/-- 70_reset_and_hazards.md R270: every register of its table at reset, what its column "why this value" says of the commands
on that state, and that no successful PARSE leaves the reset header. The bytes of `BUF` and `STRM` are not given. -/
def Obligations.ResetLeavesTheTable : Prop :=
  State.reset.w = 0 ∧ State.reset.r = 0 ∧
  State.reset.d =
    { vop := 0, vdst := { idx := 0, type := .temp, mask := 0, sat := false }
      sop := 0, sdst := { idx := 0, type := .temp, mask := 0, sat := false }
      src0 := { valid := false, idx := 0, type := .temp, swz := 0, neg := false, abs := false }
      src1 := { valid := false, idx := 0, type := .temp, swz := 0, neg := false, abs := false }
      src2 := { valid := false, idx := 0, type := .temp, swz := 0, neg := false, abs := false }
      last := false } ∧
  State.reset.drec = decodeFields params 0 ∧
  State.reset.drec =
    { last := false, vpresent := false, spresent := false, pred := none, sat := false, vec := none, sc := none } ∧
  State.reset.txt = .one [] ∧ decodeText params 0 = [] ∧ State.reset.st = .ok ∧ State.reset.st.code = 0 ∧
  State.reset.hdr =
    { type := 0, unknown0 := 0, size := 0, numSymbols := 0, barSize := 0, barOffset := 0, binarySize := 0,
      binaryOffset := 0, unknown1 := 0, unknown2 := 0, unknown3 := 0, unknown4 := 0, ptype := .other 0 } ∧
  State.reset.nsym = 0 ∧ State.reset.sym = [] ∧ State.reset.diag = [] ∧
  State.reset.buf.len = 0 ∧ State.reset.strm.len = 0 ∧
  runCommand .bwZero State.reset = .next State.reset ∧
  (∀ lo hi, lo ≤ hi → hi < 128 → runCommand (.bwExtract lo hi) State.reset = .next State.reset) ∧
  runCommand .enc State.reset = .next State.reset ∧
  runCommand .dec State.reset = .next State.reset ∧
  runCommand .parse State.reset = .next { State.reset with st := .malformedContainer } ∧
  runCommand (.disasm 0 0) State.reset = .next { State.reset with txt := .many [] } ∧
  ∀ s t, runCommand .parse s = .next t → t.st = .ok → t.hdr ≠ State.reset.hdr ∧ 48 ≤ t.hdr.size.toNat

/-- 70_reset_and_hazards.md R271, R272, R275 in the model's own form (log entries 1 and 12): with no action of the host left
the block waits; otherwise a step carries out the first action, and a write of the host changes the one input it names. -/
def Obligations.HostActionsRunInOrder : Prop :=
  ∀ s : State,
    (s.host = [] → step s = .next s) ∧
    ∀ rest : List HostAction,
      (∀ c, s.host = .command c :: rest → step s = runCommand c { s with host := rest }) ∧
      (∀ d, s.host = .writeD d :: rest → step s = .next { s with d := d, host := rest }) ∧
      (∀ n, s.host = .setBufLen n :: rest →
        step s = .next { s with buf := { len := n, cells := s.buf.cells }, host := rest }) ∧
      (∀ n, s.host = .setStrmLen n :: rest →
        step s = .next { s with strm := { len := n, cells := s.strm.cells }, host := rest }) ∧
      (∀ a bs, s.host = .writeBuf a bs :: rest →
        step s = .next { s with buf := s.buf.writeBytes a bs, host := rest }) ∧
      (∀ a bs, s.host = .writeStrm a bs :: rest →
        step s = .next { s with strm := s.strm.writeBytes a bs, host := rest }) ∧
      (s.host = .reset :: rest →
        step s = .next { State.reset with host := rest, out := s.out, epoch := s.epoch + 1 })

/-- 20_memory.md R51 (a) and 70_reset_and_hazards.md R275: a byte the host writes is the byte a command reads at that address,
every other byte of that memory and the whole other memory read as before, and no register changes. -/
def Obligations.HostWritesAreRead : Prop :=
  ∀ (s : State) (a : Nat) (bs : List Byte) (rest : List HostAction), s.buf.wf → s.strm.wf →
    (s.host = .writeBuf a bs :: rest → ∃ t, step s = .next t ∧ t = { s with buf := t.buf, host := rest } ∧
      t.buf.wf ∧ t.buf.len = s.buf.len ∧
      (∀ j, j < bs.length → bs[j]? = some (t.bufView.byte (a + j))) ∧
      (∀ c, c < a ∨ a + bs.length ≤ c → t.bufView.byte c = s.bufView.byte c) ∧
      ∀ c, t.strmView.byte c = s.strmView.byte c) ∧
    (s.host = .writeStrm a bs :: rest → ∃ t, step s = .next t ∧ t = { s with strm := t.strm, host := rest } ∧
      t.strm.wf ∧ t.strm.len = s.strm.len ∧
      (∀ j, j < bs.length → bs[j]? = some (t.strmView.byte (a + j))) ∧
      (∀ c, c < a ∨ a + bs.length ≤ c → t.strmView.byte c = s.strmView.byte c) ∧
      ∀ c, t.bufView.byte c = s.bufView.byte c)

/-- A step runs the decoded instruction: DEC the one the word in `W` decodes to, ENC the one the descriptor in `D` holds, and
the step after `withFetchWord` the one the table word decodes to (log entries 2 and 4). Nothing else happens around exec but
that the host's action is used up. The machine is the default instance of the block, and the same holds under every
instance of the parameters (00_scope.md R6). -/
def Obligations.StepRunsTheDecodedInstruction : Prop :=
  (∀ s : State, step s = stepIn params s) ∧
  (∀ (c : Command) (s : State), runCommand c s = runCommandIn params c s) ∧
  (∀ (i : Instr) (s : State), exec i s = execIn params i s) ∧
  (∀ (P : Params) (s : State) (rest : List HostAction) (c : Command), s.host = .command c :: rest →
    stepIn P s = runCommandIn P c { s with host := rest }) ∧
  (∀ (P : Params) (s : State) (rest : List HostAction) (i : Instr), s.host = .command .dec :: rest →
    decodeWord P s.w = .ok i → stepIn P s = execIn P i { s with host := rest }) ∧
  (∀ (P : Params) (s : State) (rest : List HostAction) (i : Instr), s.host = .command .enc :: rest →
    descInstr P s.d = .ok i → stepIn P s = execIn P i { s with host := rest }) ∧
  (∀ (s : State) (rest : List HostAction) (i : Instr), s.host = .command .dec :: rest →
    decodeWord params s.w = .ok i → step s = exec i { s with host := rest }) ∧
  (∀ (s : State) (rest : List HostAction) (i : Instr), s.host = .command .enc :: rest →
    descInstr params s.d = .ok i → step s = exec i { s with host := rest }) ∧
  (∀ (s : State) (nbits w : Nat) (i : Instr), decodeTableWord nbits w = some i →
    step (s.withFetchWord nbits w) = exec i { s with w := tableWord nbits w })

/-! ### The bit container -/

/-- 40_bitword.md R101. -/
def Obligations.BwZeroClearsTheWord : Prop :=
  ∀ s : State, ∃ t, runCommand .bwZero s = .next t ∧ t = { s with w := t.w, st := .ok } ∧
    wordAt t.w 0 = 0 ∧ wordAt t.w 1 = 0 ∧ wordAt t.w 2 = 0 ∧ wordAt t.w 3 = 0 ∧
    runCommand (.bwExtract 0 127) t = .next { t with r := 0 }

/-- 40_bitword.md R102; the count is the length of the list (log entry 10). -/
def Obligations.BwLoadwFillsTheWord : Prop :=
  ∀ (s : State) (words : List Word),
    (words.length ≤ 4 → ∃ t, runCommand (.bwLoadw words) s = .next t ∧ t = { s with w := t.w, st := .ok } ∧
      ∀ k, k < 4 → wordAt t.w k = if k < words.length then words.getD k 0 else 0) ∧
    (4 < words.length → runCommand (.bwLoadw words) s = .next { s with st := .contractViolation }) ∧
    runCommand (.bwLoadw []) s = runCommand .bwZero s

/-- 40_bitword.md R111: the four little-endian words of the group, at any address, or a refusal. -/
def Obligations.BwLoadbReadsTheGroup : Prop :=
  ∀ (s : State) (sOff k : Nat),
    (sOff + 16 * k + 16 ≤ s.strm.len → ∃ t, runCommand (.bwLoadb sOff k) s = .next t ∧
      t = { s with w := t.w, st := .ok } ∧
      ∀ j, j < 4 → wordAt t.w j = s.strmView.word (sOff + 16 * k + 4 * j)) ∧
    (s.strm.len < sOff + 16 * k + 16 → runCommand (.bwLoadb sOff k) s = .next { s with st := .malformedContainer })

/-- 40_bitword.md R103: the four words and their 16-byte image, lowest byte of the first word first. Where they stand, in the
model's own field `out`, is log entry 11. -/
def Obligations.BwStorewReadsTheWordOut : Prop :=
  ∀ s : State, ∃ words bytes,
    runCommand .bwStorew s = .next { s with out := some { words := words, bytes := bytes }, st := .ok } ∧
    words.length = 4 ∧ bytes.length = 16 ∧
    (∀ k, k < 4 → words[k]? = some (wordAt s.w k)) ∧
    ∀ k j, k < 4 → j < 4 → bytes[4 * k + j]? = some ((wordAt s.w k).extractLsb' (8 * j) 8)

/-- 40_bitword.md R104: the shift-and-modulus formula and the bit-by-bit sum, or a refusal. -/
def Obligations.BwExtractReadsTheRange : Prop :=
  ∀ (s : State) (lo hi : Nat),
    (lo ≤ hi → hi < 128 → ∃ t, runCommand (.bwExtract lo hi) s = .next t ∧ t = { s with r := t.r, st := .ok } ∧
      t.r.toNat = (s.w.toNat >>> (127 - hi)) % 2 ^ (hi - lo + 1) ∧
      ∀ j, t.r.getLsbD j = (decide (j < hi - lo + 1) && bit s.w (hi - j))) ∧
    (¬ (lo ≤ hi ∧ hi < 128) → runCommand (.bwExtract lo hi) s = .next { s with st := .contractViolation })

/-- 40_bitword.md R105: after an accepted insert the range holds the value and every bit outside is as before; a bad range
and a value that does not fit are refused. -/
def Obligations.BwInsertWritesTheRange : Prop :=
  ∀ (s : State) (lo hi value : Nat),
    (lo ≤ hi → hi < 128 → value < 2 ^ (hi - lo + 1) → ∃ t, runCommand (.bwInsert lo hi value) s = .next t ∧
      t = { s with w := t.w, st := .ok } ∧
      (t.w.toNat >>> (127 - hi)) % 2 ^ (hi - lo + 1) = value ∧
      ∀ b, b < 128 → bit t.w b = if lo ≤ b ∧ b ≤ hi then value.testBit (hi - b) else bit s.w b) ∧
    (¬ (lo ≤ hi ∧ hi < 128) ∨ 2 ^ (hi - lo + 1) ≤ value →
      runCommand (.bwInsert lo hi value) s = .next { s with st := .contractViolation })

/-- 40_bitword.md R106 and R107: the single-bit specialisations, on the numeric bit `31 - i mod 32` of word `i div 32`. -/
def Obligations.SingleBitsAreOneBitRanges : Prop :=
  ∀ (s : State) (i b : Nat),
    (i < 128 → runCommand (.bwGetbit i) s =
      .next { s with r := BitVec.ofNat 128 ((wordAt s.w (i / 32)).getLsbD (31 - i % 32)).toNat, st := .ok }) ∧
    (128 ≤ i → runCommand (.bwGetbit i) s = .next { s with st := .contractViolation }) ∧
    runCommand (.bwGetbit i) s = runCommand (.bwExtract i i) s ∧
    (i < 128 → b ≤ 1 → ∃ t, runCommand (.bwSetbit i b) s = .next t ∧ t = { s with w := t.w, st := .ok } ∧
      ∀ k p, k < 4 → p < 32 →
        (wordAt t.w k).getLsbD p = if k = i / 32 ∧ p = 31 - i % 32 then decide (b = 1) else (wordAt s.w k).getLsbD p) ∧
    (128 ≤ i ∨ 1 < b → runCommand (.bwSetbit i b) s = .next { s with st := .contractViolation }) ∧
    runCommand (.bwSetbit i b) s = runCommand (.bwInsert i i b) s

/-- 40_bitword.md R109 and R100: spec bit `b` stands in word `b div 32` at numeric bit `31 - b mod 32`, and an insert puts
numeric bit `hi - b` of the value there, whichever words the range straddles. -/
def Obligations.RangesStraddleWords : Prop :=
  (∀ (w : BitWord) (b : Nat), b < 128 → bit w b = (wordAt w (b / 32)).getLsbD (31 - b % 32)) ∧
  (∀ (w x : BitWord), (∀ k, k < 4 → wordAt w k = wordAt x k) ↔ w = x) ∧
  ∀ (w x : BitWord) (lo hi value b : Nat), Machine.insert w lo hi value = .ok x → lo ≤ b → b ≤ hi →
    (wordAt x (b / 32)).getLsbD (31 - b % 32) = value.testBit (hi - b)

/-- 40_bitword.md R108 (a) to (d) and the source's law on the zero word. -/
def Obligations.InsertExtractLaws : Prop :=
  ∀ (w : BitWord) (lo hi v : Nat), lo ≤ hi → hi < 128 → v < 2 ^ (hi - lo + 1) →
    ∃ x, Machine.insert w lo hi v = .ok x ∧
      Machine.extract x lo hi = .ok (BitVec.ofNat 128 v) ∧
      (w = 0 → ∀ b, b < 128 → b < lo ∨ hi < b → bit x b = false) ∧
      (∀ a b, a ≤ b → b < 128 → b < lo ∨ hi < a → Machine.extract x a b = Machine.extract w a b) ∧
      (∀ r, Machine.extract w lo hi = .ok r → Machine.insert w lo hi r.toNat = .ok w) ∧
      (∀ a b u, a ≤ b → b < 128 → u < 2 ^ (b - a + 1) → b < lo ∨ hi < a →
        ∃ y z, Machine.insert w a b u = .ok y ∧ Machine.insert x a b u = .ok z ∧ Machine.insert y lo hi v = .ok z)

/-! ### Byte order -/

/-- 20_memory.md R42: the word at an address is the little-endian sum of its four bytes, at any address (R46). -/
def Obligations.WordsAreLittleEndian : Prop :=
  ∀ (b : Buffer) (a : Nat),
    (a + 4 ≤ b.len → ∃ x, readWord b a = some x ∧
      x.toNat = (b.byte a).toNat + (b.byte (a + 1)).toNat * 2 ^ 8 + (b.byte (a + 2)).toNat * 2 ^ 16 +
        (b.byte (a + 3)).toNat * 2 ^ 24 ∧ x = b.word a) ∧
    (b.len < a + 4 → readWord b a = none)

/-- 20_memory.md R43 and R44: the two conversions are inverse to each other, spec bit `b` stands in its byte, and a group in
memory is the image of its word. -/
def Obligations.ByteImageIsExact : Prop :=
  (∀ x : BitWord, wordsOfBytes (bytesOfWords x) = x) ∧
  (∀ g : List Byte, g.length = 16 → bytesOfWords (wordsOfBytes g) = g) ∧
  (∀ (g : List Byte) (b : Nat), g.length = 16 → b < 128 →
    bit (wordsOfBytes g) b = (g.getD (4 * (b / 32) + 3 - b % 32 / 8) 0).getLsbD (7 - b % 8)) ∧
  (∀ (m : Buffer) (a : Nat), a + 16 ≤ m.len →
    readGroup m a = some (wordsOfBytes ((List.range 16).map fun j => m.byte (a + j)))) ∧
  bytesOfWords (ofWords 0x80078000 0x03006d00 0x363110e0 0) =
    [0x00, 0x80, 0x07, 0x80, 0x00, 0x6d, 0x00, 0x03, 0xe0, 0x10, 0x31, 0x36, 0, 0, 0, 0]

/-! ### The encoder -/

/-- 42_encoder.md R154 and R164: which descriptor is refused with which status, the first failing check deciding. -/
def Obligations.EncoderDecidesTheStatus : Prop :=
  ∀ (P : Params) (D : Desc),
    (encodeDesc P D = .error .contractViolation ↔ ContractBroken P D) ∧
    (encodeDesc P D = .error .conflictingFetch ↔ ¬ ContractBroken P D ∧ FetchConflict P D) ∧
    (encodeDesc P D = .error .conflictingModifier ↔
      ¬ ContractBroken P D ∧ ¬ FetchConflict P D ∧ ModifierConflict D) ∧
    ((∃ w, encodeDesc P D = .ok w) ↔ ¬ ContractBroken P D ∧ ¬ FetchConflict P D ∧ ¬ ModifierConflict D)

/-- 42_encoder.md R159, R160, R161 and R165: every field of an accepted descriptor's word, and every bit outside the
fields, under every valid `LAYOUT` and opcode map. -/
def Obligations.EncoderWritesTheFields : Prop :=
  ∀ (P : Params) (D : Desc) (w : BitWord), P.Valid → encodeDesc P D = .ok w →
    ((readFields P w).vec =
      if D.vdst.mask ≠ 0 then
        { op := D.vop, mask := D.vdst.mask, dst := if D.vdst.type = .varying then 63 else D.vdst.idx.setWidth 6 }
      else { op := 0, mask := 0, dst := 0 }) ∧
    ((readFields P w).sc =
      if D.sdst.mask ≠ 0 then
        { op := D.sop, mask := D.sdst.mask, dst := if D.sdst.type = .varying then 63 else D.sdst.idx.setWidth 6 }
      else { op := 0, mask := 0, dst := 0 }) ∧
    (∀ i, SlotEncoded P D i →
      ((srcAt D i).type = .temp → ((readFields P w).slot i).type = 1) ∧
      ((srcAt D i).type = .attr → ((readFields P w).slot i).type = 2) ∧
      ((srcAt D i).type = .constant → ((readFields P w).slot i).type = 3) ∧
      ((readFields P w).slot i).idx = (if (srcAt D i).type = .temp then (srcAt D i).idx.setWidth 6 else 0) ∧
      ((readFields P w).slot i).swz = (srcAt D i).swz ∧ ((readFields P w).slot i).neg = (srcAt D i).neg ∧
      ((readFields P w).slot i).abs = (srcAt D i).abs) ∧
    (∀ i, i < 3 → ¬ SlotEncoded P D i →
      (readFields P w).slot i = { type := 0, idx := 0, swz := 0, neg := false, abs := false }) ∧
    (∀ i, SlotEncoded P D i → (srcAt D i).type = .constant → getField P w .cfetch = (srcAt D i).idx) ∧
    ((∀ i, SlotEncoded P D i → (srcAt D i).type ≠ .constant) → getField P w .cfetch = 0) ∧
    (∀ i, SlotEncoded P D i → (srcAt D i).type = .attr →
      (getField P w .afetch).setWidth 8 = (srcAt D i).idx) ∧
    ((∀ i, SlotEncoded P D i → (srcAt D i).type ≠ .attr) → getField P w .afetch = 0) ∧
    (∀ d, (d = D.vdst ∨ d = D.sdst) → d.mask ≠ 0 → d.type = .varying →
      (getField P w .tgt).setWidth 8 = d.idx ∧ getField P w .vflag = 1) ∧
    ((∀ d, (d = D.vdst ∨ d = D.sdst) → d.mask ≠ 0 → d.type ≠ .varying) →
      getField P w .tgt = 0 ∧ getField P w .vflag = 0) ∧
    (getField P w .sat = 1 ↔ (D.vdst.mask ≠ 0 ∧ D.vdst.sat = true) ∨ (D.sdst.mask ≠ 0 ∧ D.sdst.sat = true)) ∧
    getField P w .pen = 0 ∧ getField P w .pneg = 0 ∧ getField P w .pswz = 0 ∧
    getField P w .last = BitVec.ofBool D.last ∧ bit w 0 = D.last ∧
    ∀ b, b < 128 → (∀ f : Field, b < P.lo f ∨ P.hi f < b) → bit w b = false

/-- 42_encoder.md R166 and 30_encoding.md R83: the words the encoder returns are exactly those with the listed properties. -/
def Obligations.CanonicalWordsAreTheImage : Prop :=
  ∀ (P : Params) (w : BitWord), P.Valid → ((∃ D, encodeDesc P D = .ok w) ↔ Canonical P w)

/-- 42_encoder.md R167: ENC writes the word and `ST`, or `ST` alone. -/
def Obligations.EncWritesTheWord : Prop :=
  ∀ s : State,
    (∀ e, encodeDesc params s.d = .error e → runCommand .enc s = .next { s with st := e }) ∧
    (∀ x, encodeDesc params s.d = .ok x → runCommand .enc s = .next { s with w := x, st := .ok })

/-- 44_vector_ops.md R229 and 45_scalar_ops.md R239: an absent op's opcode and destination reach neither the word nor the
text, and the word with both ops absent is zero but for bit 0. -/
def Obligations.AbsentOpsAreOmitted : Prop :=
  (∀ (P : Params) (D : Desc) (n : BitVec 5) (d : Dst), D.vdst.mask = 0 → d.mask = 0 →
    encodeDesc P { D with vop := n, vdst := d } = encodeDesc P D) ∧
  (∀ (P : Params) (D : Desc) (n : BitVec 4) (d : Dst), D.sdst.mask = 0 → d.mask = 0 →
    encodeDesc P { D with sop := n, sdst := d } = encodeDesc P D) ∧
  (∀ (P : Params) (D : Desc) (w : BitWord), P.Valid → D.vdst.mask = 0 → encodeDesc P D = .ok w →
    getField P w .vop = 0 ∧ getField P w .vdst = 0 ∧ getField P w .vmask = 0 ∧
      (readFields P w).slot 0 = emptySlot ∧ (readFields P w).slot 1 = emptySlot) ∧
  (∀ (P : Params) (D : Desc) (w : BitWord), P.Valid → D.sdst.mask = 0 → encodeDesc P D = .ok w →
    getField P w .sop = 0 ∧ getField P w .sdst = 0 ∧ getField P w .smask = 0 ∧
      (¬ (D.vdst.mask ≠ 0 ∧ vArity P D.vop = 3) → (readFields P w).slot 2 = emptySlot)) ∧
  (∀ (P : Params) (D : Desc), P.Valid → D.vdst.mask = 0 → D.sdst.mask = 0 →
    encodeDesc P D = .ok (ofWords (if D.last then 0x80000000 else 0) 0 0 0)) ∧
  (∀ (P : Params) (w : BitWord), getField P w .vmask = 0 → (decodeFields P w).vec = none) ∧
  (∀ (P : Params) (w : BitWord), getField P w .smask = 0 → (decodeFields P w).sc = none) ∧
  ∀ (P : Params) (w : BitWord), getField P w .vmask = 0 → getField P w .smask = 0 →
    decodeText P w = if getField P w .last = 1 then P.text.lastLine else []

/-! ### Round trips -/

/-- 43_decoder.md R192 and R193 for every valid instance, and the same for the commands ENC and DEC one after the other, in
the machine and in every valid instance of the block. -/
def Obligations.DecodeOfEncodeIsTheDescriptor : Prop :=
  (∀ (P : Params) (D : Desc) (w : BitWord), P.Valid → encodeDesc P D = .ok w →
    decodeFields P w = recOfDesc P D ∧ decodeText P w = render P.text (recOfDesc P D)) ∧
  (∀ (P : Params) (s : State) (w : BitWord) (rest : List HostAction), P.Valid →
    s.host = .command .enc :: .command .dec :: rest → encodeDesc P s.d = .ok w →
    ∃ m, stepIn P s = .next m ∧
      stepIn P m = .next { s with w := w, drec := recOfDesc P s.d, st := .ok, host := rest
                                  txt := .one (render P.text (recOfDesc P s.d)) }) ∧
  ∀ (s : State) (w : BitWord) (rest : List HostAction), s.host = .command .enc :: .command .dec :: rest →
    encodeDesc params s.d = .ok w →
    ∃ m, step s = .next m ∧
      step m = .next { s with w := w, drec := recOfDesc params s.d, st := .ok, host := rest
                              txt := .one (render params.text (recOfDesc params s.d)) }

/-- Decode and encode agree for every instruction of the table in its word form, every field at every value, under every valid
instance (00_scope.md R7). -/
def Obligations.DecodeOfEncodeIsTheInstruction : Prop :=
  ∀ (P : Params) (i : Instr), P.Valid → i.wellFormedIn P = true → i.isWord = true →
    ∃ x, encode P i = .ok x ∧ decodeWord P x = .ok i

/-- The other direction: an instruction read from a word is well formed, and its own word has the same fields and zero
reserved bits. -/
def Obligations.EncodeOfDecodeKeepsTheFields : Prop :=
  ∀ (P : Params) (x : BitWord) (i : Instr), P.Valid → decodeWord P x = .ok i →
    i.wellFormedIn P = true ∧ i.isWord = true ∧
    ∃ y, encode P i = .ok y ∧ (∀ f : Field, getField P y f = getField P x f) ∧
      ∀ b, b < 128 → (∀ f : Field, b < P.lo f ∨ P.hi f < b) → bit y b = false

/-- A descriptor's instruction, encoded, decodes to the same row of the table. -/
def Obligations.EncodedDescriptorHoldsItsRow : Prop :=
  ∀ (P : Params) (D : Desc) (x : BitWord), P.Valid → encodeDesc P D = .ok x →
    (∀ (m : VMnemonic) (o : VecDesc), descInstr P D = .ok (Instr.ofVec m (.desc o)) →
      ∃ o', decodeWord P x = .ok (Instr.ofVec m (.word o'))) ∧
    (∀ (m : SMnemonic) (o : ScaDesc), descInstr P D = .ok (Instr.ofSca m (.desc o)) →
      ∃ o', decodeWord P x = .ok (Instr.ofSca m (.word o'))) ∧
    ∀ e, descInstr P D = .error e → ∃ e', decodeWord P x = .error e'

/-! ### The instructions, row by row -/

/-- Decode side of the seventeen vector rows (44_vector_ops.md R210 to R227): the record, its first line of text, and nothing
else written. -/
def Obligations.VectorWordsDecodeToTheirRow : Prop :=
  ∀ r ∈ vectorRows, ∀ (o : VecWord) (s : State), o.mask ≠ 0 →
    ∃ rec : DRec,
      exec (r.make (.word o)) s = .next { s with drec := rec, txt := .one (render params.text rec), st := .ok } ∧
      rec =
        { last := o.sh.last, vpresent := true, spresent := decide (o.sc.mask ≠ 0)
          pred := if o.sh.pen then some { neg := o.sh.pneg, swz := o.sh.pswz } else none
          sat := o.sh.sat
          vec := some
            { opcode := r.number, name := .known r.mnemonic, arity := r.arity, dst := dstOf o.sh o.dst, mask := o.mask
              srcs := ([o.s0, o.s1, o.s2].take r.arity).map (srcOf o.sh) }
          sc := rec.sc } ∧
      rec.sc = scaRec params (o.toFields r.number) ∧
      ∃ more, renderLines params.text rec =
        (renderPred params.text rec.pred ++ r.name ++ asc " " ++ renderDst params.text (dstOf o.sh o.dst) ++
          (if o.sh.sat then asc "_sat" else []) ++ asc "." ++ renderMask o.mask ++
          ((([o.s0, o.s1, o.s2].take r.arity).map (srcOf o.sh)).flatMap
            fun x => asc ", " ++ renderSrc params.text x)) :: more

/-- Decode side of the seven scalar rows (45_scalar_ops.md R230 to R237), beside whatever vector half. -/
def Obligations.ScalarWordsDecodeToTheirRow : Prop :=
  ∀ r ∈ scalarRows, ∀ (o : ScaWord) (s : State), o.mask ≠ 0 →
    ∃ rec : DRec,
      exec (r.make (.word o)) s = .next { s with drec := rec, txt := .one (render params.text rec), st := .ok } ∧
      rec =
        { last := o.sh.last, vpresent := decide (o.vec.mask ≠ 0), spresent := true
          pred := if o.sh.pen then some { neg := o.sh.pneg, swz := o.sh.pswz } else none
          sat := o.sh.sat, vec := rec.vec
          sc := some
            { opcode := r.number, name := .known r.mnemonic, dst := dstOf o.sh o.dst, mask := o.mask
              srcs := [srcOf o.sh o.s2] } } ∧
      rec.vec = vecRec params (o.toFields r.number) ∧
      ∃ before after, renderLines params.text rec = before ++
        (renderPred params.text rec.pred ++ r.name ++ asc " " ++ renderDst params.text (dstOf o.sh o.dst) ++
          (if o.sh.sat then asc "_sat" else []) ++ asc "." ++ renderMask o.mask ++ asc ", " ++
          renderSrc params.text (srcOf o.sh o.s2)) :: after ∧
        before.length = (if o.vec.mask ≠ 0 then 1 else 0) ∧
        after = if o.sh.last then [asc "last"] else []

/-- Encode side of the seventeen vector rows (44_vector_ops.md R210 to R227): with no check failing, the word stands in `W`
with the row's number, mask, destination and source slots, and nothing else but `ST` is written. -/
def Obligations.VectorDescriptorsEncodeTheirRow : Prop :=
  ∀ r ∈ vectorRows, ∀ (o : VecDesc) (s : State), o.dst.mask ≠ 0 →
    ¬ ContractBroken params (o.toDesc r.number) → ¬ FetchConflict params (o.toDesc r.number) →
    ¬ ModifierConflict (o.toDesc r.number) →
    ∃ w, exec (r.make (.desc o)) s = .next { s with w := w, st := .ok } ∧
      encodeDesc params (o.toDesc r.number) = .ok w ∧
      getField params w .vop = r.number ∧ getField params w .vmask = o.dst.mask ∧
      getField params w .vdst = (if o.dst.type = .varying then 63 else o.dst.idx.setWidth 6) ∧
      ∀ i, i < r.arity → (readFields params w).slot i =
        if (srcAt (o.toDesc r.number) i).valid then slotOf (srcAt (o.toDesc r.number) i) else emptySlot

/-- Encode side of the seven scalar rows (45_scalar_ops.md R230 to R237). -/
def Obligations.ScalarDescriptorsEncodeTheirRow : Prop :=
  ∀ r ∈ scalarRows, ∀ (o : ScaDesc) (s : State), o.dst.mask ≠ 0 →
    ¬ ContractBroken params (o.toDesc r.number) → ¬ FetchConflict params (o.toDesc r.number) →
    ¬ ModifierConflict (o.toDesc r.number) →
    ∃ w, exec (r.make (.desc o)) s = .next { s with w := w, st := .ok } ∧
      encodeDesc params (o.toDesc r.number) = .ok w ∧
      getField params w .sop = r.number ∧ getField params w .smask = o.dst.mask ∧
      getField params w .sdst = (if o.dst.type = .varying then 63 else o.dst.idx.setWidth 6) ∧
      (readFields params w).slot 2 = if o.src2.valid then slotOf o.src2 else emptySlot

/-- Where the encode side of the 24 rows refuses, and that only `ST` is written then (44_vector_ops.md R210 and
45_scalar_ops.md R230, "Exceptions"). -/
def Obligations.EncodeSideRefuses : Prop :=
  (∀ r ∈ vectorRows, ∀ (o : VecDesc) (s : State),
    (ContractBroken params (o.toDesc r.number) →
      exec (r.make (.desc o)) s = .next { s with st := .contractViolation }) ∧
    (¬ ContractBroken params (o.toDesc r.number) → FetchConflict params (o.toDesc r.number) →
      exec (r.make (.desc o)) s = .next { s with st := .conflictingFetch }) ∧
    (¬ ContractBroken params (o.toDesc r.number) → ¬ FetchConflict params (o.toDesc r.number) →
      ModifierConflict (o.toDesc r.number) → exec (r.make (.desc o)) s = .next { s with st := .conflictingModifier })) ∧
  ∀ r ∈ scalarRows, ∀ (o : ScaDesc) (s : State),
    (ContractBroken params (o.toDesc r.number) →
      exec (r.make (.desc o)) s = .next { s with st := .contractViolation }) ∧
    (¬ ContractBroken params (o.toDesc r.number) → FetchConflict params (o.toDesc r.number) →
      exec (r.make (.desc o)) s = .next { s with st := .conflictingFetch }) ∧
    (¬ ContractBroken params (o.toDesc r.number) → ¬ FetchConflict params (o.toDesc r.number) →
      ModifierConflict (o.toDesc r.number) → exec (r.make (.desc o)) s = .next { s with st := .conflictingModifier })

/-- The frame of all 24 instructions: the word form writes `DREC`, `TXT` and `ST = OK`; the descriptor form writes `W` and
`ST`, and on a refusal `ST` alone. No form stores to memory: every byte of both memories reads as before. -/
def Obligations.InstructionsLeaveTheRest : Prop :=
  ∀ (i : Instr) (s t : State), exec i s = .next t →
    t.r = s.r ∧ t.d = s.d ∧ t.hdr = s.hdr ∧ t.nsym = s.nsym ∧ t.sym = s.sym ∧ t.diag = s.diag ∧
    t.buf = s.buf ∧ t.strm = s.strm ∧ t.host = s.host ∧ t.out = s.out ∧ t.epoch = s.epoch ∧
    (∀ a, t.bufView.byte a = s.bufView.byte a) ∧ (∀ a, t.strmView.byte a = s.strmView.byte a) ∧
    (i.isWord = true → t.w = s.w ∧ t.st = .ok) ∧
    (i.isWord = false → t.drec = s.drec ∧ t.txt = s.txt ∧ (t.st ≠ .ok → t.w = s.w))

/-! ### The decoder and the text -/

/-- 43_decoder.md R194: DEC, for every content of `W`. -/
def Obligations.DecShowsEveryWord : Prop :=
  ∀ s : State, runCommand .dec s =
    .next { s with drec := decodeFields params s.w, txt := .one (render params.text (decodeFields params s.w)),
                   st := .ok }

/-- 43_decoder.md R181: the record of every word, field by field. -/
def Obligations.RecordOfAWord : Prop :=
  ∀ (P : Params) (w : BitWord), ∃ (dst : BitVec 6 → DstRec) (src : Nat → SrcRec),
    (∀ d, dst d = if d ≠ 63 then .temp d else if getField P w .vflag = 1 then .varying (getField P w .tgt)
      else .predicate) ∧
    (∀ i, i < 3 → src i =
      { type := ((readFields P w).slot i).type
        index := if ((readFields P w).slot i).type = 2 then (getField P w .afetch).setWidth 8
          else if ((readFields P w).slot i).type = 3 then getField P w .cfetch
          else ((readFields P w).slot i).idx.setWidth 8
        swz := ((readFields P w).slot i).swz, neg := ((readFields P w).slot i).neg
        abs := ((readFields P w).slot i).abs }) ∧
    decodeFields P w =
      { last := getField P w .last == 1
        vpresent := getField P w .vmask != 0, spresent := getField P w .smask != 0
        pred := if getField P w .pen = 1 then some { neg := getField P w .pneg == 1, swz := getField P w .pswz }
          else none
        sat := getField P w .sat == 1
        vec :=
          if getField P w .vmask ≠ 0 then
            some
              { opcode := getField P w .vop
                name := match vLookup P (getField P w .vop) with | some m => .known m | none => .unknown (getField P w .vop)
                arity := match vLookup P (getField P w .vop) with | some m => arity m | none => 3
                dst := dst (getField P w .vdst), mask := getField P w .vmask
                srcs := (List.range
                  (match vLookup P (getField P w .vop) with | some m => arity m | none => 3)).map src }
          else none
        sc :=
          if getField P w .smask ≠ 0 then
            some
              { opcode := getField P w .sop
                name := match sLookup P (getField P w .sop) with | some m => .known m | none => .unknown (getField P w .sop)
                dst := dst (getField P w .sdst), mask := getField P w .smask, srcs := [src 2] }
          else none }

/-- 30_encoding.md R83 and 43_decoder.md R196, letter by letter: what is not shown. In (i) the saturate flag is not in the
text, while the record keeps it as 43_decoder.md R181 says (log entry 25). -/
def Obligations.WhatTheDecoderDoesNotShow : Prop :=
  ∀ P : Params,
    -- (a) a reserved bit
    (∀ x y : BitWord, (∀ f : Field, getField P x f = getField P y f) → decodeFields P x = decodeFields P y) ∧
    ∀ F : Fields,
      -- (b) the gate's other fields while it is off
      (F.sh.pen = false → ∀ n z, recOfFields P { F with sh := { F.sh with pneg := n, pswz := z } } = recOfFields P F) ∧
      -- (c) the index field of a slot of type attribute or constant
      (F.s0.type = 2 ∨ F.s0.type = 3 → ∀ k, recOfFields P { F with s0 := { F.s0 with idx := k } } = recOfFields P F) ∧
      (F.s1.type = 2 ∨ F.s1.type = 3 → ∀ k, recOfFields P { F with s1 := { F.s1 with idx := k } } = recOfFields P F) ∧
      (F.s2.type = 2 ∨ F.s2.type = 3 → ∀ k, recOfFields P { F with s2 := { F.s2 with idx := k } } = recOfFields P F) ∧
      -- (d) destination 63 without the varying flag
      (F.sh.vflag = false → dstOf F.sh 63 = .predicate) ∧
      -- (e) an absent op's opcode and destination
      (F.vec.mask = 0 → ∀ n d, recOfFields P { F with vec := { op := n, mask := 0, dst := d } } = recOfFields P F) ∧
      (F.sc.mask = 0 → ∀ n d, recOfFields P { F with sc := { op := n, mask := 0, dst := d } } = recOfFields P F) ∧
      -- (f) a slot that no present op uses
      (¬ usesSlot P F 0 → ∀ z, recOfFields P { F with s0 := z } = recOfFields P F) ∧
      (¬ usesSlot P F 1 → ∀ z, recOfFields P { F with s1 := z } = recOfFields P F) ∧
      (¬ usesSlot P F 2 → ∀ z, recOfFields P { F with s2 := z } = recOfFields P F) ∧
      -- (g) the target while nothing is written to it
      (F.sh.vflag = false ∨ ((F.vec.mask = 0 ∨ F.vec.dst ≠ 63) ∧ (F.sc.mask = 0 ∨ F.sc.dst ≠ 63)) →
        ∀ n, recOfFields P { F with sh := { F.sh with tgt := n } } = recOfFields P F) ∧
      -- (h) a fetch index that no used slot reads
      ((∀ i, i < 3 → usesSlot P F i → (F.slot i).type ≠ 3) →
        ∀ n, recOfFields P { F with sh := { F.sh with cfetch := n } } = recOfFields P F) ∧
      ((∀ i, i < 3 → usesSlot P F i → (F.slot i).type ≠ 2) →
        ∀ n, recOfFields P { F with sh := { F.sh with afetch := n } } = recOfFields P F) ∧
      -- (i) saturate and the varying flag with no op present
      (F.vec.mask = 0 → F.sc.mask = 0 →
        ∀ a b, render P.text (recOfFields P { F with sh := { F.sh with sat := a, vflag := b } }) =
          render P.text (recOfFields P F)) ∧
      -- (j) a slot of type 0 shows its own index
      ∀ i, (F.slot i).type = 0 → (srcOf F.sh (F.slot i)).index = (F.slot i).idx.setWidth 8

/-- 30_encoding.md R81, 44_vector_ops.md R228 and 45_scalar_ops.md R238: which numbers are unknown by default, and how an
unknown opcode decodes. The numbers are the default tables' (log entry 6). -/
def Obligations.UnknownOpcodesDecode : Prop :=
  (∀ n : BitVec 5, vLookup params n = none ↔ n.toNat = 0 ∨ n.toNat = 6 ∨ n.toNat = 8 ∨ n.toNat = 17 ∨ 21 ≤ n.toNat) ∧
  (∀ n : BitVec 4, sLookup params n = none ↔ n.toNat = 3 ∨ (5 ≤ n.toNat ∧ n.toNat ≤ 12)) ∧
  (∀ (P : Params) (F : Fields), F.vec.mask ≠ 0 → vLookup P F.vec.op = none → ∃ v, vecRec P F = some v ∧
    v.name = .unknown F.vec.op ∧ v.arity = 3 ∧ v.srcs = [srcOf F.sh F.s0, srcOf F.sh F.s1, srcOf F.sh F.s2] ∧
    renderVName P.text v.name = P.text.unknownOpen ++ hex F.vec.op.toNat ++ P.text.unknownClose) ∧
  (∀ (P : Params) (F : Fields), F.sc.mask ≠ 0 → sLookup P F.sc.op = none → ∃ c, scaRec P F = some c ∧
    c.name = .unknown F.sc.op ∧ c.srcs = [srcOf F.sh F.s2] ∧
    renderSName P.text c.name = P.text.unknownOpen ++ hex F.sc.op.toNat ++ P.text.unknownClose) ∧
  ∀ (P : Params) (D : Desc) (i : Nat), D.vdst.mask ≠ 0 → vLookup P D.vop = none → i < 3 → used P D i = true

/-- 30_encoding.md R80 and 70_reset_and_hazards.md R277: a vector op of three sources and a scalar op in one word show the
same operand, the one of slot 2. -/
def Obligations.BothOpsShareSlotTwo : Prop :=
  ∀ (P : Params) (w : BitWord) (v : VecRec) (c : ScaRec), (decodeFields P w).vec = some v →
    (decodeFields P w).sc = some c → v.arity = 3 → ∃ x, v.srcs[2]? = some x ∧ c.srcs = [x]

/-- 43_decoder.md R183 to R186 and R191 with the default strings. -/
def Obligations.OperandsRender : Prop :=
  (∀ n : BitVec 6, renderDst params.text (.temp n) = asc "r" ++ dec n.toNat) ∧
  (∀ n : BitVec 5, renderDst params.text (.varying n) = asc "o" ++ dec n.toNat) ∧
  renderDst params.text .predicate = asc "p0" ∧
  (∀ m : BitVec 4, renderMask m = (if m.getLsbD 3 then asc "x" else []) ++ (if m.getLsbD 2 then asc "y" else []) ++
    (if m.getLsbD 1 then asc "z" else []) ++ (if m.getLsbD 0 then asc "w" else [])) ∧
  (∀ z : BitVec 8, ∃ L : Nat → Text, L 0 = asc "x" ∧ L 1 = asc "y" ∧ L 2 = asc "z" ∧ L 3 = asc "w" ∧
    renderSwz z = L (z.toNat / 64) ++ L (z.toNat / 16 % 4) ++ L (z.toNat / 4 % 4) ++ L (z.toNat % 4)) ∧
  (∀ s : SrcRec, ∃ letter,
    (s.type = 0 → letter = asc "?") ∧ (s.type = 1 → letter = asc "r") ∧ (s.type = 2 → letter = asc "v") ∧
    (s.type = 3 → letter = asc "c") ∧
    renderSrc params.text s = (if s.neg then asc "-" else []) ++ (if s.abs then asc "abs(" else []) ++ letter ++
      dec s.index.toNat ++ asc "." ++ renderSwz s.swz ++ (if s.abs then asc ")" else [])) ∧
  renderPred params.text none = [] ∧
  (∀ p : PredRec, renderPred params.text (some p) = asc "(" ++ (if p.neg then asc "!" else []) ++ asc "p0." ++
    renderSwz p.swz ++ asc ") ") ∧
  (∀ r ∈ vectorRows, renderVName params.text (.known r.mnemonic) = r.name) ∧
  (∀ r ∈ scalarRows, renderSName params.text (.known r.mnemonic) = r.name) ∧
  (∀ n : BitVec 5, renderVName params.text (.unknown n) = asc "unknown(0x" ++ hex n.toNat ++ asc ")") ∧
  ∀ n : BitVec 4, renderSName params.text (.unknown n) = asc "unknown(0x" ++ hex n.toNat ++ asc ")"

/-- 43_decoder.md R187 to R190: the order of the parts of a line, of the lines, and their joining. -/
def Obligations.LinesStandInOrder : Prop :=
  (∀ (P : Params) (w : BitWord), (decodeFields P w).vpresent = (decodeFields P w).vec.isSome ∧
    (decodeFields P w).spresent = (decodeFields P w).sc.isSome ∧
    ∀ c, (decodeFields P w).sc = some c → c.srcs.length = 1) ∧
  ∀ r : DRec, ∃ vlines slines tail : List Text,
    render params.text r = (asc "\n").intercalate (vlines ++ slines ++ tail) ∧
    (r.vec = none → vlines = []) ∧
    (∀ v, r.vec = some v → vlines =
      [renderPred params.text r.pred ++ renderVName params.text v.name ++ asc " " ++ renderDst params.text v.dst ++
        (if r.sat then asc "_sat" else []) ++ asc "." ++ renderMask v.mask ++
        v.srcs.flatMap fun x => asc ", " ++ renderSrc params.text x]) ∧
    (r.sc = none → slines = []) ∧
    (∀ c x, r.sc = some c → c.srcs = [x] → slines =
      [renderPred params.text r.pred ++ renderSName params.text c.name ++ asc " " ++ renderDst params.text c.dst ++
        (if r.sat then asc "_sat" else []) ++ asc "." ++ renderMask c.mask ++ asc ", " ++
        renderSrc params.text x]) ∧
    tail = if r.last then [asc "last"] else []

/-- 00_scope.md R10, `dec(n)` and `hex(n)`: the numerals without leading zeros, lower case. -/
def Obligations.NumeralsAreExact : Prop :=
  dec 0 = asc "0" ∧ hex 0 = asc "0" ∧
  ∀ n, 0 < n →
    dec n = ((Nat.digits 10 n).reverse.map fun d => BitVec.ofNat 8 (48 + d)) ∧
    hex n = ((Nat.digits 16 n).reverse.map fun d => BitVec.ofNat 8 (if d < 10 then 48 + d else 87 + d))

/-- 43_decoder.md R195 and 20_memory.md R55: DISASM renders every word of the stream in address order, or is refused. -/
def Obligations.DisasmRendersEveryWord : Prop :=
  ∀ (s : State) (sOff sLen : Nat),
    (sLen % 16 ≠ 0 ∨ s.strm.len < sOff + sLen →
      runCommand (.disasm sOff sLen) s = .next { s with st := .malformedContainer }) ∧
    (sLen % 16 = 0 → sOff + sLen ≤ s.strm.len → ∃ texts,
      runCommand (.disasm sOff sLen) s = .next { s with txt := .many texts, st := .ok } ∧
      texts.length = sLen / 16 ∧
      ∀ k, k < sLen / 16 → texts[k]? = some (decodeText params
        (wordsOfBytes ((List.range 16).map fun j => s.strmView.byte (sOff + 16 * k + j)))))

/-! ### The parser -/

/-- 41_container.md R134 with R121 to R123, R125, R127 and R128: which container is refused with which status, the header's
checks before the capacity and that before the records. -/
def Obligations.ParseDecidesTheStatus : Prop :=
  ∀ (P : Params) (b : Buffer), P.symRec = defaultSymRec →
    (parse P b = .error (.raise .malformedContainer) ↔
      HeaderBroken b ∨ (b.num 12 ≤ P.maxSymbols ∧ ∃ i, i < b.num 12 ∧ RecordBroken b i)) ∧
    (parse P b = .error (.raise .outOfMemory) ↔ ¬ HeaderBroken b ∧ P.maxSymbols < b.num 12) ∧
    ((∃ p, parse P b = .ok p) ↔
      ¬ HeaderBroken b ∧ b.num 12 ≤ P.maxSymbols ∧ ∀ i, i < b.num 12 → ¬ RecordBroken b i)

/-- 30_encoding.md R89, with 41_container.md R124 and R137: the header of a parsed container. -/
def Obligations.ParsedHeaderIsCopied : Prop :=
  ∀ (P : Params) (b : Buffer) (p : Parsed), parse P b = .ok p →
    p.hdr =
      { type := b.word 0, unknown0 := b.word 4, size := b.word 8, numSymbols := b.word 12, barSize := b.word 16
        barOffset := b.word 20, binarySize := b.word 24, binaryOffset := b.word 28, unknown1 := b.word 32
        unknown2 := b.word 36, unknown3 := b.word 40, unknown4 := b.word 44
        ptype := if b.word 0 = 0x1b5d then .vertex else if b.word 0 = 0x1b5e then .fragment else .other (b.word 0) }

/-- 41_container.md R126 to R132 and R135: one symbol for each record, with its location, kind, type, name and vector. -/
def Obligations.ParsedSymbolsAreTheRecords : Prop :=
  ∀ (P : Params) (b : Buffer) (p : Parsed), P.symRec = defaultSymRec → parse P b = .ok p →
    p.syms.length = b.num 12 ∧
    (∀ i, i < b.num 12 → ∃ y, p.syms[i]? = some y ∧ SymbolIs P b i y) ∧
    (b.num 12 = 0 → p.syms = [] ∧ p.diag = [])

/-- 10_state.md R30 and 60_exceptions.md R255: the diagnostics are the indices of the constants without a values offset, in
increasing order, and they do not change the status. -/
def Obligations.DiagnosticsListTheConstants : Prop :=
  (∀ (P : Params) (b : Buffer) (p : Parsed), P.symRec = defaultSymRec → parse P b = .ok p →
    p.diag.Pairwise (· < ·) ∧
    ∀ i, i ∈ p.diag ↔ i < b.num 12 ∧ b.num (48 + 48 * i + 4) = 0x1007 ∧ b.num (48 + 48 * i + 16) = 0) ∧
  ∀ (s : State) (p : Parsed), parse params s.bufView = .ok p → ∃ t, runCommand .parse s = .next t ∧ t.st = .ok ∧ t.diag = p.diag

/-- 30_encoding.md R92 and R93: the kind tags, and the default type table over all bytes (log entry 7). -/
def Obligations.TagAndTypeTables : Prop :=
  kindOf 0x1005 = .attr ∧ kindOf 0x1006 = .uniform ∧ kindOf 0x1007 = .constant ∧
  (∀ t, t ≠ 0x1005 → t ≠ 0x1006 → t ≠ 0x1007 → kindOf t = .unknown) ∧
  (∀ x : Word, typeOf params x =
    ((([(0x15, .float), (0x16, .vec2), (0x17, .vec3), (0x18, .vec4), (0x1e, .mat2), (0x23, .mat3), (0x28, .mat4),
      (0x2a, .sampler2D), (0x2b, .sampler3D), (0x45, .int), (0x46, .ivec2), (0x47, .ivec3), (0x48, .ivec4),
      (0x5a, .bool), (0x5b, .bvec2), (0x5c, .bvec3), (0x5d, .bvec4)] : List (Nat × SymType)).lookup
        (x.toNat % 256)).getD .unknown))

/-- 41_container.md R133: PARSE writes its four registers together, or `ST` alone. -/
def Obligations.ParseWritesItsRegisters : Prop :=
  ∀ s : State,
    (∀ e, parse params s.bufView = .error (.raise e) → runCommand .parse s = .next { s with st := e }) ∧
    (∀ p, parse params s.bufView = .ok p → ∃ n : BitVec 32, n.toNat = p.syms.length ∧
      runCommand .parse s = .next { s with hdr := p.hdr, nsym := n, sym := p.syms, diag := p.diag, st := .ok })

/-- 41_container.md R122 and R138: what stands at or beyond `size` is never read; two buffers that hold the same bytes below the
container's own size parse alike. -/
def Obligations.ParseReadsOnlyTheContainer : Prop :=
  ∀ (P : Params) (b c : Buffer), 48 ≤ b.num 8 → b.num 8 ≤ b.len → b.num 8 ≤ c.len →
    (∀ a, a < b.num 8 → b.byte a = c.byte a) → parse P b = parse P c

/-- 60_exceptions.md R257 and 20_memory.md R50: no operation reads outside a memory, and no result depends on what stands
outside. -/
def Obligations.NoReadOutsideTheMemories : Prop :=
  (∀ (P : Params) (b : Buffer), parse P b ≠ .error .outside) ∧
  (∀ (b : Buffer) (sOff k : Nat), loadGroup b sOff k ≠ .error .outside) ∧
  (∀ (P : Params) (b : Buffer) (sOff sLen : Nat), disassemble P b sOff sLen ≠ .error .outside) ∧
  ∀ b c : Buffer, b.same c →
    (∀ P : Params, parse P b = parse P c) ∧ (∀ sOff k, loadGroup b sOff k = loadGroup c sOff k) ∧
    ∀ (P : Params) (sOff sLen : Nat), disassemble P b sOff sLen = disassemble P c sOff sLen

/-! ### All commands -/

/-- 60_exceptions.md R240: from every state whatever, a step answers a next state; nothing faults, hangs or is refused by
the model. -/
def Obligations.EveryStepAnswersNext : Prop :=
  (∀ s : State, ∃ t, step s = .next t) ∧ ∀ (i : Instr) (s : State), ∃ t, exec i s = .next t

/-- 60_exceptions.md R240 to R245 with the priorities of R248: each command completes, and ends with a status other than `OK`
exactly when the rule of that status says so. -/
def Obligations.StatusesHaveTheirCauses : Prop :=
  ∀ (c : Command) (s : State), ∃ t, runCommand c s = .next t ∧
    ∀ e, e ≠ .ok → (t.st = e ↔ c.refusedWith s e)

/-- 60_exceptions.md R246 and 70_reset_and_hazards.md R273: a refused command changes `ST` and nothing else. -/
def Obligations.RefusalWritesOnlyTheStatus : Prop :=
  ∀ (c : Command) (s t : State), runCommand c s = .next t → t.st ≠ .ok → t = { s with st := t.st }

/-- 60_exceptions.md R251: a refused command, issued again on the state it left, is refused again with the same code and leaves
that state. -/
def Obligations.RetryIsRefusedAgain : Prop :=
  ∀ (c : Command) (s t : State), runCommand c s = .next t → t.st ≠ .ok → runCommand c t = .next t

/-- 10_state.md R35, column "writes on success": which registers each command may change. The model's own `out` changes with
BW.STOREW only. -/
def Obligations.CommandsWriteTheirColumn : Prop :=
  ∀ (c : Command) (s t : State), runCommand c s = .next t →
    t.d = s.d ∧ t.buf = s.buf ∧ t.strm = s.strm ∧ t.host = s.host ∧ t.epoch = s.epoch ∧
    (∀ a, t.bufView.byte a = s.bufView.byte a) ∧ (∀ a, t.strmView.byte a = s.strmView.byte a) ∧
    match c with
    | .bwZero | .bwLoadw _ | .bwLoadb _ _ | .bwInsert _ _ _ | .bwSetbit _ _ | .enc =>
      t = { s with w := t.w, st := t.st }
    | .bwStorew => t = { s with out := t.out, st := t.st }
    | .bwExtract _ _ | .bwGetbit _ => t = { s with r := t.r, st := t.st }
    | .parse => t = { s with hdr := t.hdr, nsym := t.nsym, sym := t.sym, diag := t.diag, st := t.st }
    | .dec => t = { s with drec := t.drec, txt := t.txt, st := t.st }
    | .disasm _ _ => t = { s with txt := t.txt, st := t.st }

/-- 10_state.md R33 and R35, column "reads": two states that agree on what a command reads give the same status and, on
success, the same values of what it writes, whatever the rest holds. -/
def Obligations.CommandsReadTheirColumn : Prop :=
  ∀ (c : Command) (s s' t t' : State), Command.inputsAgree s s' c →
    runCommand c s = .next t → runCommand c s' = .next t' →
    t.st = t'.st ∧ (t.st = .ok → Command.outputsAgree t t' c)

/-- 10_state.md R26: the six codes. -/
def Obligations.StatusCodes : Prop :=
  Status.code .ok = 0 ∧ Status.code .contractViolation = 1 ∧ Status.code .conflictingFetch = 2 ∧
  Status.code .conflictingModifier = 3 ∧ Status.code .malformedContainer = 4 ∧ Status.code .outOfMemory = 5 ∧
  (∀ e : Status, e.code ≠ 6 ∧ e.code ≠ 7) ∧ ∀ e f : Status, e.code = f.code → e = f

/-- 70_reset_and_hazards.md R274: the symbols are copies. Whatever the host does to `BUF` or otherwise, and whatever command but
PARSE it issues, `HDR`, `NSYM`, `SYM` and `DIAG` stay; a successful PARSE replaces them all. -/
def Obligations.SymbolsAreCopies : Prop :=
  (∀ (s t : State) (a : HostAction) (rest : List HostAction), s.host = a :: rest → a ≠ .command .parse → a ≠ .reset →
    step s = .next t → t.hdr = s.hdr ∧ t.nsym = s.nsym ∧ t.sym = s.sym ∧ t.diag = s.diag) ∧
  ∀ (s t : State) (rest : List HostAction), s.host = .command .parse :: rest → step s = .next t → t.st = .ok →
    ∃ p, parse params s.bufView = .ok p ∧ t.hdr = p.hdr ∧ t.nsym.toNat = p.syms.length ∧ t.sym = p.syms ∧ t.diag = p.diag

/-! ### Invariants -/

/-- The invariant of State.Good (10_state.md R25, R28 to R30, and the canonical form of the memories, log entry 8) is kept by
every step from every good state. -/
def Obligations.GoodIsKept : Prop := ∀ s t : State, s.Good → step s = .next t → t.Good

/-- The state after reset is good. -/
def Obligations.GoodAtReset : Prop := State.reset.Good

/-! ### The tables -/

/-- Words written out bit by bit from 30_encoding.md R63 decode to the instruction they stand for: `dp4 r0.xyzw, v3.xyzw,
c17.xyzw` with `last`; `rcp o7.x, c9.yyyy` with `last`; `mad` beside `sin` (45_scalar_ops.md R237). The positions and the
numbers are the default instances (the spec's own choice, log entries 5 and 6); that a word of both ops is the vector
row's instruction, `vmad` and not `ssin`, is the model's choice (DESIGN CHOICE, log entry 2). -/
def Obligations.WrittenOutWordsDecode : Prop :=
  decodeTableWord 128
    (0b1#1 ++ 0b0#1 ++ 0b00000#5 ++ 0b000000#6 ++ 0b1111#4 ++ 0b0000#4 ++
     0b00#2 ++ 0b000000#6 ++ 0b00000000#8 ++ 0b0#1 ++ 0b11#2 ++ 0b000000#6 ++ 0b00011011#8 ++ 0b0#1 ++
     0b10#2 ++ 0b000000#6 ++ 0b00011011#8 ++ 0b0#1 ++ 0b0011#4 ++ 0b00010001#8 ++ 0b00#2 ++
     0b00111#5 ++ 0b0000#4 ++ 0b000#3 ++ 0b00000000#8 ++ 0b00#2 ++ 0b0#1 ++ 0b0#1 ++ 0b0#1 ++ 0b000000#6 ++
     0b0#1 ++ 0b0#1 ++ 0b0#1 ++ 0b00#2 ++ 0b0#1 ++ 0b000#3 ++ 0b0#1 ++ 0b0#1 : BitVec 128).toNat =
    some (.vdp4 (.word
      { mask := 15, dst := 0, sc := { op := 0, mask := 0, dst := 0 }
        s0 := { type := 2, idx := 0, swz := 0x1b, neg := false, abs := false }
        s1 := { type := 3, idx := 0, swz := 0x1b, neg := false, abs := false }
        s2 := { type := 0, idx := 0, swz := 0, neg := false, abs := false }
        sh := { last := true, tgt := 0, afetch := 3, cfetch := 17, pswz := 0, pneg := false, pen := false
                sat := false, vflag := false } })) ∧
  decodeTableWord 128
    (0b1#1 ++ 0b0#1 ++ 0b00111#5 ++ 0b111111#6 ++ 0b0000#4 ++ 0b1000#4 ++
     0b11#2 ++ 0b000000#6 ++ 0b01010101#8 ++ 0b0#1 ++ 0b00#2 ++ 0b000000#6 ++ 0b00000000#8 ++ 0b0#1 ++
     0b00#2 ++ 0b000000#6 ++ 0b00000000#8 ++ 0b0#1 ++ 0b0000#4 ++ 0b00001001#8 ++ 0b00#2 ++
     0b00000#5 ++ 0b0010#4 ++ 0b000#3 ++ 0b00000000#8 ++ 0b00#2 ++ 0b0#1 ++ 0b0#1 ++ 0b0#1 ++ 0b000000#6 ++
     0b0#1 ++ 0b0#1 ++ 0b0#1 ++ 0b00#2 ++ 0b0#1 ++ 0b000#3 ++ 0b1#1 ++ 0b0#1 : BitVec 128).toNat =
    some (.srcp (.word
      { mask := 8, dst := 63, vec := { op := 0, mask := 0, dst := 0 }
        s0 := { type := 0, idx := 0, swz := 0, neg := false, abs := false }
        s1 := { type := 0, idx := 0, swz := 0, neg := false, abs := false }
        s2 := { type := 3, idx := 0, swz := 0x55, neg := false, abs := false }
        sh := { last := true, tgt := 7, afetch := 0, cfetch := 9, pswz := 0, pneg := false, pen := false
                sat := false, vflag := true } })) ∧
  decodeTableWord 128
    (0b0#1 ++ 0b0#1 ++ 0b00000#5 ++ 0b000001#6 ++ 0b1111#4 ++ 0b1000#4 ++
     0b01#2 ++ 0b000011#6 ++ 0b00000000#8 ++ 0b0#1 ++ 0b01#2 ++ 0b000010#6 ++ 0b00011011#8 ++ 0b0#1 ++
     0b01#2 ++ 0b000001#6 ++ 0b00011011#8 ++ 0b0#1 ++ 0b0000#4 ++ 0b00000000#8 ++ 0b00#2 ++
     0b00100#5 ++ 0b1111#4 ++ 0b000#3 ++ 0b00000000#8 ++ 0b00#2 ++ 0b0#1 ++ 0b0#1 ++ 0b0#1 ++ 0b000000#6 ++
     0b0#1 ++ 0b0#1 ++ 0b0#1 ++ 0b00#2 ++ 0b0#1 ++ 0b000#3 ++ 0b0#1 ++ 0b0#1 : BitVec 128).toNat =
    some (.vmad (.word
      { mask := 15, dst := 0, sc := { op := 15, mask := 8, dst := 1 }
        s0 := { type := 1, idx := 1, swz := 0x1b, neg := false, abs := false }
        s1 := { type := 1, idx := 2, swz := 0x1b, neg := false, abs := false }
        s2 := { type := 1, idx := 3, swz := 0, neg := false, abs := false }
        sh := { last := false, tgt := 0, afetch := 0, cfetch := 0, pswz := 0, pneg := false, pen := false
                sat := false, vflag := false } }))

/-- The rows of the opcode table (30_encoding.md R77 to R79, 44_vector_ops.md R210, 45_scalar_ops.md R230): a 128-bit value
whose bits under the row's mask are the row's match, and whose write mask is not zero, decodes to the row's constructor;
for a scalar row, beside no vector op of the table (log entry 2). -/
def Obligations.OpcodeTableRowsDecode : Prop :=
  (∀ r ∈ vectorRows, ∀ w : Nat, w < 2 ^ 128 → w &&& 0x3e000000000 = r.number.toNat <<< 37 →
    (w >>> 111) % 16 ≠ 0 → ∃ o, decodeTableWord 128 w = some (r.make (.word o))) ∧
  ∀ r ∈ scalarRows, ∀ w : Nat, w < 2 ^ 128 → w &&& 0x1e00000000 = r.number.toNat <<< 33 →
    (w >>> 107) % 16 ≠ 0 → ((w >>> 111) % 16 = 0 ∨ vLookup params (BitVec.ofNat 5 (w >>> 37)) = none) →
    ∃ o, decodeTableWord 128 w = some (r.make (.word o))

/-- 30_encoding.md R63: the default positions of the 30 fields and the fifteen reserved bits. The positions are the spec's own
choice (its decision D4, log entry 5). -/
def Obligations.DefaultLayoutIsTheTable : Prop :=
  Field.all.map (fun f => (params.lo f, params.hi f)) =
    [(0, 0), (2, 6), (7, 12), (13, 16), (17, 20), (21, 22), (23, 28), (29, 36), (37, 37), (38, 39), (40, 45), (46, 53),
     (54, 54), (55, 56), (57, 62), (63, 70), (71, 71), (72, 75), (76, 83), (86, 90), (91, 94), (98, 105), (108, 108),
     (109, 109), (111, 116), (117, 117), (118, 118), (119, 119), (122, 122), (126, 126)] ∧
  (List.range 128).filter (fun b => Field.all.all fun f => decide (b < params.lo f ∨ params.hi f < b)) =
    [1, 84, 85, 95, 96, 97, 106, 107, 110, 120, 121, 123, 124, 125, 127]

end Statements
end

