-- ==== Sys2Proof/Laws/Bits.lean ====
section
/-! SUPPORT. What the range operations of the bit container do, bit by bit. -/

namespace Sys2Proof.Machine

theorem getLsbD_lowMask (n i : Nat) : (lowMask n).getLsbD i = (decide (i < 128) && decide (i < n)) := by
  simp [lowMask, BitVec.getLsbD_ofNat, Nat.testBit_two_pow_sub_one]

/-- Bit `i` of a range's value is numeric bit `127 - hi + i` of the word, inside the range. -/
theorem getLsbD_rangeValue (w : BitWord) (lo hi i : Nat) :
    (rangeValue w lo hi).getLsbD i = (decide (i < hi - lo + 1) && w.getLsbD (127 - hi + i)) := by
  simp only [rangeValue, BitVec.getLsbD_and, BitVec.getLsbD_ushiftRight, getLsbD_lowMask]
  by_cases h2 : i < 128
  · simp [h2, Bool.and_comm]
  · have : w.getLsbD (127 - hi + i) = false := BitVec.getLsbD_of_ge _ _ (by omega)
    simp [this]

/-- Numeric bit `i` after a range write: the value's bit inside the range, the old bit outside. -/
theorem getLsbD_setRange (w v : BitWord) (lo hi i : Nat) (hlo : lo ≤ hi) (hhi : hi < 128)
    (hv : ∀ j, hi - lo + 1 ≤ j → v.getLsbD j = false) :
    (setRange w lo hi v).getLsbD i =
      if 127 - hi ≤ i ∧ i ≤ 127 - lo then v.getLsbD (i - (127 - hi)) else w.getLsbD i := by
  simp only [setRange, BitVec.getLsbD_or, BitVec.getLsbD_and, BitVec.getLsbD_not, BitVec.getLsbD_shiftLeft,
    getLsbD_lowMask]
  by_cases h1 : 127 - hi ≤ i <;> by_cases h2 : i ≤ 127 - lo
  · have h3 : i < 128 := by omega
    have h4 : ¬ i < 127 - hi := by omega
    have h5 : i - (127 - hi) < hi - lo + 1 := by omega
    have h6 : i - (127 - hi) < 128 := by omega
    simp [h1, h2, h3, h4, h5, h6]
  · have h4 : ¬ i < 127 - hi := by omega
    have h5 : ¬ i - (127 - hi) < hi - lo + 1 := by omega
    have h6 : v.getLsbD (i - (127 - hi)) = false := hv _ (by omega)
    by_cases h3 : i < 128
    · simp [h2, h3, h4, h5, h6]
    · have : w.getLsbD i = false := BitVec.getLsbD_of_ge _ _ (by omega)
      simp [h2, h3, this]
  · have h4 : i < 127 - hi := by omega
    have h3 : i < 128 := by omega
    simp [h1, h4, h3]
  · omega

/-- The value just written is read back. -/
theorem rangeValue_setRange_same (w v : BitWord) (lo hi : Nat) (hlo : lo ≤ hi) (hhi : hi < 128)
    (hv : ∀ j, hi - lo + 1 ≤ j → v.getLsbD j = false) : rangeValue (setRange w lo hi v) lo hi = v := by
  apply BitVec.eq_of_getLsbD_eq
  intro i hi'
  rw [getLsbD_rangeValue, getLsbD_setRange _ _ _ _ _ hlo hhi hv]
  by_cases h : i < hi - lo + 1
  · have h1 : 127 - hi ≤ 127 - hi + i ∧ 127 - hi + i ≤ 127 - lo := by omega
    simp [h, h1]
  · simp [h, hv i (by omega)]

/-- A range disjoint from the one written is unchanged. -/
theorem rangeValue_setRange_disjoint (w v : BitWord) (lo hi lo' hi' : Nat) (hlo : lo ≤ hi) (hhi : hi < 128)
    (hlo' : lo' ≤ hi') (hhi' : hi' < 128) (hv : ∀ j, hi - lo + 1 ≤ j → v.getLsbD j = false)
    (hd : hi < lo' ∨ hi' < lo) : rangeValue (setRange w lo hi v) lo' hi' = rangeValue w lo' hi' := by
  apply BitVec.eq_of_getLsbD_eq
  intro i hi''
  rw [getLsbD_rangeValue, getLsbD_rangeValue, getLsbD_setRange _ _ _ _ _ hlo hhi hv]
  by_cases h : i < hi' - lo' + 1
  · have h1 : ¬ (127 - hi ≤ 127 - hi' + i ∧ 127 - hi' + i ≤ 127 - lo) := by omega
    rw [if_neg h1]
  · simp [h]

/-- Spec bit `b` is numeric bit `127 - b`. -/
theorem bit_eq (w : BitWord) (b : Nat) : bit w b = w.getLsbD (127 - b) := rfl

/-- A value below `2^n` has no bit at or above `n`. -/
theorem getLsbD_ofNat_of_lt (v n j : Nat) (hv : v < 2 ^ n) (hj : n ≤ j) : (BitVec.ofNat 128 v).getLsbD j = false := by
  rw [BitVec.getLsbD_ofNat, Nat.testBit_lt_two_pow (lt_of_lt_of_le hv (Nat.pow_le_pow_right (by omega) hj))]
  simp

end Sys2Proof.Machine
end

