-- ==== Sys2Proof/Laws/Fields.lean ====
section
/-! SUPPORT. Every field is read where it was written, under any valid `LAYOUT` (00_scope.md R7). -/

namespace Sys2Proof.Machine

theorem field_width_pos (f : Field) : 0 < f.width := by cases f <;> decide

theorem field_mem_all (f : Field) : f ∈ Field.all := by cases f <;> decide

theorem field_lo_le_hi (P : Params) (f : Field) : P.lo f ≤ P.hi f := by
  have := field_width_pos f
  unfold Params.hi
  omega

theorem field_hi_lt {P : Params} (h : P.Valid) (f : Field) : P.hi f < 128 := by
  have := h.inside f
  have := field_width_pos f
  unfold Params.hi
  omega

theorem field_hi_sub_lo (P : Params) (f : Field) : P.hi f - P.lo f + 1 = f.width := by
  have := field_width_pos f
  unfold Params.hi
  omega

theorem setWidth_field_high {n : Nat} (v : BitVec n) (j : Nat) (h : n ≤ j) : (v.setWidth 128).getLsbD j = false := by
  rw [BitVec.getLsbD_setWidth, BitVec.getLsbD_of_ge v j h, Bool.and_false]

theorem getField_putField_same {P : Params} (h : P.Valid) (w : BitWord) (f : Field) (v : BitVec f.width) :
    getField P (putField P w f v) f = v := by
  unfold getField putField
  rw [rangeValue_setRange_same _ _ _ _ (field_lo_le_hi P f) (field_hi_lt h f)
    (fun j hj => setWidth_field_high v j (by rwa [field_hi_sub_lo] at hj))]
  have := h.inside f
  rw [BitVec.setWidth_setWidth_of_le v (show f.width ≤ 128 by omega), BitVec.setWidth_eq]

theorem getField_putField_other {P : Params} (h : P.Valid) (w : BitWord) (f g : Field) (v : BitVec f.width)
    (hne : f ≠ g) : getField P (putField P w f v) g = getField P w g := by
  unfold getField putField
  rw [rangeValue_setRange_disjoint _ _ _ _ _ _ (field_lo_le_hi P f) (field_hi_lt h f) (field_lo_le_hi P g) (field_hi_lt h g)
    (fun j hj => setWidth_field_high v j (by rwa [field_hi_sub_lo] at hj))]
  have := h.disjoint f g hne
  have := field_width_pos f
  have := field_width_pos g
  unfold Params.hi
  omega

theorem getField_foldl_other {P : Params} (h : P.Valid) (F : Fields) (g : Field) (l : List Field) (hg : g ∉ l)
    (w : BitWord) :
    getField P (l.foldl (fun w f => putField P w f (fieldValue F f)) w) g = getField P w g := by
  induction l generalizing w with
  | nil => rfl
  | cons f l ih =>
    rw [List.mem_cons, not_or] at hg
    rw [List.foldl_cons, ih hg.2, getField_putField_other h _ _ _ _ (Ne.symm hg.1)]

theorem getField_foldl {P : Params} (h : P.Valid) (F : Fields) (g : Field) (l : List Field) (hn : l.Nodup)
    (hg : g ∈ l) (w : BitWord) :
    getField P (l.foldl (fun w f => putField P w f (fieldValue F f)) w) g = fieldValue F g := by
  induction l generalizing w with
  | nil => simp at hg
  | cons f l ih =>
    rw [List.nodup_cons] at hn
    rw [List.foldl_cons]
    by_cases e : f = g
    · subst e
      rw [getField_foldl_other h F f l hn.1, getField_putField_same h]
    · exact ih hn.2 ((List.mem_cons.mp hg).resolve_left (Ne.symm e)) _

/-- Every field of the word built from a field record reads as the record says. -/
theorem getField_writeFields {P : Params} (h : P.Valid) (F : Fields) (f : Field) :
    getField P (writeFields P F) f = fieldValue F f :=
  getField_foldl h F f Field.all (by decide) (field_mem_all f) 0

@[simp] theorem flag_ofBool (b : Bool) : flag (BitVec.ofBool b) = b := by cases b <;> rfl

/-- The field record of the word built from a field record. -/
theorem readFields_writeFields {P : Params} (h : P.Valid) (F : Fields) : readFields P (writeFields P F) = F := by
  unfold readFields
  simp only [getField_writeFields h, fieldValue, flag_ofBool]

/-- A field is its entry of the field record. -/
theorem getField_eq_fieldValue (P : Params) (w : BitWord) (f : Field) : getField P w f = fieldValue (readFields P w) f := by
  have h : ∀ b : BitVec 1, BitVec.ofBool (flag b) = b := by decide
  cases f <;> first | rfl | exact (h _).symm

/-- Every bit outside the fields is 0 in a word built from a field record (30_encoding.md R76). -/
theorem bit_writeFields_reserved (P : Params) (hP : P.Valid) (F : Fields) (b : Nat) (hb : b < 128)
    (hres : ∀ f : Field, b < P.lo f ∨ P.hi f < b) : bit (writeFields P F) b = false := by
  have key : ∀ (l : List Field) (w : BitWord),
      bit (l.foldl (fun w f => putField P w f (fieldValue F f)) w) b = bit w b := by
    intro l
    induction l with
    | nil => intro w; rfl
    | cons f l ih =>
      intro w
      rw [List.foldl_cons, ih]
      unfold putField bit
      rw [getLsbD_setRange _ _ _ _ _ (field_lo_le_hi P f) (field_hi_lt hP f)
        (fun j hj => setWidth_field_high _ j (by rwa [field_hi_sub_lo] at hj))]
      have := hres f
      have := field_lo_le_hi P f
      have := field_hi_lt hP f
      have h1 : ¬ (127 - P.hi f ≤ 127 - b ∧ 127 - b ≤ 127 - P.lo f) := by omega
      rw [if_neg h1]
  unfold writeFields
  rw [key]
  simp [bit]

/-- Spec bit 0 is the `last` field. -/
theorem bit_zero_eq_last (P : Params) (hP : P.Valid) (w : BitWord) : bit w 0 = flag (getField P w .last) := by
  unfold bit getField flag
  have : P.hi .last = 0 := by simp [Params.hi, hP.last_first]
  rw [this, hP.last_first]
  have e : rangeValue w 0 0 = BitVec.ofNat 128 (w.getLsbD 127).toNat := by
    apply BitVec.eq_of_getLsbD_eq
    intro i hi
    rw [getLsbD_rangeValue]
    rcases i with _ | i
    · cases h : w.getLsbD 127 <;> simp_all
    · cases h : w.getLsbD 127 <;> simp
  rw [e]
  cases h : w.getLsbD 127 <;> simp

/-- Two words with equal fields and zero reserved bits are equal. -/
theorem word_ext {P : Params} (hP : P.Valid) {x y : BitWord} (hf : ∀ f, getField P x f = getField P y f)
  (hx : ∀ b, b < 128 → (∀ f : Field, b < P.lo f ∨ P.hi f < b) → bit x b = false)
  (hy : ∀ b, b < 128 → (∀ f : Field, b < P.lo f ∨ P.hi f < b) → bit y b = false) : x = y := by
  have hb : ∀ b, b < 128 → bit x b = bit y b := by
    intro b hb
    by_cases h : ∀ f : Field, b < P.lo f ∨ P.hi f < b
    · rw [hx b hb h, hy b hb h]
    · simp only [not_forall, not_or, not_lt] at h
      obtain ⟨f, h1, h2⟩ := h
      have e := congrArg (fun v => v.getLsbD (P.hi f - b)) (hf f)
      simp only [getField, BitVec.getLsbD_setWidth, getLsbD_rangeValue] at e
      have h3 := field_hi_lt hP f
      have h4 := field_hi_sub_lo P f
      unfold bit
      have : 127 - P.hi f + (P.hi f - b) = 127 - b := by omega
      rw [this] at e
      have h5 : P.hi f - b < f.width := by omega
      have h6 : P.hi f - b < P.hi f - P.lo f + 1 := by omega
      simpa [h5, h6] using e
  apply BitVec.eq_of_getLsbD_eq
  intro i hi
  have := hb (127 - i) (by omega)
  unfold bit at this
  have e : 127 - (127 - i) = i := by omega
  rwa [e] at this

end Sys2Proof.Machine
end

