-- ==== Sys2Proof/Laws/State.lean ====
section
/-! SUPPORT. One lemma per field per named update of the state. -/

namespace Sys2Proof.Machine

/-! ### raise -/

@[simp] theorem State.raise_w (s : State) (e : Status) : (s.raise e).w = s.w := rfl
@[simp] theorem State.raise_r (s : State) (e : Status) : (s.raise e).r = s.r := rfl
@[simp] theorem State.raise_d (s : State) (e : Status) : (s.raise e).d = s.d := rfl
@[simp] theorem State.raise_drec (s : State) (e : Status) : (s.raise e).drec = s.drec := rfl
@[simp] theorem State.raise_txt (s : State) (e : Status) : (s.raise e).txt = s.txt := rfl
@[simp] theorem State.raise_st (s : State) (e : Status) : (s.raise e).st = e := rfl
@[simp] theorem State.raise_hdr (s : State) (e : Status) : (s.raise e).hdr = s.hdr := rfl
@[simp] theorem State.raise_nsym (s : State) (e : Status) : (s.raise e).nsym = s.nsym := rfl
@[simp] theorem State.raise_sym (s : State) (e : Status) : (s.raise e).sym = s.sym := rfl
@[simp] theorem State.raise_diag (s : State) (e : Status) : (s.raise e).diag = s.diag := rfl
@[simp] theorem State.raise_buf (s : State) (e : Status) : (s.raise e).buf = s.buf := rfl
@[simp] theorem State.raise_strm (s : State) (e : Status) : (s.raise e).strm = s.strm := rfl
@[simp] theorem State.raise_host (s : State) (e : Status) : (s.raise e).host = s.host := rfl
@[simp] theorem State.raise_out (s : State) (e : Status) : (s.raise e).out = s.out := rfl
@[simp] theorem State.raise_epoch (s : State) (e : Status) : (s.raise e).epoch = s.epoch := rfl

/-! ### succeed -/

@[simp] theorem State.succeed_w (s : State) : (s.succeed).w = s.w := rfl
@[simp] theorem State.succeed_r (s : State) : (s.succeed).r = s.r := rfl
@[simp] theorem State.succeed_d (s : State) : (s.succeed).d = s.d := rfl
@[simp] theorem State.succeed_drec (s : State) : (s.succeed).drec = s.drec := rfl
@[simp] theorem State.succeed_txt (s : State) : (s.succeed).txt = s.txt := rfl
@[simp] theorem State.succeed_st (s : State) : (s.succeed).st = .ok := rfl
@[simp] theorem State.succeed_hdr (s : State) : (s.succeed).hdr = s.hdr := rfl
@[simp] theorem State.succeed_nsym (s : State) : (s.succeed).nsym = s.nsym := rfl
@[simp] theorem State.succeed_sym (s : State) : (s.succeed).sym = s.sym := rfl
@[simp] theorem State.succeed_diag (s : State) : (s.succeed).diag = s.diag := rfl
@[simp] theorem State.succeed_buf (s : State) : (s.succeed).buf = s.buf := rfl
@[simp] theorem State.succeed_strm (s : State) : (s.succeed).strm = s.strm := rfl
@[simp] theorem State.succeed_host (s : State) : (s.succeed).host = s.host := rfl
@[simp] theorem State.succeed_out (s : State) : (s.succeed).out = s.out := rfl
@[simp] theorem State.succeed_epoch (s : State) : (s.succeed).epoch = s.epoch := rfl

/-! ### showRec -/

@[simp] theorem State.showRec_w (P : Params) (s : State) (x : DRec) : (s.showRec P x).w = s.w := rfl
@[simp] theorem State.showRec_r (P : Params) (s : State) (x : DRec) : (s.showRec P x).r = s.r := rfl
@[simp] theorem State.showRec_d (P : Params) (s : State) (x : DRec) : (s.showRec P x).d = s.d := rfl
@[simp] theorem State.showRec_drec (P : Params) (s : State) (x : DRec) : (s.showRec P x).drec = x := rfl
@[simp] theorem State.showRec_txt (P : Params) (s : State) (x : DRec) : (s.showRec P x).txt = .one (render P.text x) := rfl
@[simp] theorem State.showRec_st (P : Params) (s : State) (x : DRec) : (s.showRec P x).st = s.st := rfl
@[simp] theorem State.showRec_hdr (P : Params) (s : State) (x : DRec) : (s.showRec P x).hdr = s.hdr := rfl
@[simp] theorem State.showRec_nsym (P : Params) (s : State) (x : DRec) : (s.showRec P x).nsym = s.nsym := rfl
@[simp] theorem State.showRec_sym (P : Params) (s : State) (x : DRec) : (s.showRec P x).sym = s.sym := rfl
@[simp] theorem State.showRec_diag (P : Params) (s : State) (x : DRec) : (s.showRec P x).diag = s.diag := rfl
@[simp] theorem State.showRec_buf (P : Params) (s : State) (x : DRec) : (s.showRec P x).buf = s.buf := rfl
@[simp] theorem State.showRec_strm (P : Params) (s : State) (x : DRec) : (s.showRec P x).strm = s.strm := rfl
@[simp] theorem State.showRec_host (P : Params) (s : State) (x : DRec) : (s.showRec P x).host = s.host := rfl
@[simp] theorem State.showRec_out (P : Params) (s : State) (x : DRec) : (s.showRec P x).out = s.out := rfl
@[simp] theorem State.showRec_epoch (P : Params) (s : State) (x : DRec) : (s.showRec P x).epoch = s.epoch := rfl

/-! ### writeParsed -/

@[simp] theorem State.writeParsed_w (s : State) (p : Parsed) : (s.writeParsed p).w = s.w := rfl
@[simp] theorem State.writeParsed_r (s : State) (p : Parsed) : (s.writeParsed p).r = s.r := rfl
@[simp] theorem State.writeParsed_d (s : State) (p : Parsed) : (s.writeParsed p).d = s.d := rfl
@[simp] theorem State.writeParsed_drec (s : State) (p : Parsed) : (s.writeParsed p).drec = s.drec := rfl
@[simp] theorem State.writeParsed_txt (s : State) (p : Parsed) : (s.writeParsed p).txt = s.txt := rfl
@[simp] theorem State.writeParsed_st (s : State) (p : Parsed) : (s.writeParsed p).st = s.st := rfl
@[simp] theorem State.writeParsed_hdr (s : State) (p : Parsed) : (s.writeParsed p).hdr = p.hdr := rfl
@[simp] theorem State.writeParsed_nsym (s : State) (p : Parsed) : (s.writeParsed p).nsym = BitVec.ofNat 32 p.syms.length := rfl
@[simp] theorem State.writeParsed_sym (s : State) (p : Parsed) : (s.writeParsed p).sym = p.syms := rfl
@[simp] theorem State.writeParsed_diag (s : State) (p : Parsed) : (s.writeParsed p).diag = p.diag := rfl
@[simp] theorem State.writeParsed_buf (s : State) (p : Parsed) : (s.writeParsed p).buf = s.buf := rfl
@[simp] theorem State.writeParsed_strm (s : State) (p : Parsed) : (s.writeParsed p).strm = s.strm := rfl
@[simp] theorem State.writeParsed_host (s : State) (p : Parsed) : (s.writeParsed p).host = s.host := rfl
@[simp] theorem State.writeParsed_out (s : State) (p : Parsed) : (s.writeParsed p).out = s.out := rfl
@[simp] theorem State.writeParsed_epoch (s : State) (p : Parsed) : (s.writeParsed p).epoch = s.epoch := rfl

/-! ### withWord -/

@[simp] theorem State.withWord_w (s : State) (x : BitWord) : (s.withWord x).w = x := rfl
@[simp] theorem State.withWord_r (s : State) (x : BitWord) : (s.withWord x).r = s.r := rfl
@[simp] theorem State.withWord_d (s : State) (x : BitWord) : (s.withWord x).d = s.d := rfl
@[simp] theorem State.withWord_drec (s : State) (x : BitWord) : (s.withWord x).drec = s.drec := rfl
@[simp] theorem State.withWord_txt (s : State) (x : BitWord) : (s.withWord x).txt = s.txt := rfl
@[simp] theorem State.withWord_st (s : State) (x : BitWord) : (s.withWord x).st = s.st := rfl
@[simp] theorem State.withWord_hdr (s : State) (x : BitWord) : (s.withWord x).hdr = s.hdr := rfl
@[simp] theorem State.withWord_nsym (s : State) (x : BitWord) : (s.withWord x).nsym = s.nsym := rfl
@[simp] theorem State.withWord_sym (s : State) (x : BitWord) : (s.withWord x).sym = s.sym := rfl
@[simp] theorem State.withWord_diag (s : State) (x : BitWord) : (s.withWord x).diag = s.diag := rfl
@[simp] theorem State.withWord_buf (s : State) (x : BitWord) : (s.withWord x).buf = s.buf := rfl
@[simp] theorem State.withWord_strm (s : State) (x : BitWord) : (s.withWord x).strm = s.strm := rfl
@[simp] theorem State.withWord_host (s : State) (x : BitWord) : (s.withWord x).host = .command .dec :: s.host := rfl
@[simp] theorem State.withWord_out (s : State) (x : BitWord) : (s.withWord x).out = s.out := rfl
@[simp] theorem State.withWord_epoch (s : State) (x : BitWord) : (s.withWord x).epoch = s.epoch := rfl

/-! ### withFetchWord -/

@[simp] theorem State.withFetchWord_w (s : State) (n x : Nat) : (s.withFetchWord n x).w = tableWord n x := rfl
@[simp] theorem State.withFetchWord_r (s : State) (n x : Nat) : (s.withFetchWord n x).r = s.r := rfl
@[simp] theorem State.withFetchWord_d (s : State) (n x : Nat) : (s.withFetchWord n x).d = s.d := rfl
@[simp] theorem State.withFetchWord_drec (s : State) (n x : Nat) : (s.withFetchWord n x).drec = s.drec := rfl
@[simp] theorem State.withFetchWord_txt (s : State) (n x : Nat) : (s.withFetchWord n x).txt = s.txt := rfl
@[simp] theorem State.withFetchWord_st (s : State) (n x : Nat) : (s.withFetchWord n x).st = s.st := rfl
@[simp] theorem State.withFetchWord_hdr (s : State) (n x : Nat) : (s.withFetchWord n x).hdr = s.hdr := rfl
@[simp] theorem State.withFetchWord_nsym (s : State) (n x : Nat) : (s.withFetchWord n x).nsym = s.nsym := rfl
@[simp] theorem State.withFetchWord_sym (s : State) (n x : Nat) : (s.withFetchWord n x).sym = s.sym := rfl
@[simp] theorem State.withFetchWord_diag (s : State) (n x : Nat) : (s.withFetchWord n x).diag = s.diag := rfl
@[simp] theorem State.withFetchWord_buf (s : State) (n x : Nat) : (s.withFetchWord n x).buf = s.buf := rfl
@[simp] theorem State.withFetchWord_strm (s : State) (n x : Nat) : (s.withFetchWord n x).strm = s.strm := rfl
@[simp] theorem State.withFetchWord_host (s : State) (n x : Nat) : (s.withFetchWord n x).host = .command .dec :: s.host := rfl
@[simp] theorem State.withFetchWord_out (s : State) (n x : Nat) : (s.withFetchWord n x).out = s.out := rfl
@[simp] theorem State.withFetchWord_epoch (s : State) (n x : Nat) : (s.withFetchWord n x).epoch = s.epoch := rfl

/-! ### afterReset -/

@[simp] theorem State.afterReset_w (s : State) : (s.afterReset).w = State.reset.w := rfl
@[simp] theorem State.afterReset_r (s : State) : (s.afterReset).r = State.reset.r := rfl
@[simp] theorem State.afterReset_d (s : State) : (s.afterReset).d = State.reset.d := rfl
@[simp] theorem State.afterReset_drec (s : State) : (s.afterReset).drec = State.reset.drec := rfl
@[simp] theorem State.afterReset_txt (s : State) : (s.afterReset).txt = State.reset.txt := rfl
@[simp] theorem State.afterReset_st (s : State) : (s.afterReset).st = State.reset.st := rfl
@[simp] theorem State.afterReset_hdr (s : State) : (s.afterReset).hdr = State.reset.hdr := rfl
@[simp] theorem State.afterReset_nsym (s : State) : (s.afterReset).nsym = State.reset.nsym := rfl
@[simp] theorem State.afterReset_sym (s : State) : (s.afterReset).sym = State.reset.sym := rfl
@[simp] theorem State.afterReset_diag (s : State) : (s.afterReset).diag = State.reset.diag := rfl
@[simp] theorem State.afterReset_buf (s : State) : (s.afterReset).buf = State.reset.buf := rfl
@[simp] theorem State.afterReset_strm (s : State) : (s.afterReset).strm = State.reset.strm := rfl
@[simp] theorem State.afterReset_host (s : State) : (s.afterReset).host = s.host := rfl
@[simp] theorem State.afterReset_out (s : State) : (s.afterReset).out = s.out := rfl
@[simp] theorem State.afterReset_epoch (s : State) : (s.afterReset).epoch = s.epoch + 1 := rfl

/-! ### Algebra of completion and refusal -/

@[simp] theorem State.raise_raise (s : State) (e f : Status) : (s.raise e).raise f = s.raise f := rfl
@[simp] theorem State.raise_succeed (s : State) (e : Status) : (s.raise e).succeed = s.succeed := rfl
@[simp] theorem State.succeed_raise (s : State) (e : Status) : s.succeed.raise e = s.raise e := rfl
@[simp] theorem State.succeed_succeed (s : State) : s.succeed.succeed = s.succeed := rfl
theorem State.succeed_eq_raise (s : State) : s.succeed = s.raise .ok := rfl
@[simp] theorem State.bufView_raise (s : State) (e : Status) : (s.raise e).bufView = s.bufView := rfl
@[simp] theorem State.strmView_raise (s : State) (e : Status) : (s.raise e).strmView = s.strmView := rfl
@[simp] theorem State.bufView_len (s : State) : s.bufView.len = s.buf.len := rfl
@[simp] theorem State.strmView_len (s : State) : s.strmView.len = s.strm.len := rfl
@[simp] theorem State.bufView_byte (s : State) (a : Nat) : s.bufView.byte a = s.buf.byte (Config.bufFree s.epoch) a := rfl
@[simp] theorem State.strmView_byte (s : State) (a : Nat) : s.strmView.byte a = s.strm.byte (Config.strmFree s.epoch) a := rfl

end Sys2Proof.Machine
end

