-- ==== Sys2Proof/Laws/Ops.lean ====
section
/-! SUPPORT. What each shared operation can do, said once. -/

namespace Sys2Proof.Machine

/-! ### Ending a command -/

@[simp] theorem finish_ok (s t : State) : finish s (.ok t) = .next t.succeed := rfl
@[simp] theorem finish_raise (s : State) (e : Status) : finish s (.error (.raise e)) = .next (s.raise e) := rfl
@[simp] theorem finish_outside (s : State) : finish s (.error .outside) = .fault .readOutsideMemory := rfl

/-- A command that answers a next state has completed with its writes, or was refused with `ST` alone. -/
theorem finish_next {s t : State} {r : Result State} (h : finish s r = .next t) :
    (∃ u, r = .ok u ∧ t = u.succeed) ∨ (∃ e, r = .error (.raise e) ∧ t = s.raise e) := by
  rcases r with (e | _) | u
  · exact .inr ⟨e, rfl, (by simpa using h.symm)⟩
  · simp at h
  · exact .inl ⟨u, rfl, (by simpa using h.symm)⟩

@[simp] theorem liftStatus_ok {α : Type} (a : α) : liftStatus (.ok a : Except Status α) = .ok a := rfl
@[simp] theorem liftStatus_error {α : Type} (e : Status) : liftStatus (.error e : Except Status α) = .error (.raise e) := rfl
@[simp] theorem needed_some {α : Type} (a : α) : needed (some a) = .ok a := rfl
@[simp] theorem needed_none {α : Type} : needed (none : Option α) = .error .outside := rfl
@[simp] theorem except_map_ok {ε α β : Type} (f : α → β) (a : α) : Except.map f (.ok a : Except ε α) = .ok (f a) := rfl
@[simp] theorem except_map_error {ε α β : Type} (f : α → β) (e : ε) :
    Except.map f (.error e : Except ε α) = .error e := rfl
@[simp] theorem except_bind_ok {ε α β : Type} (f : α → Except ε β) (a : α) : (Except.ok a >>= f) = f a := rfl
@[simp] theorem except_bind_error {ε α β : Type} (f : α → Except ε β) (e : ε) :
    ((Except.error e : Except ε α) >>= f) = .error e := rfl

/-! ### Tables -/

theorem vMnemonic_mem_all (m : VMnemonic) : m ∈ VMnemonic.all := by cases m <;> decide
theorem sMnemonic_mem_all (m : SMnemonic) : m ∈ SMnemonic.all := by cases m <;> decide

/-- A number found in `VOPTAB` is its mnemonic's. -/
theorem vLookup_some {P : Params} {n : BitVec 5} {m : VMnemonic} (h : vLookup P n = some m) : P.vnum m = n := by
  simpa using List.find?_some h

/-- A number found in `SOPTAB` is its mnemonic's. -/
theorem sLookup_some {P : Params} {n : BitVec 4} {m : SMnemonic} (h : sLookup P n = some m) : P.snum m = n := by
  simpa using List.find?_some h

/-- Every vector mnemonic is found by its number. -/
theorem vLookup_vnum {P : Params} (h : P.Valid) (m : VMnemonic) : vLookup P (P.vnum m) = some m := by
  cases e : vLookup P (P.vnum m) with
  | none => exact absurd (List.find?_eq_none.mp e m (vMnemonic_mem_all m)) (by simp)
  | some k => rw [h.vnum_distinct k m (vLookup_some e)]

/-- Every scalar mnemonic is found by its number. -/
theorem sLookup_snum {P : Params} (h : P.Valid) (m : SMnemonic) : sLookup P (P.snum m) = some m := by
  cases e : sLookup P (P.snum m) with
  | none => exact absurd (List.find?_eq_none.mp e m (sMnemonic_mem_all m)) (by simp)
  | some k => rw [h.snum_distinct k m (sLookup_some e)]

/-! ### The fold of the encoder -/

/-- The fold accepts exactly when all candidates are one value, and then gives it. -/
theorem agree_ok_iff {α : Type} [DecidableEq α] (e : Status) (xs : List α) :
    ∀ acc r, agree e acc xs = .ok r ↔ (∀ x ∈ acc.toList ++ xs, r = some x) ∧ (acc = none → xs = [] → r = none) := by
  induction xs with
  | nil => intro acc r; cases acc <;> simp [agree, eq_comm]
  | cons x xs ih =>
    intro acc r
    cases acc with
    | none => simp [agree, ih]
    | some c =>
      by_cases h : c = x
      · subst h; simp [agree, ih]
      · have hno : ¬ (r = some c ∧ r = some x) := fun hh => h (Option.some.inj (hh.1.symm.trans hh.2))
        simp only [agree, if_neg h]
        constructor
        · intro hh; exact nomatch hh
        · intro hh
          exact absurd ⟨hh.1 c (by simp), hh.1 x (by simp)⟩ hno

/-- The fold raises no status but its own. -/
theorem agree_error {α : Type} [DecidableEq α] {e f : Status} (xs : List α) :
    ∀ acc, agree e acc xs = .error f → f = e := by
  induction xs with
  | nil => intro acc h; cases acc <;> simp [agree] at h
  | cons x xs ih =>
    intro acc h
    cases acc with
    | none => exact ih _ (by simpa [agree] using h)
    | some c =>
      unfold agree at h
      split at h
      · exact ih _ h
      · exact (Except.error.inj h).symm

/-! ### The two sides of an instruction -/

/-- The decode side always answers a next state. -/
theorem showRecord_eq (P : Params) (s : State) (r : DRec) : showRecord P s r = .next (s.showRec P r).succeed := rfl

/-- The encode side of a descriptor that ENC accepts. -/
theorem encodeInto_ok {P : Params} {s : State} {D : Desc} {x : BitWord} (h : encodeDesc P D = .ok x) :
    encodeInto P s D = .next { s with w := x, st := .ok } := by
  unfold encodeInto; rw [h]; rfl

/-- The encode side of a descriptor that ENC refuses. -/
theorem encodeInto_error {P : Params} {s : State} {D : Desc} {e : Status} (h : encodeDesc P D = .error e) :
    encodeInto P s D = .next (s.raise e) := by
  unfold encodeInto; rw [h]; rfl

/-- The machine's instructions are those of the default instance. -/
theorem exec_eq_execIn : exec = execIn params := by
  funext i s; cases i <;> rfl

/-- A vector constructor runs the common template of its mnemonic. -/
theorem execIn_ofVec (P : Params) (m : VMnemonic) (f : VecForm) (s : State) :
    execIn P (Instr.ofVec m f) s = execVector P m f s := by
  cases m <;> rfl

/-- A scalar constructor runs the common template of its mnemonic. -/
theorem execIn_ofSca (P : Params) (m : SMnemonic) (f : ScaForm) (s : State) :
    execIn P (Instr.ofSca m f) s = execScalar P m f s := by
  cases m <;> rfl

/-- The same in the default instance. -/
theorem exec_ofVec (m : VMnemonic) (f : VecForm) (s : State) :
    exec (Instr.ofVec m f) s = execVector params m f s := by
  rw [exec_eq_execIn, execIn_ofVec]

/-- The same in the default instance. -/
theorem exec_ofSca (m : SMnemonic) (f : ScaForm) (s : State) :
    exec (Instr.ofSca m f) s = execScalar params m f s := by
  rw [exec_eq_execIn, execIn_ofSca]

/-- A command of the machine is the command of the default instance. -/
theorem runCommand_eq (c : Command) (s : State) : runCommand c s = runCommandIn params c s := by
  unfold runCommand runCommandIn; rw [exec_eq_execIn]

/-- A step of the machine is the step of the default instance. -/
theorem step_eq (s : State) : step s = stepIn params s := by
  unfold step stepIn; rw [exec_eq_execIn]

/-- What the encoder can do when it accepts: every check has passed and the fields are those of the descriptor. -/
theorem encodeFields_ok {P : Params} {D : Desc} {F : Fields} (h : encodeFields P D = .ok F) :
    contractOk P D = true ∧ ∃ cf af tg sat, fetchIndex P D .constant = .ok cf ∧ fetchIndex P D .attr = .ok af ∧
      sharedTarget D = .ok tg ∧ saturate D = .ok sat ∧
      F = { vec := vHalfOf D, sc := sHalfOf D, s0 := slotAt P D 0, s1 := slotAt P D 1, s2 := slotAt P D 2,
            sh := sharedOf D cf af tg sat } := by
  unfold encodeFields at h
  split at h
  · next hc =>
    cases h1 : fetchIndex P D .constant <;> rw [h1] at h
    · exact nomatch h
    cases h2 : fetchIndex P D .attr <;> rw [h2] at h
    · exact nomatch h
    cases h3 : sharedTarget D <;> rw [h3] at h
    · exact nomatch h
    cases h4 : saturate D <;> rw [h4] at h
    · exact nomatch h
    exact ⟨hc, _, _, _, _, rfl, rfl, rfl, rfl, (Except.ok.inj h).symm⟩
  · exact nomatch h

/-- The word of an accepted descriptor is built from its fields. -/
theorem encodeDesc_ok {P : Params} {D : Desc} {w : BitWord} (h : encodeDesc P D = .ok w) :
    ∃ F, encodeFields P D = .ok F ∧ w = writeFields P F := by
  unfold encodeDesc at h
  cases e : encodeFields P D with
  | error x => rw [e] at h; exact nomatch h
  | ok F => rw [e] at h; exact ⟨F, rfl, (Except.ok.inj h).symm⟩

/-! ### Bounds-checked reads -/

theorem readByte_of_lt {b : Buffer} {a : Nat} (h : a < b.len) : readByte b a = some (b.byte a) := if_pos h

theorem readWord_of_le {b : Buffer} {a : Nat} (h : a + 4 ≤ b.len) :
    readWord b a = some (wordOfBytes (b.byte a) (b.byte (a + 1)) (b.byte (a + 2)) (b.byte (a + 3))) := if_pos h

/-- Consecutive words inside the memory are all read. -/
theorem readWords_of_le {b : Buffer} (n : Nat) : ∀ a, a + 4 * n ≤ b.len →
    ∃ ws, readWords b a n = some ws ∧ ws.length = n ∧
      ∀ k, k < n → ws.getD k 0 = wordOfBytes (b.byte (a + 4 * k)) (b.byte (a + 4 * k + 1)) (b.byte (a + 4 * k + 2))
        (b.byte (a + 4 * k + 3)) := by
  induction n with
  | zero => exact fun a _ => ⟨[], rfl, rfl, fun k hk => absurd hk (Nat.not_lt_zero k)⟩
  | succ n ih =>
    intro a h
    obtain ⟨ws, h1, h2, h3⟩ := ih (a + 4) (by omega)
    refine ⟨wordOfBytes (b.byte a) (b.byte (a + 1)) (b.byte (a + 2)) (b.byte (a + 3)) :: ws, by simp only [readWords, readWord_of_le (show a + 4 ≤ b.len by omega), h1], by simp [h2], ?_⟩
    intro k hk
    cases k with
    | zero => rfl
    | succ k =>
      rw [List.getD_cons_succ, h3 k (by omega), show a + 4 + 4 * k = a + 4 * (k + 1) by omega]

/-- A group inside the memory is read. -/
theorem readGroup_of_le {b : Buffer} {a : Nat} (h : a + 16 ≤ b.len) : ∃ w, readGroup b a = some w := by
  unfold readGroup
  rw [readWord_of_le (by omega), readWord_of_le (by omega), readWord_of_le (by omega), readWord_of_le (by omega)]
  exact ⟨_, rfl⟩

end Sys2Proof.Machine
end

