-- ==== Sys2Proof/Laws/Encoder.lean ====
section
/-! SUPPORT. What the encoder's checks and folds can do, in the words of the rules (42_encoder.md R153 to R158). -/

namespace Sys2Proof.Machine

/-- No vector op takes more than three sources. -/
theorem vArity_le (P : Params) (n : BitVec 5) : vArity P n ≤ 3 := by
  unfold vArity; split
  · next m _ => cases m <;> decide
  · decide

/-- The encoder's test of a slot is the rule's (42_encoder.md R153). -/
theorem slotEncoded_iff (P : Params) (D : Desc) (i : Nat) : SlotEncoded P D i ↔ i < 3 ∧ encoded P D i = true := by
  unfold SlotEncoded encoded used present
  simp only [bne_iff_ne, Bool.and_eq_true, Bool.or_eq_true, decide_eq_true_eq, beq_iff_eq, ne_eq]

/-- The sources the encoder looks at are those of the encoded slots. -/
theorem mem_encodedSrcs (P : Params) (D : Desc) (x : Src) :
    x ∈ encodedSrcs P D ↔ ∃ i, SlotEncoded P D i ∧ srcAt D i = x := by
  unfold encodedSrcs
  simp only [List.mem_map, List.mem_filter, slotEncoded_iff]
  constructor
  · rintro ⟨i, ⟨h1, h2⟩, h3⟩
    refine ⟨i, ⟨?_, h2⟩, h3⟩
    simp at h1; omega
  · rintro ⟨i, ⟨h1, h2⟩, h3⟩
    refine ⟨i, ⟨?_, h2⟩, h3⟩
    simp; omega

/-- The check of a destination is 42_encoder.md R154 (a) to (c). -/
theorem dstOk_iff (d : Dst) : dstOk d = true ↔ ¬ DstBroken d := by
  unfold dstOk DstBroken
  cases d.type <;> simp

/-- The check of a source is 42_encoder.md R154 (d) to (g). -/
theorem srcOk_iff (d : Src) : srcOk d = true ↔ ¬ SrcBroken d := by
  unfold srcOk SrcBroken
  cases d.type <;> simp

/-- The destinations the encoder looks at are those of the present ops. -/
theorem mem_presentDsts (D : Desc) (d : Dst) :
    d ∈ presentDsts D ↔ (d = D.vdst ∧ D.vdst.mask ≠ 0) ∨ (d = D.sdst ∧ D.sdst.mask ≠ 0) := by
  unfold presentDsts present
  by_cases h1 : D.vdst.mask = 0#4 <;> by_cases h2 : D.sdst.mask = 0#4 <;> simp [h1, h2]

/-- All contract checks together. -/
theorem contractOk_iff (P : Params) (D : Desc) : contractOk P D = true ↔ ¬ ContractBroken P D := by
  unfold contractOk ContractBroken
  simp only [Bool.and_eq_true, List.all_eq_true, dstOk_iff, srcOk_iff, mem_presentDsts, mem_encodedSrcs]
  constructor
  · rintro ⟨h1, h2⟩ (h | h | ⟨i, h, h'⟩)
    · exact h1 _ (.inl ⟨rfl, h.1⟩) h.2
    · exact h1 _ (.inr ⟨rfl, h.1⟩) h.2
    · exact h2 _ ⟨i, h, rfl⟩ h'
  · intro h
    refine ⟨?_, ?_⟩
    · rintro d (⟨rfl, hd⟩ | ⟨rfl, hd⟩) hb
      · exact h (.inl ⟨hd, hb⟩)
      · exact h (.inr (.inl ⟨hd, hb⟩))
    · rintro x ⟨i, hi, rfl⟩ hb
      exact h (.inr (.inr ⟨i, hi, hb⟩))

/-- The fold accepts exactly when all candidates are equal. -/
theorem agree_ok_iff_all_equal {α : Type} [DecidableEq α] (e : Status) (xs : List α) :
   (∃ r, agree e none xs = .ok r) ↔ ∀ x ∈ xs, ∀ y ∈ xs, x = y := by
  simp only [agree_ok_iff]
  constructor
  · rintro ⟨r, h, -⟩ x hx y hy
    have a := h x (by simpa using hx); have b := h y (by simpa using hy)
    rw [a] at b; exact Option.some.inj b
  · intro h
    cases xs with
    | nil => exact ⟨none, by simp⟩
    | cons x xs => exact ⟨some x, by intro y hy; rw [h x (by simp) y (by simpa using hy)], by simp⟩

/-- A fetch index exists exactly when all encoded slots of the type name one register. -/
theorem fetchIndex_ok_iff (P : Params) (D : Desc) (t : RegType) : (∃ r, fetchIndex P D t = .ok r) ↔
    ∀ i j, SlotEncoded P D i → SlotEncoded P D j → (srcAt D i).type = t → (srcAt D j).type = t →
      (srcAt D i).idx = (srcAt D j).idx := by
  unfold fetchIndex fetchCandidates
  rw [agree_ok_iff_all_equal]
  simp only [List.mem_map, List.mem_filter, mem_encodedSrcs, beq_iff_eq]
  constructor
  · intro h i j hi hj ti tj
    exact h _ ⟨_, ⟨⟨i, hi, rfl⟩, ti⟩, rfl⟩ _ ⟨_, ⟨⟨j, hj, rfl⟩, tj⟩, rfl⟩
  · rintro h _ ⟨_, ⟨⟨i, hi, rfl⟩, ti⟩, rfl⟩ _ ⟨_, ⟨⟨j, hj, rfl⟩, tj⟩, rfl⟩
    exact h i j hi hj ti tj

/-- Both fetch folds accept exactly when there is no fetch conflict. -/
theorem not_fetchConflict_iff (P : Params) (D : Desc) : ¬ FetchConflict P D ↔
    (∃ r, fetchIndex P D .constant = .ok r) ∧ (∃ r, fetchIndex P D .attr = .ok r) := by
  rw [fetchIndex_ok_iff, fetchIndex_ok_iff]; unfold FetchConflict
  constructor
  · intro h
    refine ⟨fun i j hi hj ti tj => ?_, fun i j hi hj ti tj => ?_⟩
    · by_contra hne; exact h ⟨i, j, hi, hj, hne, .inl ⟨ti, tj⟩⟩
    · by_contra hne; exact h ⟨i, j, hi, hj, hne, .inr ⟨ti, tj⟩⟩
  · rintro ⟨h1, h2⟩ ⟨i, j, hi, hj, hne, (⟨ti, tj⟩ | ⟨ti, tj⟩)⟩
    · exact hne (h1 i j hi hj ti tj)
    · exact hne (h2 i j hi hj ti tj)

/-- The target and saturate folds accept exactly when there is no modifier conflict. -/
theorem not_modifierConflict_iff (D : Desc) : ¬ ModifierConflict D ↔
    (∃ r, sharedTarget D = .ok r) ∧ (∃ r, saturate D = .ok r) := by
  unfold ModifierConflict sharedTarget saturate targetCandidates
  rw [agree_ok_iff_all_equal]
  unfold presentDsts present
  by_cases h1 : D.vdst.mask = 0#4 <;> by_cases h2 : D.sdst.mask = 0#4 <;> simp [h1, h2]
  by_cases h3 : D.vdst.type = .varying <;> by_cases h4 : D.sdst.type = .varying <;> simp [h3, h4]
  all_goals by_cases h5 : D.vdst.sat = D.sdst.sat <;> simp [h5]
  all_goals grind

end Sys2Proof.Machine
end

