-- ==== Sys2Proof/Laws/Memory.lean ====
section
/-! SUPPORT. The laws of the host's byte memories: a read after a write, the rest unchanged, and the canonical form kept by
every operation. -/

namespace Sys2Proof.Machine

theorem lookupCell_insertCell (cs : List Host.Cell) (a c : Nat) (v : Byte) :
    (cs.map Prod.fst).Pairwise (· < ·) →
      lookupCell (insertCell cs a v) c = if c = a then some v else lookupCell cs c := by
  induction cs with
  | nil => intro _; simp [insertCell, lookupCell]
  | cons p cs ih =>
    obtain ⟨b, x⟩ := p
    intro h
    simp only [List.map_cons, List.pairwise_cons] at h
    unfold insertCell
    split
    · simp [lookupCell]
    · split
      · subst_vars; simp only [lookupCell]; split <;> simp_all
      · simp only [lookupCell, ih h.2]; split <;> (simp_all; try omega)

theorem mem_keys_insertCell (cs : List Host.Cell) (a : Nat) (v : Byte) (k : Nat) :
    k ∈ (insertCell cs a v).map Prod.fst → k = a ∨ k ∈ cs.map Prod.fst := by
  induction cs with
  | nil => simp [insertCell]
  | cons p cs ih =>
    obtain ⟨b, x⟩ := p
    unfold insertCell
    split
    · simp
    · split
      · subst_vars; simp
      · simp only [List.map_cons, List.mem_cons]; grind

theorem insertCell_rising (cs : List Host.Cell) (a : Nat) (v : Byte) :
    (cs.map Prod.fst).Pairwise (· < ·) → ((insertCell cs a v).map Prod.fst).Pairwise (· < ·) := by
  induction cs with
  | nil => simp [insertCell]
  | cons p cs ih =>
    obtain ⟨b, x⟩ := p
    intro h
    simp only [List.map_cons, List.pairwise_cons] at h
    unfold insertCell
    split
    · next hlt =>
      simp only [List.map_cons, List.pairwise_cons, List.mem_cons]
      refine ⟨?_, h⟩
      rintro k (rfl | hk)
      · exact hlt
      · exact lt_trans hlt (h.1 k hk)
    · split
      · subst_vars; simpa using h
      · simp only [List.map_cons, List.pairwise_cons]
        refine ⟨fun k hk => ?_, ih h.2⟩
        rcases mem_keys_insertCell cs a v k hk with rfl | hk
        · omega
        · exact h.1 k hk

/-- A write keeps the canonical form. -/
theorem Memory.wf_write {m : Memory} (h : m.wf) (a : Nat) (v : Byte) : (m.write a v).wf := insertCell_rising m.cells a v h

/-- Writing bytes keeps the canonical form. -/
theorem Memory.wf_writeBytes {m : Memory} (h : m.wf) (a : Nat) (vs : List Byte) : (m.writeBytes a vs).wf := by
  induction vs generalizing m a with
  | nil => exact h
  | cons v vs ih => exact ih (Memory.wf_write h a v) (a + 1)

/-- Writing the length register keeps the canonical form. -/
theorem Memory.wf_setLen {m : Memory} (h : m.wf) (n : Nat) : (m.setLen n).wf := h

theorem emptyMemory_wf : emptyMemory.wf := List.Pairwise.nil

/-- The memories after reset have the canonical form. -/
theorem reset_memories_wf : State.reset.buf.wf ∧ State.reset.strm.wf := ⟨emptyMemory_wf, emptyMemory_wf⟩

/-- A byte after a write: the byte written at its address, every other address as before. -/
theorem Memory.byte_write {m : Memory} (h : m.wf) (free : Nat → Byte) (a c : Nat) (v : Byte) :
    (m.write a v).byte free c = if c = a then v else m.byte free c := by
  unfold Memory.byte Memory.write
  rw [lookupCell_insertCell _ _ _ _ h]
  split <;> simp

@[simp] theorem Memory.byte_setLen (m : Memory) (free : Nat → Byte) (n a : Nat) :
    (m.setLen n).byte free a = m.byte free a := rfl
@[simp] theorem Memory.len_setLen (m : Memory) (n : Nat) : (m.setLen n).len = n := rfl
@[simp] theorem Memory.len_write (m : Memory) (a : Nat) (v : Byte) : (m.write a v).len = m.len := rfl
@[simp] theorem Memory.len_writeBytes (m : Memory) (a : Nat) (vs : List Byte) : (m.writeBytes a vs).len = m.len := by
  induction vs generalizing m a with
  | nil => rfl
  | cons v vs ih => simp [Memory.writeBytes, ih]

end Sys2Proof.Machine
end

