-- ==== Sys2Proof/Laws/Params.lean ====
section
/-! SUPPORT. The default instances meet the constraints of 00_scope.md R7 and of decisions D7, D8 and D21. -/

namespace Sys2Proof.Machine

theorem params_lo_inside (f : Field) : params.lo f + f.width ≤ 128 := by cases f <;> decide

theorem params_lo_disjoint (f g : Field) (h : f ≠ g) :
    params.lo f + f.width ≤ params.lo g ∨ params.lo g + g.width ≤ params.lo f := by
  cases f <;> cases g <;> first | exact absurd rfl h | decide

/-- The machine's own instance of the parameters is one the spec allows. -/
theorem params_valid : params.Valid where
  last_first := rfl
  inside := params_lo_inside
  disjoint := params_lo_disjoint
  vnum_distinct m n := by cases m <;> cases n <;> decide
  snum_distinct m n := by cases m <;> cases n <;> decide
  dtype_bytes_distinct := by decide
  dtype_types_distinct := by decide
  dtype_known := by decide
  symRec_inside := by decide

end Sys2Proof.Machine
end

