-- ==== Sys2Proof/Laws/Parser.lean ====
section
/-! SUPPORT. What each operation of the parser can do, said once, in the words of the rules
(41_container.md R121 to R132). -/

namespace Sys2Proof.Machine

/-- Any 48 bytes are a header. -/
theorem readHeader_of_le (b : Buffer) (h : 48 ≤ b.len) : readHeader b = .ok 
      { type := b.word 0, unknown0 := b.word 4, size := b.word 8, numSymbols := b.word 12, barSize := b.word 16
        barOffset := b.word 20, binarySize := b.word 24, binaryOffset := b.word 28, unknown1 := b.word 32
        unknown2 := b.word 36, unknown3 := b.word 40, unknown4 := b.word 44
        ptype := if b.word 0 = 0x1b5d then .vertex else if b.word 0 = 0x1b5e then .fragment else .other (b.word 0) } := by
  obtain ⟨ws, h1, h2, h3⟩ := readWords_of_le (b := b) 12 0 (by omega)
  unfold readHeader headerBytes
  rw [if_neg (by omega), h1]
  simp only [needed_some, except_bind_ok, headerOf]
  have e : ∀ k, k < 12 → ws.getD k 0 = b.word (4 * k) := by intro k hk; rw [h3 k hk]; simp [Buffer.word]
  rw [e 0 (by omega), e 1 (by omega), e 2 (by omega), e 3 (by omega), e 4 (by omega), e 5 (by omega),
    e 6 (by omega), e 7 (by omega), e 8 (by omega), e 9 (by omega), e 10 (by omega), e 11 (by omega)]
  rfl

/-- The region check is the rule's (R123). -/
theorem regionOk_eq_false_iff (s o z : Nat) : regionOk s o z = false ↔ ¬ RegionInside s o z := by
  unfold regionOk RegionInside; 
  by_cases h1 : o < s <;> by_cases h2 : o + z ≤ s <;> simp [h1, h2]

/-- The scan for the terminator finds the first zero byte, or fails when there is none. -/
theorem scanName_cases (b : Buffer) (fuel : Nat) : ∀ p, p + fuel ≤ b.len →
   ((∀ q, p ≤ q → q < p + fuel → b.byte q ≠ 0) ∧ scanName b fuel p = .error (.raise .malformedContainer)) ∨
   ∃ n, scanName b fuel p = .ok n ∧ p + n.length < p + fuel ∧ b.byte (p + n.length) = 0 ∧
      ∀ j, j < n.length → b.byte (p + j) ≠ 0 ∧ n[j]? = some (b.byte (p + j)) := by
  induction fuel with
  | zero => intro p h; exact .inl ⟨fun q h1 h2 => by omega, rfl⟩
  | succ fuel ih =>
    intro p h
    unfold scanName
    rw [readByte_of_lt (show p < b.len by omega)]
    simp only [needed_some, except_bind_ok]
    by_cases hz : b.byte p = 0
    · right; exact ⟨[], by rw [if_pos hz]; rfl, by simp, by simpa using hz, by simp⟩
    · rw [if_neg hz]
      rcases ih (p + 1) (by omega) with ⟨h1, h2⟩ | ⟨n, h1, h2, h3, h4⟩
      · left
        refine ⟨?_, by rw [h2]; rfl⟩
        intro q hq1 hq2
        by_cases e : q = p
        · rw [e]; exact hz
        · exact h1 q (by omega) (by omega)
      · right
        refine ⟨b.byte p :: n, by rw [h1]; rfl, by simp; omega, ?_, ?_⟩
        · rw [← h3]; congr 1; simp; omega
        · intro j hj
          rcases j with _ | j
          · exact ⟨hz, rfl⟩
          · have := h4 j (by simpa using hj)
            rw [show p + 1 + j = p + (j + 1) by omega] at this
            simpa using this

/-- A name is read or refused. -/
theorem readName_cases (b : Buffer) (size off : Nat) (h : size ≤ b.len) :
   (NameBroken b size off ∧ readName b size off = .error (.raise .malformedContainer)) ∨
   (¬ NameBroken b size off ∧ ∃ n, readName b size off = .ok n ∧ NameIs b size off n) := by
  unfold readName NameBroken
  by_cases h0 : off = 0
  · right; refine ⟨by simp [h0], none, by simp [h0], h0⟩
  rw [if_neg h0]
  by_cases h1 : off ≥ size
  · left; rw [if_pos h1]; exact ⟨⟨h0, .inl h1⟩, rfl⟩
  rw [if_neg h1]
  rcases scanName_cases b (size - off) off (by omega) with ⟨a, c⟩ | ⟨n, a, c, d, e⟩
  · left; rw [c]; exact ⟨⟨h0, .inr fun p h1 h2 => a p h1 (by omega)⟩, rfl⟩
  · right; rw [a]
    refine ⟨?_, some n, rfl, h0, by omega, d, e⟩
    rintro ⟨_, h | h⟩
    · exact h1 h
    · exact h (off + n.length) (by omega) (by omega) d

/-- A record is resolved or refused. -/
theorem parseRecord_cases (P : Params) (hL : P.symRec = defaultSymRec) (b : Buffer) (i : Nat)
    (hs : b.num 8 ≤ b.len) (hi : 48 + 48 * i + 48 ≤ b.num 8) :
   (RecordBroken b i ∧ parseRecord P b (b.num 8) i = .error (.raise .malformedContainer)) ∨
   (¬ RecordBroken b i ∧ ∃ y, parseRecord P b (b.num 8) i = .ok y ∧ SymbolIs P b i y) := by
  obtain ⟨ws, h1, h2, h3⟩ := readWords_of_le (b := b) 12 (48 + 48 * i) (by omega)
  have e : ∀ k, k < 12 → ws.getD k 0 = b.word (48 + 48 * i + 4 * k) := by intro k hk; rw [h3 k hk]; rfl
  unfold parseRecord headerBytes recordBytes
  rw [h1]
  simp only [needed_some, except_bind_ok, hL, defaultSymRec]
  rw [e 0 (by omega), e 1 (by omega), e 2 (by omega), e 3 (by omega), e 4 (by omega)]
  unfold RecordBroken
  rcases readName_cases b (b.num 8) (b.num (48 + 48 * i + 12)) hs with ⟨n1, n2⟩ | ⟨n1, n, n2, n3⟩
  · left
    refine ⟨.inl n1, ?_⟩
    have : readName b (b.num 8) (b.word (48 + 48 * i + 4 * 3)).toNat = _ := n2
    rw [this]; rfl
  have : readName b (b.num 8) (b.word (48 + 48 * i + 4 * 3)).toNat = _ := n2
  rw [this]
  simp only [except_bind_ok]
  by_cases hv : b.num (48 + 48 * i + 16) ≠ 0 ∧ b.num 8 < b.num (48 + 48 * i + 16) + 16
  · left; refine ⟨.inr hv, if_pos hv⟩
  · right
    refine ⟨by rintro (h | h) <;> [exact n1 h; exact hv h], ?_⟩
    have hif : ∀ {α : Type} (x y : α), (if (b.word (48 + 48 * i + 4 * 4)).toNat ≠ 0 ∧
        (b.word (48 + 48 * i + 4 * 4)).toNat + 16 > b.num 8 then x else y) = y := fun x y => if_neg hv
    rw [hif]
    have hk : ∀ x : Word, kindOf x = if x.toNat = 0x1005 then SymKind.attr
    else if x.toNat = 0x1006 then .uniform
    else if x.toNat = 0x1007 then .constant
    else .unknown := by
      intro x; unfold kindOf kindAttribute kindUniform kindConstant
      have a1 : x = 0x1005 ↔ x.toNat = 0x1005 := ⟨fun h => by rw [h]; rfl, fun h => BitVec.eq_of_toNat_eq h⟩
      have a2 : x = 0x1006 ↔ x.toNat = 0x1006 := ⟨fun h => by rw [h]; rfl, fun h => BitVec.eq_of_toNat_eq h⟩
      have a3 : x = 0x1007 ↔ x.toNat = 0x1007 := ⟨fun h => by rw [h]; rfl, fun h => BitVec.eq_of_toNat_eq h⟩
      simp only [a1, a2, a3]
    have hcst : ∀ x : Word, kindOf x = .constant ↔ x.toNat = 0x1007 := by
      intro x; rw [hk]; split
      · simp; omega
      · split
        · simp; omega
        · split <;> simp_all
    have hty : typeOf P (b.word (48 + 48 * i + 4 * 0)) = (P.dtype.lookup (b.byte (48 + 48 * i))).getD .unknown := by
      unfold typeOf
      have : (b.word (48 + 48 * i + 4 * 0)).setWidth 8 = b.byte (48 + 48 * i) := by
        unfold Buffer.word wordOfBytes
        apply BitVec.eq_of_getLsbD_eq
        intro j hj
        rw [BitVec.getLsbD_setWidth, BitVec.getLsbD_append]
        simp [hj]
      rw [this]
    have hvec : ∃ v, readVector b (kindOf (b.word (48 + 48 * i + 4 * 1))) (b.word (48 + 48 * i + 4 * 4)).toNat = .ok v ∧
       v = if hasValues (kindOf (b.word (48 + 48 * i + 4 * 1))) (b.word (48 + 48 * i + 4 * 4)).toNat then
      { x0 := b.word (b.num (48 + 48 * i + 16)), x1 := b.word (b.num (48 + 48 * i + 16) + 4),
        x2 := b.word (b.num (48 + 48 * i + 16) + 8), x3 := b.word (b.num (48 + 48 * i + 16) + 12) }
    else { x0 := 0, x1 := 0, x2 := 0, x3 := 0 } := by
      unfold readVector
      by_cases hh : hasValues (kindOf (b.word (48 + 48 * i + 4 * 1))) (b.word (48 + 48 * i + 4 * 4)).toNat = true
      · rw [if_pos hh, if_pos hh]
        have hne : b.num (48 + 48 * i + 16) ≠ 0 := by
          unfold hasValues at hh; simp at hh; exact fun h => hh.2 h
        obtain ⟨vs, v1, v2, v3⟩ := readWords_of_le (b := b) 4 (b.num (48 + 48 * i + 16)) (by omega)
        have : readWords b (b.word (48 + 48 * i + 4 * 4)).toNat 4 = some vs := v1
        rw [this]
        refine ⟨_, rfl, ?_⟩
        unfold vecOf
        rw [v3 0 (by omega), v3 1 (by omega), v3 2 (by omega), v3 3 (by omega)]; rfl
      · rw [if_neg hh, if_neg hh]; exact ⟨_, rfl, rfl⟩
    obtain ⟨v, v1, v2⟩ := hvec
    rw [v1]
    refine ⟨_, rfl, ⟨rfl, hk _, hty, n3, ?_, v2⟩⟩
    unfold hasValues
    simp only [Bool.and_eq_true, decide_eq_true_eq, hcst]; rfl

/-- The diagnostics are the diagnosed symbols' indices, rising. -/
theorem diagFrom_cases (ys : List SymbolRec) : ∀ i, (diagFrom i ys).Pairwise (· < ·) ∧
    ∀ k, k ∈ diagFrom i ys ↔ ∃ y, i ≤ k ∧ ys[k - i]? = some y ∧ diagnosed y = true := by
  induction ys with
  | nil => intro i; simp [diagFrom]
  | cons y ys ih =>
    intro i
    have := ih (i + 1)
    unfold diagFrom
    by_cases hd : diagnosed y = true
    · rw [if_pos hd]
      refine ⟨List.pairwise_cons.2 ⟨fun k hk => ?_, this.1⟩, fun k => ?_⟩
      · obtain ⟨_, h, _⟩ := (this.2 k).1 hk; omega
      · rw [List.mem_cons, this.2 k]
        constructor
        · rintro (rfl | ⟨z, h1, h2, h3⟩)
          · exact ⟨y, le_refl _, by simp, hd⟩
          · refine ⟨z, by omega, ?_, h3⟩
            rw [show k - i = (k - (i + 1)) + 1 by omega]; simpa using h2
        · rintro ⟨z, h1, h2, h3⟩
          by_cases e : k = i
          · exact .inl e
          · right; refine ⟨z, by omega, ?_, h3⟩
            rw [show k - i = (k - (i + 1)) + 1 by omega] at h2; simpa using h2
    · rw [if_neg hd]
      refine ⟨this.1, fun k => ?_⟩
      rw [this.2 k]
      constructor
      · rintro ⟨z, h1, h2, h3⟩
        refine ⟨z, by omega, ?_, h3⟩
        rw [show k - i = (k - (i + 1)) + 1 by omega]; simpa using h2
      · rintro ⟨z, h1, h2, h3⟩
        by_cases e : k = i
        · subst e; simp at h2; subst h2; exact absurd h3 hd
        · refine ⟨z, by omega, ?_, h3⟩
          rw [show k - i = (k - (i + 1)) + 1 by omega] at h2; simpa using h2

end Sys2Proof.Machine
end

