-- ==== Sys2Proof/Laws/PerInstr.lean ====
section
/-! SUPPORT. The family RowPattern: the word of an instruction shows its own row, that is, the row's opcode number stands in the
row's opcode field and the row's write mask is not zero (the side condition of spec/opcode_table.json, 30_encoding.md
R77 to R79). -/

namespace Sys2Proof.Laws

open Sys2Proof.Machine

/-- A word shows a vector row. -/
def showsVec (P : Params) (m : VMnemonic) (w : BitWord) : Prop :=
  getField P w .vop = P.vnum m ∧ getField P w .vmask ≠ 0

/-- A word shows a scalar row. -/
def showsSca (P : Params) (m : SMnemonic) (w : BitWord) : Prop :=
  getField P w .sop = P.snum m ∧ getField P w .smask ≠ 0

/-- A word shows the row of an instruction. -/
def showsRow (P : Params) (w : BitWord) : Instr → Prop
  | .vmov _ => showsVec P .mov w
  | .vmul _ => showsVec P .mul w
  | .vadd _ => showsVec P .add w
  | .vmad _ => showsVec P .mad w
  | .vdp3 _ => showsVec P .dp3 w
  | .vdp4 _ => showsVec P .dp4 w
  | .vmin _ => showsVec P .min w
  | .vmax _ => showsVec P .max w
  | .vslt _ => showsVec P .slt w
  | .vsge _ => showsVec P .sge w
  | .varl _ => showsVec P .arl w
  | .vfrc _ => showsVec P .frc w
  | .vflr _ => showsVec P .flr w
  | .vseq _ => showsVec P .seq w
  | .vsgt _ => showsVec P .sgt w
  | .vsle _ => showsVec P .sle w
  | .vsne _ => showsVec P .sne w
  | .scos _ => showsSca P .cos w
  | .smov _ => showsSca P .mov w
  | .srcp _ => showsSca P .rcp w
  | .srsq _ => showsSca P .rsq w
  | .slg2 _ => showsSca P .lg2 w
  | .sex2 _ => showsSca P .ex2 w
  | .ssin _ => showsSca P .sin w

/-- The word of a well-formed instruction, in either form and under any valid parameters, shows the instruction's row. -/
def RowPattern.Statement (i : Instr) : Prop :=
  ∀ P : Params, P.Valid → i.wellFormedIn P = true → ∀ w, encode P i = .ok w → showsRow P w i

theorem present_ne {mask : BitVec 4} (h : present mask = true) : mask ≠ 0 := by simpa [present] using h

theorem vecForm_shows {P : Params} (hP : P.Valid) {m : VMnemonic} {f : VecForm} (hf : f.wellFormed = true) {w : BitWord}
    (h : f.toWord P (P.vnum m) = .ok w) : showsVec P m w := by
  cases f with
  | word o =>
    obtain rfl := (Except.ok.inj h).symm
    exact ⟨getField_writeFields hP _ .vop, by rw [getField_writeFields hP]; exact present_ne hf⟩
  | desc o =>
    obtain ⟨F, hF, rfl⟩ := encodeDesc_ok h
    obtain ⟨-, cf, af, tg, sat, -, -, -, -, rfl⟩ := encodeFields_ok hF
    have hp : present (o.toDesc (P.vnum m)).vdst.mask = true := hf
    refine ⟨?_, ?_⟩ <;> rw [getField_writeFields hP] <;> simp only [fieldValue, vHalfOf, if_pos hp]
    · rfl
    · exact present_ne hf

theorem scaForm_shows {P : Params} (hP : P.Valid) {m : SMnemonic} {f : ScaForm} (hf : f.wellFormed P = true) {w : BitWord}
    (h : f.toWord P (P.snum m) = .ok w) : showsSca P m w := by
  cases f with
  | word o =>
    obtain rfl := (Except.ok.inj h).symm
    exact ⟨getField_writeFields hP _ .sop, by
      rw [getField_writeFields hP]; exact present_ne (Bool.and_eq_true_iff.mp hf).1⟩
  | desc o =>
    obtain ⟨F, hF, rfl⟩ := encodeDesc_ok h
    obtain ⟨-, cf, af, tg, sat, -, -, -, -, rfl⟩ := encodeFields_ok hF
    have hp : present (o.toDesc (P.snum m)).sdst.mask = true := (Bool.and_eq_true_iff.mp hf).1
    refine ⟨?_, ?_⟩ <;> rw [getField_writeFields hP] <;> simp only [fieldValue, sHalfOf, if_pos hp]
    · rfl
    · exact present_ne hp

theorem RowPattern.vmov (f : VecForm) : RowPattern.Statement (.vmov f) := fun _ hP hf _ h => vecForm_shows hP hf h
theorem RowPattern.vmul (f : VecForm) : RowPattern.Statement (.vmul f) := fun _ hP hf _ h => vecForm_shows hP hf h
theorem RowPattern.vadd (f : VecForm) : RowPattern.Statement (.vadd f) := fun _ hP hf _ h => vecForm_shows hP hf h
theorem RowPattern.vmad (f : VecForm) : RowPattern.Statement (.vmad f) := fun _ hP hf _ h => vecForm_shows hP hf h
theorem RowPattern.vdp3 (f : VecForm) : RowPattern.Statement (.vdp3 f) := fun _ hP hf _ h => vecForm_shows hP hf h
theorem RowPattern.vdp4 (f : VecForm) : RowPattern.Statement (.vdp4 f) := fun _ hP hf _ h => vecForm_shows hP hf h
theorem RowPattern.vmin (f : VecForm) : RowPattern.Statement (.vmin f) := fun _ hP hf _ h => vecForm_shows hP hf h
theorem RowPattern.vmax (f : VecForm) : RowPattern.Statement (.vmax f) := fun _ hP hf _ h => vecForm_shows hP hf h
theorem RowPattern.vslt (f : VecForm) : RowPattern.Statement (.vslt f) := fun _ hP hf _ h => vecForm_shows hP hf h
theorem RowPattern.vsge (f : VecForm) : RowPattern.Statement (.vsge f) := fun _ hP hf _ h => vecForm_shows hP hf h
theorem RowPattern.varl (f : VecForm) : RowPattern.Statement (.varl f) := fun _ hP hf _ h => vecForm_shows hP hf h
theorem RowPattern.vfrc (f : VecForm) : RowPattern.Statement (.vfrc f) := fun _ hP hf _ h => vecForm_shows hP hf h
theorem RowPattern.vflr (f : VecForm) : RowPattern.Statement (.vflr f) := fun _ hP hf _ h => vecForm_shows hP hf h
theorem RowPattern.vseq (f : VecForm) : RowPattern.Statement (.vseq f) := fun _ hP hf _ h => vecForm_shows hP hf h
theorem RowPattern.vsgt (f : VecForm) : RowPattern.Statement (.vsgt f) := fun _ hP hf _ h => vecForm_shows hP hf h
theorem RowPattern.vsle (f : VecForm) : RowPattern.Statement (.vsle f) := fun _ hP hf _ h => vecForm_shows hP hf h
theorem RowPattern.vsne (f : VecForm) : RowPattern.Statement (.vsne f) := fun _ hP hf _ h => vecForm_shows hP hf h
theorem RowPattern.scos (f : ScaForm) : RowPattern.Statement (.scos f) := fun _ hP hf _ h => scaForm_shows hP hf h
theorem RowPattern.smov (f : ScaForm) : RowPattern.Statement (.smov f) := fun _ hP hf _ h => scaForm_shows hP hf h
theorem RowPattern.srcp (f : ScaForm) : RowPattern.Statement (.srcp f) := fun _ hP hf _ h => scaForm_shows hP hf h
theorem RowPattern.srsq (f : ScaForm) : RowPattern.Statement (.srsq f) := fun _ hP hf _ h => scaForm_shows hP hf h
theorem RowPattern.slg2 (f : ScaForm) : RowPattern.Statement (.slg2 f) := fun _ hP hf _ h => scaForm_shows hP hf h
theorem RowPattern.sex2 (f : ScaForm) : RowPattern.Statement (.sex2 f) := fun _ hP hf _ h => scaForm_shows hP hf h
theorem RowPattern.ssin (f : ScaForm) : RowPattern.Statement (.ssin f) := fun _ hP hf _ h => scaForm_shows hP hf h

end Sys2Proof.Laws
end

