-- ==== Sys2Proof/Laws/Rows.lean ====
section
/-! SUPPORT. The rows of the table: every instruction is one, the rows agree with the tables, and ENC runs them all alike. -/

namespace Sys2Proof.Machine

/-- Every instruction is a vector row's or a scalar row's. -/
theorem instr_row_cases (i : Instr) : (∃ m f, i = Instr.ofVec m f) ∨ ∃ m f, i = Instr.ofSca m f := by
  cases i
  · exact .inl ⟨.mov, _, rfl⟩
  · exact .inl ⟨.mul, _, rfl⟩
  · exact .inl ⟨.add, _, rfl⟩
  · exact .inl ⟨.mad, _, rfl⟩
  · exact .inl ⟨.dp3, _, rfl⟩
  · exact .inl ⟨.dp4, _, rfl⟩
  · exact .inl ⟨.min, _, rfl⟩
  · exact .inl ⟨.max, _, rfl⟩
  · exact .inl ⟨.slt, _, rfl⟩
  · exact .inl ⟨.sge, _, rfl⟩
  · exact .inl ⟨.arl, _, rfl⟩
  · exact .inl ⟨.frc, _, rfl⟩
  · exact .inl ⟨.flr, _, rfl⟩
  · exact .inl ⟨.seq, _, rfl⟩
  · exact .inl ⟨.sgt, _, rfl⟩
  · exact .inl ⟨.sle, _, rfl⟩
  · exact .inl ⟨.sne, _, rfl⟩
  · exact .inr ⟨.cos, _, rfl⟩
  · exact .inr ⟨.mov, _, rfl⟩
  · exact .inr ⟨.rcp, _, rfl⟩
  · exact .inr ⟨.rsq, _, rfl⟩
  · exact .inr ⟨.lg2, _, rfl⟩
  · exact .inr ⟨.ex2, _, rfl⟩
  · exact .inr ⟨.sin, _, rfl⟩

/-- A vector row agrees with the tables. -/
theorem vectorRows_agree {r : VecRow} (hr : r ∈ vectorRows) :
    r.make = Instr.ofVec r.mnemonic ∧ r.number = params.vnum r.mnemonic ∧ r.name = vText r.mnemonic ∧
      r.arity = arity r.mnemonic := by
  simp only [vectorRows, List.mem_cons, List.not_mem_nil, or_false] at hr
  rcases hr with h|h|h|h|h|h|h|h|h|h|h|h|h|h|h|h|h <;> subst h <;> exact ⟨rfl, rfl, rfl, rfl⟩

/-- A scalar row agrees with the tables. -/
theorem scalarRows_agree {r : ScaRow} (hr : r ∈ scalarRows) :
    r.make = Instr.ofSca r.mnemonic ∧ r.number = params.snum r.mnemonic ∧ r.name = sText r.mnemonic := by
  simp only [scalarRows, List.mem_cons, List.not_mem_nil, or_false] at hr
  rcases hr with h|h|h|h|h|h|h <;> subst h <;> exact ⟨rfl, rfl, rfl⟩

/-- ENC of any descriptor is the shared encode side, whichever instruction the descriptor holds. -/
theorem runEnc_eq (P : Params) (s : State) : runEnc P (execIn P) s = encodeInto P s s.d := by
  unfold runEnc descInstr
  cases h : vecRow P s.d.vdst.mask s.d.vop with
  | some m =>
    have hv : present s.d.vdst.mask = true := by unfold vecRow at h; split at h <;> simp_all
    have hl : vLookup P s.d.vop = some m := by simpa [vecRow, hv] using h
    simp only [execIn_ofVec, execVector, vLookup_some hl]
    rfl
  | none =>
    cases h' : scaRow P s.d.sdst.mask s.d.sop with
    | some m =>
      have hv : present s.d.sdst.mask = true := by unfold scaRow at h'; split at h' <;> simp_all
      have hl : sLookup P s.d.sop = some m := by simpa [scaRow, hv] using h'
      simp only [execIn_ofSca, execScalar, sLookup_some hl]
      rfl
    | none => rfl

/-- DEC of any word is the shared decode side, whichever instruction the word holds. -/
theorem runDec_eq (P : Params) (s : State) : runDec P (execIn P) s = showRecord P s (decodeFields P s.w) := by
  unfold runDec decodeWord decodeFieldsInstr decodeFields recOfFields
  generalize readFields P s.w = F
  cases h : vecRow P F.vec.mask F.vec.op with
  | some m =>
    have hv : present F.vec.mask = true := by unfold vecRow at h; split at h <;> simp_all
    have hl : vLookup P F.vec.op = some m := by simpa [vecRow, hv] using h
    have hf : F.vecWord.toFields (P.vnum m) = F := by rw [vLookup_some hl]; rfl
    have hr : vecRec P F = some (vecRecNamed F (.known m) (arity m)) := by
      unfold vecRec vName vArity; rw [hl, if_pos hv]
    have hm : F.vecWord.mask = F.vec.mask := rfl
    simp only [execIn_ofVec, execVector, hf, hr, hm, if_pos hv]
  | none =>
    cases h' : scaRow P F.sc.mask F.sc.op with
    | some m =>
      have hv : present F.sc.mask = true := by unfold scaRow at h'; split at h' <;> simp_all
      have hl : sLookup P F.sc.op = some m := by simpa [scaRow, hv] using h'
      have hf : F.scaWord.toFields (P.snum m) = F := by rw [sLookup_some hl]; rfl
      have hr : scaRec P F = some (scaRecNamed F (.known m)) := by
        unfold scaRec sName; rw [hl, if_pos hv]
      have hm : F.scaWord.mask = F.sc.mask := rfl
      simp only [execIn_ofSca, execScalar, hf, hr, hm, if_pos hv]
    | none => rfl

end Sys2Proof.Machine
end

