-- ==== Sys2Proof/Tests/Slice0.lean ====
section
/-! SUPPORT. Tests. Expected results come from spec/: the worked examples of the rules and 95_test_vectors.md. The fields of the
tested words were split by hand along the table of 30_encoding.md R63. After them, for each statement with hypotheses, a
theorem `witness_<statement>` that meets them. -/

namespace Sys2Proof.Tests

open Sys2Proof.Machine

/-! ### Helpers -/

/-- The next state of an outcome, if it is one. -/
def nextOf (o : Host.Outcome State Fault Refusal) : Option State :=
  match o with
  | .next t => some t
  | _ => none

theorem next_of_map {α : Type} {o : Host.Outcome State Fault Refusal} {f : State → α} {x : α}
    (h : (nextOf o).map f = some x) : ∃ t, o = .next t ∧ f t = x := by
  cases o with
  | next t => exact ⟨t, rfl, Option.some.inj h⟩
  | fault _ => cases h
  | refused _ => cases h

/-- What a command leaves in `W`, `R` and `ST`, from a state. -/
def after (c : Command) (s : State) : Option (Nat × Nat × Status) :=
  (nextOf (runCommand c s)).map fun t => (t.w.toNat, t.r.toNat, t.st)

/-- ENC of a descriptor completes with this word. -/
def encodesTo (D : Desc) (w : Nat) : Bool :=
  decide (after .enc { State.reset with d := D } = some (w, 0, .ok))

/-- The step after `withFetchWord` leaves this text. -/
def shows (w : Nat) (t : String) : Bool :=
  decide ((nextOf (step (State.reset.withFetchWord 128 w))).map State.txt = some (.one (asc t)))

/-- The state with this word in `W`. -/
def holding (w : Nat) : State := { State.reset with w := BitVec.ofNat 128 w }

/-- A buffer of exactly these bytes. -/
def bufferOf (bs : List Byte) : Buffer := { len := bs.length, byte := fun a => bs.getD a 0 }

/-- The bytes of little-endian words. -/
def le (ws : List Nat) : List Byte := ws.flatMap fun n => bytesOfWord (BitVec.ofNat 32 n)

/-- The state with these bytes in `BUF`. -/
def withBuf (bs : List Byte) : State :=
  { State.reset with buf := { len := bs.length, cells := (List.range bs.length).zip bs } }

/-- The state with these bytes in `STRM`. -/
def withStrm (bs : List Byte) : State :=
  { State.reset with strm := { len := bs.length, cells := (List.range bs.length).zip bs } }

/-- The status of parsing these bytes; `OK` when a result is returned. -/
def parseStatus (bs : List Byte) : Option Status :=
  match parse params (bufferOf bs) with
  | .ok _ => some .ok
  | .error (.raise e) => some e
  | .error .outside => none

/-- A header of the given `type`, `size`, `num_symbols`, and the two regions' sizes and offsets. -/
def header (type size n barSize barOff binSize binOff : Nat) : List Byte :=
  le [type, 0, size, n, barSize, barOff, binSize, binOff, 0, 0, 0, 0]

/-- A record of the given five fields. -/
def record (dtype kind location name values : Nat) : List Byte :=
  le [dtype, kind, location, name, values, 0, 0, 0, 0, 0, 0, 0]

/-- A container of one constant: a one-letter name at 96 and values at 98, which end at the container's end. -/
def oneConstant : List Byte :=
  header 0x1b5d 114 1 0 0 0 0 ++ record 0x18 0x1007 5 96 98 ++ [0x6b, 0] ++ le [0x3f800000, 0, 0x3f000000, 0x40000000]

/-- A container of one constant without values. -/
def noValues : List Byte := header 0x1b5d 96 1 0 0 0 0 ++ record 0x15 0x1007 6 0 0

/-- The smallest container (41_container.md R121, its example). -/
def smallest : List Byte := header 0x1b5e 48 0 0 0 0 0

/-- The stream of 40_bitword.md R111: `dp4 r0.xyzw, v3.xyzw, c17.xyzw` with `last`. -/
def dp4Bytes : List Byte :=
  [0x00, 0x80, 0x07, 0x80, 0x00, 0x6d, 0x00, 0x03, 0xe0, 0x10, 0x31, 0x36, 0, 0, 0, 0]

/-- The temp source `r<n>.xyzw`. -/
def tempSrc (n : BitVec 8) : Src := { valid := true, idx := n, type := .temp, swz := 0x1b, neg := false, abs := false }

/-- The constant source `c<n>.xyzw`. -/
def constSrc (n : BitVec 8) : Src := { tempSrc n with type := .constant }

/-- The attribute source `v<n>.xyzw`. -/
def attrSrc (n : BitVec 8) : Src := { tempSrc n with type := .attr }

/-- The destination `r<n>` or `o<n>` with a mask. -/
def dst (t : RegType) (n : BitVec 8) (m : BitVec 4) : Dst := { idx := n, type := t, mask := m, sat := false }

/-- `mad r5.xyzw, r63, c255, v15` beside nothing: a temp, a constant and an attribute, each at its highest index. -/
def madD : Desc :=
  { absentDesc with vop := 4, vdst := dst .temp 62 15, src0 := tempSrc 63, src1 := constSrc 255, src2 := attrSrc 15 }

/-- `mov o31.xyzw, r0` beside `mov o31.w, r1`: both write the shared target. -/
def bothVarying : Desc :=
  { absentDesc with vop := 1, vdst := dst .varying 31 15, src0 := tempSrc 0, sop := 1, sdst := dst .varying 31 1
                    src2 := tempSrc 1 }

/-- `rcp r0.x, c9`. -/
def rcpD : Desc := { absentDesc with sop := 2, sdst := dst .temp 0 8, src2 := constSrc 9 }

/-- `mov r63.xyzw, r0` breaks the contract (42_encoder.md R154 (b)). -/
def brokenD : Desc := { absentDesc with vop := 1, vdst := dst .temp 63 15, src0 := tempSrc 0 }

/-- `mul r1.xyzw, c1, c2` (42_encoder.md R155). -/
def fetchD : Desc := { absentDesc with vop := 2, vdst := dst .temp 1 15, src0 := constSrc 1, src1 := constSrc 2 }

/-- `add r1.xyzw, v1, v2` (42_encoder.md R156). -/
def fetchAttrD : Desc := { absentDesc with vop := 3, vdst := dst .temp 1 15, src0 := attrSrc 1, src1 := attrSrc 2 }

/-- `mov o1.xyzw, r0` beside `mov o2.x, r0` (42_encoder.md R157). -/
def modifierD : Desc :=
  { absentDesc with vop := 1, vdst := dst .varying 1 15, src0 := tempSrc 0, sop := 1, sdst := dst .varying 2 8
                    src2 := tempSrc 0 }

/-! ### Well-formed instructions -/

/-- The fields of a word with nothing set but the vector mask. -/
def vecWord (m : BitVec 4) : VecWord :=
  { mask := m, dst := 0, sc := { op := 0, mask := 0, dst := 0 }, s0 := emptySlot, s1 := emptySlot, s2 := emptySlot
    sh := { last := false, tgt := 0, afetch := 0, cfetch := 0, pswz := 0, pneg := false, pen := false, sat := false
            vflag := false } }

/-- The fields of a word with a scalar mask beside a vector half. -/
def scaWord (m : BitVec 4) (v : VHalf) : ScaWord :=
  { mask := m, dst := 0, vec := v, s0 := emptySlot, s1 := emptySlot, s2 := emptySlot, sh := (vecWord 0).sh }

/-- A descriptor with a vector destination of this mask. -/
def vecDesc (m : BitVec 4) : VecDesc := { madD.vecDesc with dst := dst .temp 0 m }

/-- A scalar descriptor beside a vector half. -/
def scaDesc (m : BitVec 4) (vop : BitVec 5) (vm : BitVec 4) : ScaDesc :=
  { rcpD.scaDesc with dst := dst .temp 0 m, vop := vop, vdst := dst .temp 0 vm }

theorem test_wf_vector_word : (Instr.vmov (.word (vecWord 1))).wellFormed = true := by decide
theorem test_wf_refuses_absent_vector_word : (Instr.vmov (.word (vecWord 0))).wellFormed = false := by decide
theorem test_wf_vector_desc : (Instr.vmad (.desc (vecDesc 15))).wellFormed = true := by decide
theorem test_wf_refuses_absent_vector_desc : (Instr.vmad (.desc (vecDesc 0))).wellFormed = false := by decide
theorem test_wf_scalar_word : (Instr.scos (.word (scaWord 8 { op := 1, mask := 0, dst := 0 }))).wellFormed = true := by
  decide
theorem test_wf_refuses_absent_scalar_word :
    (Instr.scos (.word (scaWord 0 { op := 1, mask := 0, dst := 0 }))).wellFormed = false := by decide
theorem test_wf_scalar_beside_unknown :
    (Instr.ssin (.word (scaWord 8 { op := 17, mask := 3, dst := 0 }))).wellFormed = true := by decide
theorem test_wf_refuses_scalar_word_beside_vector :
    (Instr.ssin (.word (scaWord 8 { op := 4, mask := 3, dst := 0 }))).wellFormed = false := by decide
theorem test_wf_scalar_desc : (Instr.srcp (.desc (scaDesc 8 1 0))).wellFormed = true := by decide
theorem test_wf_refuses_absent_scalar_desc : (Instr.srcp (.desc (scaDesc 0 1 0))).wellFormed = false := by decide
theorem test_wf_refuses_scalar_desc_beside_vector : (Instr.srcp (.desc (scaDesc 8 1 2))).wellFormed = false := by decide

/-! ### Words that hold no row -/

/-- 30_encoding.md R79: the bare match value of a row has an empty write mask, so it holds no op. -/
theorem test_decode_refuses_bare_match : decodeTableWord 128 0x2000000000 = none := by decide

/-- 44_vector_ops.md R228: opcode 31 is in no row. -/
theorem test_decode_refuses_unknown_vector :
    decodeWord params (BitVec.ofNat 128 0x00008208d903fcfe000003e00001f000) = .error (.unknownVector 31) := by decide

/-- 45_scalar_ops.md R238: number 3 is in no row. -/
theorem test_decode_refuses_unknown_scalar :
    decodeWord params (BitVec.ofNat 128 0x4208000000000000000600000000) = .error (.unknownScalar 3) := by decide

/-- Fifteen bytes are no word. -/
theorem test_decode_refuses_short : decodeBytes params (dp4Bytes.take 15) = .error .tooShort := by decide

/-! ### The bit container -/

/-- 40_bitword.md R104, its examples. -/
theorem test_extract :
    [(4, 11), (28, 35), (24, 103)].map (fun r => after (.bwExtract r.1 r.2) (holding 0x0123456789abcdeffedcba9876543210)) =
      [0x12, 0x78, 0x6789abcdeffedcba9876].map fun r => some (0x0123456789abcdeffedcba9876543210, r, .ok) := by decide

/-- 40_bitword.md R105 and R109, their examples. -/
theorem test_insert :
    [(28, 35, 0xa5), (31, 32, 3), (30, 97, 0x88000000000000001), (4, 7, 16)].map
        (fun r => after (.bwInsert r.1 r.2.1 r.2.2) State.reset) =
      [some (0x0000000a500000000000000000000000, 0, .ok), some (0x00000001800000000000000000000000, 0, .ok),
       some (0x00000002200000000000000040000000, 0, .ok), some (0, 0, .contractViolation)] := by decide

/-- 40_bitword.md R106 and R107, their examples. -/
theorem test_single_bits :
    [0, 1, 127].map (fun i => after (.bwGetbit i) (holding 0x80000000000000000000000000000001)) =
      [1, 0, 1].map (fun r => some (0x80000000000000000000000000000001, r, .ok)) ∧
    [0, 96, 127].map (fun i => after (.bwSetbit i 1) State.reset) =
      [0x80000000000000000000000000000000, 0x80000000, 1].map fun w => some (w, 0, .ok) := by decide

/-- 40_bitword.md R102 and R111, their examples. -/
theorem test_loads :
    after (.bwLoadw [0x80078000, 0x03006d00, 0x363110e0, 0]) State.reset =
      some (0x8007800003006d00363110e000000000, 0, .ok) ∧
    after (.bwLoadb 0 0) (withStrm dp4Bytes) = some (0x8007800003006d00363110e000000000, 0, .ok) ∧
    after (.bwLoadb 0 1) (withStrm dp4Bytes) = some (0, 0, .malformedContainer) := by decide

/-- 40_bitword.md R103, its example. -/
theorem test_storew : (nextOf (runCommand .bwStorew (holding 0x80000000000000000000000000000000))).map State.out =
    some (some { words := [0x80000000, 0, 0, 0], bytes := [0, 0, 0, 0x80, 0, 0, 0, 0, 0, 0, 0, 0, 0, 0, 0, 0] }) := by
  decide

/-! ### The codec -/

/-- 42_encoder.md R154 to R158 and R164, their examples. -/
theorem test_enc_refusals :
    [brokenD, { brokenD with src0 := { tempSrc 0 with type := .varying } }, fetchD, fetchAttrD, modifierD,
      { bothVarying with vdst := { bothVarying.vdst with sat := true } }].map
        (fun D => after .enc { holding 7 with d := D }) =
      [.contractViolation, .contractViolation, .conflictingFetch, .conflictingFetch, .conflictingModifier,
        .conflictingModifier].map fun e => some (7, 0, e) := by decide

/-- 45_scalar_ops.md R239 and 43_decoder.md R196: the word with only bit 0, a reserved bit, and the predicate gate. -/
theorem test_noncanonical :
    shows 0x80000000000000000000000000000000 "last" = true ∧ shows 0x100000000 "" = true ∧
    shows 0x0007800003006d00360000e000040000 "(p0.xxxx) dp4 r0.xyzw, v0.xyzw, c0.xyzw" = true := by decide

/-- 44_vector_ops.md R228 and 45_scalar_ops.md R238, an example of each. -/
theorem test_unknown_opcodes :
    shows 0x00008208d903fcfe000003e00001f000 "unknown(0x1f) r62.w, r63.xxxx, r0.wwww, r1.xyzw" = true ∧
    shows 0x00004208000000000000000600000000 "unknown(0x3) r0.x, r1.xxxx" = true := by decide

/-- 43_decoder.md R195, on the stream of R111 at an odd place. -/
theorem test_disasm :
    (nextOf (runCommand (.disasm 1 16) (withStrm (0 :: dp4Bytes)))).map State.txt =
      some (.many [asc "dp4 r0.xyzw, v3.xyzw, c17.xyzw\nlast"]) ∧
    (nextOf (runCommand (.disasm 1 17) (withStrm (0 :: dp4Bytes)))).map State.st = some .malformedContainer := by decide

/-! ### Other instances of the parameters (00_scope.md R6) -/

/-- An instance with the vector numbers of `mov` and `mul` exchanged, another text for `last`, one symbol at most, and a
given `VSH_FIELDS`. -/
def otherParams : Params :=
  { params with
    vnum := fun m => match m with | .mov => 2 | .mul => 1 | m => params.vnum m
    text := { params.text with lastLine := asc "end" }
    maxSymbols := 0, vshFields := some { offsetAt := 4, lengthAt := 0 } }

/-- The word of R211 with opcode 1 is a `mul` there, so it has a second, empty source. -/
theorem test_decode_in_other_instance :
    (nextOf (stepIn otherParams (State.reset.withFetchWord 128 0x8007800000000080360000200001f802))).map State.txt =
      some (.one (asc "mul o0.xyzw, r0.xyzw, ?0.xxxx\nend")) := by decide

/-- ENC writes the instance's own number for an opcode; here the number 1 takes two sources. -/
theorem test_encode_in_other_instance :
    (nextOf (execIn otherParams (.vmul (.desc
      { dst := dst .varying 0 15, sop := 0, sdst := absentDst, src0 := tempSrc 0, src1 := absentSrc, src2 := absentSrc
        last := true })) State.reset)).map (fun t => t.w.toNat) = some 0x8007800000000080360000200001f802 := by decide

/-- A container of one symbol exceeds that instance's capacity. -/
theorem test_parse_in_other_instance :
    (nextOf (runCommandIn otherParams .parse (withBuf noValues))).map State.st = some .outOfMemory := by decide

/-- Under that `VSH_FIELDS` the payload's second word is the stream's offset and its first the length; with nothing given
there is no place, and a field outside the payload is none. -/
theorem test_stream_place :
    streamPlace otherParams (bufferOf (le [0, 32, 48])) { zeroHeader with binaryOffset := 4, binarySize := 8 } =
      some (48, 32) ∧
    streamPlace otherParams (bufferOf (le [0, 32, 48])) { zeroHeader with binaryOffset := 4, binarySize := 7 } = none ∧
    streamPlace params (bufferOf (le [0, 32, 48])) { zeroHeader with binaryOffset := 4, binarySize := 8 } = none := by
  decide

/-! ### The parser -/

/-- 41_container.md R121 to R125, their examples. -/
theorem test_header_checks :
    [smallest, smallest.take 47, header 0x1b5d 47 0 0 0 0 0, header 0x1b5d 49 0 0 0 0 0, header 0x1b5d 48 1 0 0 0 0,
      header 0x1b5d 48 0 0 0 16 40, header 0x1b5d 48 0 0 48 0 0, header 0x1b5d 48 0 0 0 0xfffffff0 0x20,
      header 0x1b5d 48 0xffffffff 0 0 0 0].map parseStatus =
      some .ok :: List.replicate 8 (some .malformedContainer) := by decide

/-- 41_container.md R125 and R134: too many symbols, in a container that is long enough. -/
theorem test_too_many_symbols :
    checkHeader params { len := 12384, byte := fun _ => 0 }
      { zeroHeader with size := 12384, numSymbols := 257 } = .error (.raise .outOfMemory) := by decide

/-- 41_container.md R127 to R132: a constant with values up to the container's last byte. -/
theorem test_parse_constant :
    (parse params (bufferOf oneConstant)).toOption.map (fun p => (p.hdr.ptype, p.syms, p.diag)) =
      some (.vertex, [{ location := 5, kind := .constant, type := .vec4, name := some [0x6b]
                        vector := { x0 := 0x3f800000, x1 := 0, x2 := 0x3f000000, x3 := 0x40000000 }
                        hasValues := true }], []) := by decide

/-- 41_container.md R131: the same tag without values gives a zero vector and a diagnostic. -/
theorem test_parse_no_values :
    (nextOf (runCommand .parse (withBuf noValues))).map (fun t => (t.st, t.nsym, t.diag, t.sym.map SymbolRec.hasValues)) =
      some (.ok, 1, [0], [false]) := by decide

/-- 41_container.md R127 and R128: a name that is not terminated, and values that end one byte outside. -/
theorem test_record_checks :
    [header 0x1b5d 97 1 0 0 0 0 ++ record 0 0 0 96 0 ++ [1], header 0x1b5d 111 1 0 0 0 0 ++ record 0 0x1006 0 0 96 ++
      List.replicate 15 0].map parseStatus = [some .malformedContainer, some .malformedContainer] := by decide

/-! ### The rows -/

/-- 44_vector_ops.md R211, the word of its example. -/
theorem test_decode_vmov : decodeTableWord 128 0x0007800000000080360000200001f802 =
    some (.vmov (.word
      { mask := 15, dst := 63, sc := { op := 0, mask := 0, dst := 0 }
        s0 := { type := 1, idx := 0, swz := 27, neg := false, abs := false }
        s1 := { type := 0, idx := 0, swz := 0, neg := false, abs := false }
        s2 := { type := 0, idx := 0, swz := 0, neg := false, abs := false }
        sh := { last := false, tgt := 0, afetch := 0, cfetch := 0, pswz := 0, pneg := false, pen := false, sat := false, vflag := true } })) := by decide

/-- 44_vector_ops.md R211, its example: `V: mov o0.xyzw, r0.xyzw`. -/
theorem test_round_vmov :
    encodesTo
    { vop := 1, vdst := { idx := 0, type := .varying, mask := 15, sat := false }
      sop := 0, sdst := absentDst
      src0 := { valid := true, idx := 0, type := .temp, swz := 27, neg := false, abs := false }
      src1 := absentSrc
      src2 := absentSrc
      last := false }
      0x0007800000000080360000200001f802 = true ∧
    shows 0x0007800000000080360000200001f802 "mov o0.xyzw, r0.xyzw" = true := by decide

/-- 44_vector_ops.md R212, the word of its example. -/
theorem test_decode_vmul : decodeTableWord 128 0x00078000030155803600204000000800 =
    some (.vmul (.word
      { mask := 15, dst := 1, sc := { op := 0, mask := 0, dst := 0 }
        s0 := { type := 3, idx := 0, swz := 27, neg := false, abs := false }
        s1 := { type := 3, idx := 0, swz := 85, neg := false, abs := false }
        s2 := { type := 0, idx := 0, swz := 0, neg := false, abs := false }
        sh := { last := false, tgt := 0, afetch := 0, cfetch := 2, pswz := 0, pneg := false, pen := false, sat := false, vflag := false } })) := by decide

/-- 44_vector_ops.md R212, its example: `V: mul r1.xyzw, c2.xyzw, c2.yyyy`. -/
theorem test_round_vmul :
    encodesTo
    { vop := 2, vdst := { idx := 1, type := .temp, mask := 15, sat := false }
      sop := 0, sdst := absentDst
      src0 := { valid := true, idx := 2, type := .constant, swz := 27, neg := false, abs := false }
      src1 := { valid := true, idx := 2, type := .constant, swz := 85, neg := false, abs := false }
      src2 := absentSrc
      last := false }
      0x00078000030155803600204000000800 = true ∧
    shows 0x00078000030155803600204000000800 "mul r1.xyzw, c2.xyzw, c2.yyyy" = true := by decide

/-- 44_vector_ops.md R213, the word of its example. -/
theorem test_decode_vadd : decodeTableWord 128 0x000600000106ee802200006000001000 =
    some (.vadd (.word
      { mask := 12, dst := 2, sc := { op := 0, mask := 0, dst := 0 }
        s0 := { type := 1, idx := 0, swz := 17, neg := false, abs := false }
        s1 := { type := 1, idx := 1, swz := 187, neg := true, abs := false }
        s2 := { type := 0, idx := 0, swz := 0, neg := false, abs := false }
        sh := { last := false, tgt := 0, afetch := 0, cfetch := 0, pswz := 0, pneg := false, pen := false, sat := false, vflag := false } })) := by decide

/-- 44_vector_ops.md R213, its example: `V: add r2.xy, r0.xyxy, -r1.zwzw`. -/
theorem test_round_vadd :
    encodesTo
    { vop := 3, vdst := { idx := 2, type := .temp, mask := 12, sat := false }
      sop := 0, sdst := absentDst
      src0 := { valid := true, idx := 0, type := .temp, swz := 17, neg := false, abs := false }
      src1 := { valid := true, idx := 1, type := .temp, swz := 187, neg := true, abs := false }
      src2 := absentSrc
      last := false }
      0x000600000106ee802200006000001000 = true ∧
    shows 0x000600000106ee802200006000001000 "add r2.xy, r0.xyxy, -r1.zwzw" = true := by decide

/-- 44_vector_ops.md R214, the word of its example. -/
theorem test_decode_vmad : decodeTableWord 128 0x00050405570390820bfc808000002b20 =
    some (.vmad (.word
      { mask := 10, dst := 5, sc := { op := 0, mask := 0, dst := 0 }
        s0 := { type := 1, idx := 1, swz := 5, neg := true, abs := false }
        s1 := { type := 3, idx := 0, swz := 228, neg := false, abs := true }
        s2 := { type := 2, idx := 0, swz := 170, neg := true, abs := true }
        sh := { last := false, tgt := 0, afetch := 15, cfetch := 200, pswz := 0, pneg := false, pen := false, sat := true, vflag := false } })) := by decide

/-- 44_vector_ops.md R214, its example: `V: mad r5_sat.xz, -r1.xxyy, abs(c200.wzyx), -abs(v15.zzzz)`. -/
theorem test_round_vmad :
    encodesTo
    { vop := 4, vdst := { idx := 5, type := .temp, mask := 10, sat := true }
      sop := 0, sdst := absentDst
      src0 := { valid := true, idx := 1, type := .temp, swz := 5, neg := true, abs := false }
      src1 := { valid := true, idx := 200, type := .constant, swz := 228, neg := false, abs := true }
      src2 := { valid := true, idx := 15, type := .attr, swz := 170, neg := true, abs := true }
      last := false }
      0x00050405570390820bfc808000002b20 = true ∧
    shows 0x00050405570390820bfc808000002b20 "mad r5_sat.xz, -r1.xxyy, abs(c200.wzyx), -abs(v15.zzzz)" = true := by decide

/-- 44_vector_ops.md R215, the word of its example. -/
theorem test_decode_vdp3 : decodeTableWord 128 0x0004000002006900342000a000002000 =
    some (.vdp3 (.word
      { mask := 8, dst := 4, sc := { op := 0, mask := 0, dst := 0 }
        s0 := { type := 2, idx := 0, swz := 26, neg := false, abs := false }
        s1 := { type := 2, idx := 0, swz := 26, neg := false, abs := false }
        s2 := { type := 0, idx := 0, swz := 0, neg := false, abs := false }
        sh := { last := false, tgt := 0, afetch := 2, cfetch := 0, pswz := 0, pneg := false, pen := false, sat := false, vflag := false } })) := by decide

/-- 44_vector_ops.md R215, its example: `V: dp3 r4.x, v2.xyzz, v2.xyzz`. -/
theorem test_round_vdp3 :
    encodesTo
    { vop := 5, vdst := { idx := 4, type := .temp, mask := 8, sat := false }
      sop := 0, sdst := absentDst
      src0 := { valid := true, idx := 2, type := .attr, swz := 26, neg := false, abs := false }
      src1 := { valid := true, idx := 2, type := .attr, swz := 26, neg := false, abs := false }
      src2 := absentSrc
      last := false }
      0x0004000002006900342000a000002000 = true ∧
    shows 0x0004000002006900342000a000002000 "dp3 r4.x, v2.xyzz, v2.xyzz" = true := by decide

/-- 44_vector_ops.md R216, the word of its example. -/
theorem test_decode_vdp4 : decodeTableWord 128 0x0007800003006d00360000e000000000 =
    some (.vdp4 (.word
      { mask := 15, dst := 0, sc := { op := 0, mask := 0, dst := 0 }
        s0 := { type := 2, idx := 0, swz := 27, neg := false, abs := false }
        s1 := { type := 3, idx := 0, swz := 27, neg := false, abs := false }
        s2 := { type := 0, idx := 0, swz := 0, neg := false, abs := false }
        sh := { last := false, tgt := 0, afetch := 0, cfetch := 0, pswz := 0, pneg := false, pen := false, sat := false, vflag := false } })) := by decide

/-- 44_vector_ops.md R216, its example: `V: dp4 r0.xyzw, v0.xyzw, c0.xyzw`. -/
theorem test_round_vdp4 :
    encodesTo
    { vop := 7, vdst := { idx := 0, type := .temp, mask := 15, sat := false }
      sop := 0, sdst := absentDst
      src0 := { valid := true, idx := 0, type := .attr, swz := 27, neg := false, abs := false }
      src1 := { valid := true, idx := 0, type := .constant, swz := 27, neg := false, abs := false }
      src2 := absentSrc
      last := false }
      0x0007800003006d00360000e000000000 = true ∧
    shows 0x0007800003006d00360000e000000000 "dp4 r0.xyzw, v0.xyzw, c0.xyzw" = true := by decide

/-- 44_vector_ops.md R217, the word of its example. -/
theorem test_decode_vmin : decodeTableWord 128 0x000780000300008e3600112000003800 =
    some (.vmin (.word
      { mask := 15, dst := 7, sc := { op := 0, mask := 0, dst := 0 }
        s0 := { type := 1, idx := 7, swz := 27, neg := false, abs := false }
        s1 := { type := 3, idx := 0, swz := 0, neg := false, abs := false }
        s2 := { type := 0, idx := 0, swz := 0, neg := false, abs := false }
        sh := { last := false, tgt := 0, afetch := 0, cfetch := 1, pswz := 0, pneg := false, pen := false, sat := false, vflag := false } })) := by decide

/-- 44_vector_ops.md R217, its example: `V: min r7.xyzw, r7.xyzw, c1.xxxx`. -/
theorem test_round_vmin :
    encodesTo
    { vop := 9, vdst := { idx := 7, type := .temp, mask := 15, sat := false }
      sop := 0, sdst := absentDst
      src0 := { valid := true, idx := 7, type := .temp, swz := 27, neg := false, abs := false }
      src1 := { valid := true, idx := 1, type := .constant, swz := 0, neg := false, abs := false }
      src2 := absentSrc
      last := false }
      0x000780000300008e3600112000003800 = true ∧
    shows 0x000780000300008e3600112000003800 "min r7.xyzw, r7.xyzw, c1.xxxx" = true := by decide

/-- 44_vector_ops.md R218, the word of its example. -/
theorem test_decode_vmax : decodeTableWord 128 0x000080000301548ffe00014000003c20 =
    some (.vmax (.word
      { mask := 1, dst := 7, sc := { op := 0, mask := 0, dst := 0 }
        s0 := { type := 1, idx := 7, swz := 255, neg := false, abs := true }
        s1 := { type := 3, idx := 0, swz := 85, neg := false, abs := false }
        s2 := { type := 0, idx := 0, swz := 0, neg := false, abs := false }
        sh := { last := false, tgt := 0, afetch := 0, cfetch := 0, pswz := 0, pneg := false, pen := false, sat := true, vflag := false } })) := by decide

/-- 44_vector_ops.md R218, its example: `V: max r7_sat.w, abs(r7.wwww), c0.yyyy`. -/
theorem test_round_vmax :
    encodesTo
    { vop := 10, vdst := { idx := 7, type := .temp, mask := 1, sat := true }
      sop := 0, sdst := absentDst
      src0 := { valid := true, idx := 7, type := .temp, swz := 255, neg := false, abs := true }
      src1 := { valid := true, idx := 0, type := .constant, swz := 85, neg := false, abs := false }
      src2 := absentSrc
      last := false }
      0x000080000301548ffe00014000003c20 = true ∧
    shows 0x000080000301548ffe00014000003c20 "max r7_sat.w, abs(r7.wwww), c0.yyyy" = true := by decide

/-- 44_vector_ops.md R219, the word of its example. -/
theorem test_decode_vslt : decodeTableWord 128 0x0007800003006c823600a16000001800 =
    some (.vslt (.word
      { mask := 15, dst := 3, sc := { op := 0, mask := 0, dst := 0 }
        s0 := { type := 1, idx := 1, swz := 27, neg := false, abs := false }
        s1 := { type := 3, idx := 0, swz := 27, neg := false, abs := false }
        s2 := { type := 0, idx := 0, swz := 0, neg := false, abs := false }
        sh := { last := false, tgt := 0, afetch := 0, cfetch := 10, pswz := 0, pneg := false, pen := false, sat := false, vflag := false } })) := by decide

/-- 44_vector_ops.md R219, its example: `V: slt r3.xyzw, r1.xyzw, c10.xyzw`. -/
theorem test_round_vslt :
    encodesTo
    { vop := 11, vdst := { idx := 3, type := .temp, mask := 15, sat := false }
      sop := 0, sdst := absentDst
      src0 := { valid := true, idx := 1, type := .temp, swz := 27, neg := false, abs := false }
      src1 := { valid := true, idx := 10, type := .constant, swz := 27, neg := false, abs := false }
      src2 := absentSrc
      last := false }
      0x0007800003006c823600a16000001800 = true ∧
    shows 0x0007800003006c823600a16000001800 "slt r3.xyzw, r1.xyzw, c10.xyzw" = true := by decide

/-- 44_vector_ops.md R220, the word of its example. -/
theorem test_decode_vsge : decodeTableWord 128 0x0a04000001f95500001001800001f802 =
    some (.vsge (.word
      { mask := 8, dst := 63, sc := { op := 0, mask := 0, dst := 0 }
        s0 := { type := 2, idx := 0, swz := 0, neg := false, abs := false }
        s1 := { type := 1, idx := 62, swz := 85, neg := false, abs := false }
        s2 := { type := 0, idx := 0, swz := 0, neg := false, abs := false }
        sh := { last := false, tgt := 5, afetch := 1, cfetch := 0, pswz := 0, pneg := false, pen := false, sat := false, vflag := true } })) := by decide

/-- 44_vector_ops.md R220, its example: `V: sge o5.x, v1.xxxx, r62.yyyy`. -/
theorem test_round_vsge :
    encodesTo
    { vop := 12, vdst := { idx := 5, type := .varying, mask := 8, sat := false }
      sop := 0, sdst := absentDst
      src0 := { valid := true, idx := 1, type := .attr, swz := 0, neg := false, abs := false }
      src1 := { valid := true, idx := 62, type := .temp, swz := 85, neg := false, abs := false }
      src2 := absentSrc
      last := false }
      0x0a04000001f95500001001800001f802 = true ∧
    shows 0x0a04000001f95500001001800001f802 "sge o5.x, v1.xxxx, r62.yyyy" = true := by decide

/-- 44_vector_ops.md R221, the word of its example. -/
theorem test_decode_varl : decodeTableWord 128 0x0004000000000180000031a000000000 =
    some (.varl (.word
      { mask := 8, dst := 0, sc := { op := 0, mask := 0, dst := 0 }
        s0 := { type := 3, idx := 0, swz := 0, neg := false, abs := false }
        s1 := { type := 0, idx := 0, swz := 0, neg := false, abs := false }
        s2 := { type := 0, idx := 0, swz := 0, neg := false, abs := false }
        sh := { last := false, tgt := 0, afetch := 0, cfetch := 3, pswz := 0, pneg := false, pen := false, sat := false, vflag := false } })) := by decide

/-- 44_vector_ops.md R221, its example: `V: arl r0.x, c3.xxxx`. -/
theorem test_round_varl :
    encodesTo
    { vop := 13, vdst := { idx := 0, type := .temp, mask := 8, sat := false }
      sop := 0, sdst := absentDst
      src0 := { valid := true, idx := 3, type := .constant, swz := 0, neg := false, abs := false }
      src1 := absentSrc
      src2 := absentSrc
      last := false }
      0x0004000000000180000031a000000000 = true ∧
    shows 0x0004000000000180000031a000000000 "arl r0.x, c3.xxxx" = true := by decide

/-- 44_vector_ops.md R222, the word of its example. -/
theorem test_decode_vfrc : decodeTableWord 128 0x0007000000000092350001c000004800 =
    some (.vfrc (.word
      { mask := 14, dst := 9, sc := { op := 0, mask := 0, dst := 0 }
        s0 := { type := 1, idx := 9, swz := 26, neg := true, abs := false }
        s1 := { type := 0, idx := 0, swz := 0, neg := false, abs := false }
        s2 := { type := 0, idx := 0, swz := 0, neg := false, abs := false }
        sh := { last := false, tgt := 0, afetch := 0, cfetch := 0, pswz := 0, pneg := false, pen := false, sat := false, vflag := false } })) := by decide

/-- 44_vector_ops.md R222, its example: `V: frc r9.xyz, -r9.xyzz`. -/
theorem test_round_vfrc :
    encodesTo
    { vop := 14, vdst := { idx := 9, type := .temp, mask := 14, sat := false }
      sop := 0, sdst := absentDst
      src0 := { valid := true, idx := 9, type := .temp, swz := 26, neg := true, abs := false }
      src1 := absentSrc
      src2 := absentSrc
      last := false }
      0x0007000000000092350001c000004800 = true ∧
    shows 0x0007000000000092350001c000004800 "frc r9.xyz, -r9.xyzz" = true := by decide

/-- 44_vector_ops.md R223, the word of its example. -/
theorem test_decode_vflr : decodeTableWord 128 0x8002800000000100364001e000005000 =
    some (.vflr (.word
      { mask := 5, dst := 10, sc := { op := 0, mask := 0, dst := 0 }
        s0 := { type := 2, idx := 0, swz := 27, neg := false, abs := false }
        s1 := { type := 0, idx := 0, swz := 0, neg := false, abs := false }
        s2 := { type := 0, idx := 0, swz := 0, neg := false, abs := false }
        sh := { last := true, tgt := 0, afetch := 4, cfetch := 0, pswz := 0, pneg := false, pen := false, sat := false, vflag := false } })) := by decide

/-- 44_vector_ops.md R223, its example: `V: flr r10.yw, v4.xyzw ; last`. -/
theorem test_round_vflr :
    encodesTo
    { vop := 15, vdst := { idx := 10, type := .temp, mask := 5, sat := false }
      sop := 0, sdst := absentDst
      src0 := { valid := true, idx := 4, type := .attr, swz := 27, neg := false, abs := false }
      src1 := absentSrc
      src2 := absentSrc
      last := true }
      0x8002800000000100364001e000005000 = true ∧
    shows 0x8002800000000100364001e000005000 "flr r10.yw, v4.xyzw\nlast" = true := by decide

/-- 44_vector_ops.md R224, the word of its example. -/
theorem test_decode_vseq : decodeTableWord 128 0x00078000010c6c843600020000000800 =
    some (.vseq (.word
      { mask := 15, dst := 1, sc := { op := 0, mask := 0, dst := 0 }
        s0 := { type := 1, idx := 2, swz := 27, neg := false, abs := false }
        s1 := { type := 1, idx := 3, swz := 27, neg := false, abs := false }
        s2 := { type := 0, idx := 0, swz := 0, neg := false, abs := false }
        sh := { last := false, tgt := 0, afetch := 0, cfetch := 0, pswz := 0, pneg := false, pen := false, sat := false, vflag := false } })) := by decide

/-- 44_vector_ops.md R224, its example: `V: seq r1.xyzw, r2.xyzw, r3.xyzw`. -/
theorem test_round_vseq :
    encodesTo
    { vop := 16, vdst := { idx := 1, type := .temp, mask := 15, sat := false }
      sop := 0, sdst := absentDst
      src0 := { valid := true, idx := 2, type := .temp, swz := 27, neg := false, abs := false }
      src1 := { valid := true, idx := 3, type := .temp, swz := 27, neg := false, abs := false }
      src2 := absentSrc
      last := false }
      0x00078000010c6c843600020000000800 = true ∧
    shows 0x00078000010c6c843600020000000800 "seq r1.xyzw, r2.xyzw, r3.xyzw" = true := by decide

/-- 44_vector_ops.md R225, the word of its example. -/
theorem test_decode_vsgt : decodeTableWord 128 0x000100000303fc85540ff24000000c00 =
    some (.vsgt (.word
      { mask := 2, dst := 1, sc := { op := 0, mask := 0, dst := 0 }
        s0 := { type := 1, idx := 2, swz := 170, neg := false, abs := true }
        s1 := { type := 3, idx := 0, swz := 255, neg := false, abs := false }
        s2 := { type := 0, idx := 0, swz := 0, neg := false, abs := false }
        sh := { last := false, tgt := 0, afetch := 0, cfetch := 255, pswz := 0, pneg := false, pen := false, sat := false, vflag := false } })) := by decide

/-- 44_vector_ops.md R225, its example: `V: sgt r1.z, abs(r2.zzzz), c255.wwww`. -/
theorem test_round_vsgt :
    encodesTo
    { vop := 18, vdst := { idx := 1, type := .temp, mask := 2, sat := false }
      sop := 0, sdst := absentDst
      src0 := { valid := true, idx := 2, type := .temp, swz := 170, neg := false, abs := true }
      src1 := { valid := true, idx := 255, type := .constant, swz := 255, neg := false, abs := false }
      src2 := absentSrc
      last := false }
      0x000100000303fc85540ff24000000c00 = true ∧
    shows 0x000100000303fc85540ff24000000c00 "sgt r1.z, abs(r2.zzzz), c255.wwww" = true := by decide

/-- 44_vector_ops.md R226, the word of its example. -/
theorem test_decode_vsle : decodeTableWord 128 0x3e07800002006c8036f002600001f802 =
    some (.vsle (.word
      { mask := 15, dst := 63, sc := { op := 0, mask := 0, dst := 0 }
        s0 := { type := 1, idx := 0, swz := 27, neg := false, abs := false }
        s1 := { type := 2, idx := 0, swz := 27, neg := false, abs := false }
        s2 := { type := 0, idx := 0, swz := 0, neg := false, abs := false }
        sh := { last := false, tgt := 31, afetch := 15, cfetch := 0, pswz := 0, pneg := false, pen := false, sat := false, vflag := true } })) := by decide

/-- 44_vector_ops.md R226, its example: `V: sle o31.xyzw, r0.xyzw, v15.xyzw`. -/
theorem test_round_vsle :
    encodesTo
    { vop := 19, vdst := { idx := 31, type := .varying, mask := 15, sat := false }
      sop := 0, sdst := absentDst
      src0 := { valid := true, idx := 0, type := .temp, swz := 27, neg := false, abs := false }
      src1 := { valid := true, idx := 15, type := .attr, swz := 27, neg := false, abs := false }
      src2 := absentSrc
      last := false }
      0x3e07800002006c8036f002600001f802 = true ∧
    shows 0x3e07800002006c8036f002600001f802 "sle o31.xyzw, r0.xyzw, v15.xyzw" = true := by decide

/-- 44_vector_ops.md R227, the word of its example. -/
theorem test_decode_vsne : decodeTableWord 128 0x0007800001fc6d80370802800001f000 =
    some (.vsne (.word
      { mask := 15, dst := 62, sc := { op := 0, mask := 0, dst := 0 }
        s0 := { type := 3, idx := 0, swz := 27, neg := true, abs := false }
        s1 := { type := 1, idx := 63, swz := 27, neg := false, abs := false }
        s2 := { type := 0, idx := 0, swz := 0, neg := false, abs := false }
        sh := { last := false, tgt := 0, afetch := 0, cfetch := 128, pswz := 0, pneg := false, pen := false, sat := false, vflag := false } })) := by decide

/-- 44_vector_ops.md R227, its example: `V: sne r62.xyzw, -c128.xyzw, r63.xyzw`. -/
theorem test_round_vsne :
    encodesTo
    { vop := 20, vdst := { idx := 62, type := .temp, mask := 15, sat := false }
      sop := 0, sdst := absentDst
      src0 := { valid := true, idx := 128, type := .constant, swz := 27, neg := true, abs := false }
      src1 := { valid := true, idx := 63, type := .temp, swz := 27, neg := false, abs := false }
      src2 := absentSrc
      last := false }
      0x0007800001fc6d80370802800001f000 = true ∧
    shows 0x0007800001fc6d80370802800001f000 "sne r62.xyzw, -c128.xyzw, r63.xyzw" = true := by decide

/-- 45_scalar_ops.md R231, the word of its example. -/
theorem test_decode_scos : decodeTableWord 128 0x00004208000000000000000000000000 =
    some (.scos (.word
      { mask := 8, dst := 0, vec := { op := 0, mask := 0, dst := 0 }
        s0 := { type := 0, idx := 0, swz := 0, neg := false, abs := false }
        s1 := { type := 0, idx := 0, swz := 0, neg := false, abs := false }
        s2 := { type := 1, idx := 1, swz := 0, neg := false, abs := false }
        sh := { last := false, tgt := 0, afetch := 0, cfetch := 0, pswz := 0, pneg := false, pen := false, sat := false, vflag := false } })) := by decide

/-- 45_scalar_ops.md R231, its example: `S: cos r0.x, r1.xxxx`. -/
theorem test_round_scos :
    encodesTo
    { vop := 0, vdst := absentDst
      sop := 0, sdst := { idx := 0, type := .temp, mask := 8, sat := false }
      src0 := absentSrc
      src1 := absentSrc
      src2 := { valid := true, idx := 1, type := .temp, swz := 0, neg := false, abs := false }
      last := false }
      0x00004208000000000000000000000000 = true ∧
    shows 0x00004208000000000000000000000000 "cos r0.x, r1.xxxx" = true := by decide

/-- 45_scalar_ops.md R232, the word of its example without the vector half. -/
theorem test_decode_smov : decodeTableWord 128 0x05f80a08d80000803600000200000002 =
    some (.smov (.word
      { mask := 1, dst := 63, vec := { op := 0, mask := 0, dst := 0 }
        s0 := { type := 1, idx := 0, swz := 27, neg := false, abs := false }
        s1 := { type := 0, idx := 0, swz := 0, neg := false, abs := false }
        s2 := { type := 1, idx := 1, swz := 27, neg := false, abs := false }
        sh := { last := false, tgt := 2, afetch := 0, cfetch := 0, pswz := 0, pneg := false, pen := false, sat := false, vflag := true } })) := by decide

/-- 45_scalar_ops.md R232, its example: `V: mov o2.xyz, r0.xyzw ; S: mov o2.w, r1.xyzw`. -/
theorem test_round_smov :
    encodesTo
    { vop := 1, vdst := { idx := 2, type := .varying, mask := 14, sat := false }
      sop := 1, sdst := { idx := 2, type := .varying, mask := 1, sat := false }
      src0 := { valid := true, idx := 0, type := .temp, swz := 27, neg := false, abs := false }
      src1 := absentSrc
      src2 := { valid := true, idx := 1, type := .temp, swz := 27, neg := false, abs := false }
      last := false }
      0x05ff0a08d8000080360000220001f802 = true ∧
    shows 0x05ff0a08d8000080360000220001f802 "mov o2.xyz, r0.xyzw\nmov o2.w, r1.xyzw" = true := by decide

/-- 45_scalar_ops.md R233, the word of its example. -/
theorem test_decode_srcp : decodeTableWord 128 0x8ff84602a80000000000900400000002 =
    some (.srcp (.word
      { mask := 8, dst := 63, vec := { op := 0, mask := 0, dst := 0 }
        s0 := { type := 0, idx := 0, swz := 0, neg := false, abs := false }
        s1 := { type := 0, idx := 0, swz := 0, neg := false, abs := false }
        s2 := { type := 3, idx := 0, swz := 85, neg := false, abs := false }
        sh := { last := true, tgt := 7, afetch := 0, cfetch := 9, pswz := 0, pneg := false, pen := false, sat := false, vflag := true } })) := by decide

/-- 45_scalar_ops.md R233, its example: `S: rcp o7.x, c9.yyyy ; last`. -/
theorem test_round_srcp :
    encodesTo
    { vop := 0, vdst := absentDst
      sop := 2, sdst := { idx := 7, type := .varying, mask := 8, sat := false }
      src0 := absentSrc
      src1 := absentSrc
      src2 := { valid := true, idx := 9, type := .constant, swz := 85, neg := false, abs := false }
      last := true }
      0x8ff84602a80000000000900400000002 = true ∧
    shows 0x8ff84602a80000000000900400000002 "rcp o7.x, c9.yyyy\nlast" = true := by decide

/-- 45_scalar_ops.md R234, the word of its example without the vector half. -/
theorem test_decode_srsq : decodeTableWord 128 0x00100bf7fb0000803400500800000000 =
    some (.srsq (.word
      { mask := 1, dst := 2, vec := { op := 0, mask := 0, dst := 0 }
        s0 := { type := 1, idx := 0, swz := 26, neg := false, abs := false }
        s1 := { type := 3, idx := 0, swz := 0, neg := false, abs := false }
        s2 := { type := 1, idx := 62, swz := 255, neg := false, abs := false }
        sh := { last := false, tgt := 0, afetch := 0, cfetch := 5, pswz := 0, pneg := false, pen := false, sat := false, vflag := false } })) := by decide

/-- 45_scalar_ops.md R234, its example: `V: mul r1.xyz, r0.xyzz, c5.xxxx ; S: rsq r2.w, r62.wwww`. -/
theorem test_round_srsq :
    encodesTo
    { vop := 2, vdst := { idx := 1, type := .temp, mask := 14, sat := false }
      sop := 4, sdst := { idx := 2, type := .temp, mask := 1, sat := false }
      src0 := { valid := true, idx := 0, type := .temp, swz := 26, neg := false, abs := false }
      src1 := { valid := true, idx := 5, type := .constant, swz := 0, neg := false, abs := false }
      src2 := { valid := true, idx := 62, type := .temp, swz := 255, neg := false, abs := false }
      last := false }
      0x00170bf7fb0000803400504800000800 = true ∧
    shows 0x00170bf7fb0000803400504800000800 "mul r1.xyz, r0.xyzz, c5.xxxx\nrsq r2.w, r62.wwww" = true := by decide

/-- 45_scalar_ops.md R235, the word of its example. -/
theorem test_decode_slg2 : decodeTableWord 128 0x0018221aa80000000000001a00000100 =
    some (.slg2 (.word
      { mask := 4, dst := 3, vec := { op := 0, mask := 0, dst := 0 }
        s0 := { type := 0, idx := 0, swz := 0, neg := false, abs := false }
        s1 := { type := 0, idx := 0, swz := 0, neg := false, abs := false }
        s2 := { type := 1, idx := 3, swz := 85, neg := false, abs := true }
        sh := { last := false, tgt := 0, afetch := 0, cfetch := 0, pswz := 0, pneg := false, pen := false, sat := false, vflag := false } })) := by decide

/-- 45_scalar_ops.md R235, its example: `S: lg2 r3.y, abs(r3.yyyy)`. -/
theorem test_round_slg2 :
    encodesTo
    { vop := 0, vdst := absentDst
      sop := 13, sdst := { idx := 3, type := .temp, mask := 4, sat := false }
      src0 := absentSrc
      src1 := absentSrc
      src2 := { valid := true, idx := 3, type := .temp, swz := 85, neg := false, abs := true }
      last := false }
      0x0018221aa80000000000001a00000100 = true ∧
    shows 0x0018221aa80000000000001a00000100 "lg2 r3.y, abs(r3.yyyy)" = true := by decide

/-- 45_scalar_ops.md R236, the word of its example. -/
theorem test_decode_sex2 : decodeTableWord 128 0x00182407fc0000000070001c00000020 =
    some (.sex2 (.word
      { mask := 4, dst := 3, vec := { op := 0, mask := 0, dst := 0 }
        s0 := { type := 0, idx := 0, swz := 0, neg := false, abs := false }
        s1 := { type := 0, idx := 0, swz := 0, neg := false, abs := false }
        s2 := { type := 2, idx := 0, swz := 255, neg := true, abs := false }
        sh := { last := false, tgt := 0, afetch := 7, cfetch := 0, pswz := 0, pneg := false, pen := false, sat := true, vflag := false } })) := by decide

/-- 45_scalar_ops.md R236, its example: `S: ex2 r3_sat.y, -v7.wwww`. -/
theorem test_round_sex2 :
    encodesTo
    { vop := 0, vdst := absentDst
      sop := 14, sdst := { idx := 3, type := .temp, mask := 4, sat := true }
      src0 := absentSrc
      src1 := absentSrc
      src2 := { valid := true, idx := 7, type := .attr, swz := 255, neg := true, abs := false }
      last := false }
      0x00182407fc0000000070001c00000020 = true ∧
    shows 0x00182407fc0000000070001c00000020 "ex2 r3_sat.y, -v7.wwww" = true := by decide

/-- 45_scalar_ops.md R237, the word of its example without the vector half. -/
theorem test_decode_ssin : decodeTableWord 128 0x0008421801086c823600001e00000000 =
    some (.ssin (.word
      { mask := 8, dst := 1, vec := { op := 0, mask := 0, dst := 0 }
        s0 := { type := 1, idx := 1, swz := 27, neg := false, abs := false }
        s1 := { type := 1, idx := 2, swz := 27, neg := false, abs := false }
        s2 := { type := 1, idx := 3, swz := 0, neg := false, abs := false }
        sh := { last := false, tgt := 0, afetch := 0, cfetch := 0, pswz := 0, pneg := false, pen := false, sat := false, vflag := false } })) := by decide

/-- 45_scalar_ops.md R237, its example: `V: mad r0.xyzw, r1.xyzw, r2.xyzw, r3.xxxx ; S: sin r1.x, r3.xxxx`. -/
theorem test_round_ssin :
    encodesTo
    { vop := 4, vdst := { idx := 0, type := .temp, mask := 15, sat := false }
      sop := 15, sdst := { idx := 1, type := .temp, mask := 8, sat := false }
      src0 := { valid := true, idx := 1, type := .temp, swz := 27, neg := false, abs := false }
      src1 := { valid := true, idx := 2, type := .temp, swz := 27, neg := false, abs := false }
      src2 := { valid := true, idx := 3, type := .temp, swz := 0, neg := false, abs := false }
      last := false }
      0x000fc21801086c823600009e00000000 = true ∧
    shows 0x000fc21801086c823600009e00000000 "mad r0.xyzw, r1.xyzw, r2.xyzw, r3.xxxx\nsin r1.x, r3.xxxx" = true := by decide

/-! ### Witnesses: states and operands that meet the statements' hypotheses, one theorem for each statement -/

/-- The host's plan is this list. -/
def planned (l : List HostAction) : State := { State.reset with host := l }

/-- All fields zero. -/
def zeroFields : Fields := (vecWord 0).toFields 0

theorem witness_ResetLeavesTheTable :
    (0 ≤ 127 ∧ 127 < 128) ∧
    ∃ t, runCommand .parse (withBuf smallest) = .next t ∧ t.st = .ok := ⟨by decide, _, rfl, by decide⟩

theorem witness_HostActionsRunInOrder :
    (planned []).host = [] ∧ (planned [.command .dec]).host = .command .dec :: [] ∧
    (planned [.writeD rcpD]).host = .writeD rcpD :: [] ∧ (planned [.setBufLen 7]).host = .setBufLen 7 :: [] ∧
    (planned [.setStrmLen 7]).host = .setStrmLen 7 :: [] ∧ (planned [.writeBuf 3 [1]]).host = .writeBuf 3 [1] :: [] ∧
    (planned [.writeStrm 3 [1]]).host = .writeStrm 3 [1] :: [] ∧ (planned [.reset]).host = .reset :: [] :=
  ⟨rfl, rfl, rfl, rfl, rfl, rfl, rfl, rfl⟩

theorem witness_HostWritesAreRead :
    (∃ s : State, s.buf.wf ∧ s.strm.wf ∧ s.host = .writeBuf 9 [1, 2] :: [] ∧ s.buf.cells ≠ []) ∧
    ∃ s : State, s.buf.wf ∧ s.strm.wf ∧ s.host = .writeStrm 0 [3] :: [] ∧ s.strm.cells ≠ [] :=
  ⟨⟨{ withBuf dp4Bytes with host := [.writeBuf 9 [1, 2]] }, by decide, by decide, rfl, by decide⟩,
   ⟨{ withStrm dp4Bytes with host := [.writeStrm 0 [3]] }, by decide, by decide, rfl, by decide⟩⟩

theorem witness_StepRunsTheDecodedInstruction :
    (∃ i, decodeWord params { holding 0x8007800003006d00363110e000000000 with host := [.command .dec] }.w = .ok i) ∧
    (∃ i, descInstr params { planned [.command .enc] with d := rcpD }.d = .ok i) ∧
    ∃ i, decodeTableWord 128 0x8007800003006d00363110e000000000 = some i := ⟨⟨_, rfl⟩, ⟨_, rfl⟩, ⟨_, rfl⟩⟩

theorem witness_BwLoadwFillsTheWord :
    ([1, 2, 3, 4] : List Word).length ≤ 4 ∧ 4 < ([1, 2, 3, 4, 5] : List Word).length := by decide

theorem witness_BwLoadbReadsTheGroup :
    0 + 16 * 0 + 16 ≤ (withStrm dp4Bytes).strm.len ∧ (withStrm dp4Bytes).strm.len < 1 + 16 * 0 + 16 ∧
    (withStrm dp4Bytes).strm.len < 0 + 16 * 1 + 16 := by decide

theorem witness_BwExtractReadsTheRange :
    (0 ≤ 127 ∧ 127 < 128) ∧ (127 ≤ 127 ∧ 127 < 128) ∧ ¬ (1 ≤ 0 ∧ 0 < 128) ∧ ¬ (0 ≤ 128 ∧ 128 < 128) := by decide

theorem witness_BwInsertWritesTheRange :
    (0 ≤ 127 ∧ 127 < 128 ∧ 2 ^ 128 - 1 < 2 ^ (127 - 0 + 1)) ∧ (127 ≤ 127 ∧ 127 < 128 ∧ 1 < 2 ^ (127 - 127 + 1)) ∧
    (¬ (1 ≤ 0 ∧ 0 < 128) ∨ 2 ^ (0 - 1 + 1) ≤ 0) ∧ (¬ (0 ≤ 128 ∧ 128 < 128) ∨ 2 ^ (128 - 0 + 1) ≤ 0) ∧
    (¬ (4 ≤ 7 ∧ 7 < 128) ∨ 2 ^ (7 - 4 + 1) ≤ 16) := by decide

theorem witness_SingleBitsAreOneBitRanges : 127 < 128 ∧ 128 ≤ 128 ∧ (127 < 128 ∧ 1 ≤ 1) ∧ (128 ≤ 128 ∨ 1 < 1) ∧
    (128 ≤ 127 ∨ 1 < 2) := by decide

theorem witness_RangesStraddleWords : 127 < 128 ∧
    Machine.insert 0 31 32 3 = .ok (BitVec.ofNat 128 0x00000001800000000000000000000000) ∧ 31 ≤ 32 ∧ 32 ≤ 32 := by
  decide

theorem witness_InsertExtractLaws :
    28 ≤ 35 ∧ 35 < 128 ∧ 0xa5 < 2 ^ (35 - 28 + 1) ∧ (0 : BitWord) = 0 ∧ (127 < 128 ∧ (127 < 28 ∨ 35 < 127)) ∧
    (36 ≤ 127 ∧ 127 < 128 ∧ (127 < 28 ∨ 35 < 36)) ∧ (0 ≤ 27 ∧ 27 < 128 ∧ (27 < 28 ∨ 35 < 0)) ∧
    Machine.extract 0 28 35 = .ok 0 ∧ (0 ≤ 27 ∧ 27 < 128 ∧ 5 < 2 ^ (27 - 0 + 1) ∧ (27 < 28 ∨ 35 < 0)) := by decide

theorem witness_WordsAreLittleEndian :
    12 + 4 ≤ (bufferOf dp4Bytes).len ∧ (bufferOf dp4Bytes).len < 13 + 4 := by decide

theorem witness_ByteImageIsExact : dp4Bytes.length = 16 ∧ 127 < 128 ∧ 0 + 16 ≤ (bufferOf dp4Bytes).len := by decide

theorem madD_slots : SlotEncoded params madD 0 ∧ SlotEncoded params madD 1 ∧ SlotEncoded params madD 2 := by
  simp only [slotEncoded_iff]; decide

theorem rcpD_slot : SlotEncoded params rcpD 2 ∧ ¬ SlotEncoded params rcpD 0 := by
  simp only [slotEncoded_iff]; decide

theorem witness_EncoderWritesTheFields :
    params.Valid ∧ (∃ w, encodeDesc params madD = .ok w) ∧ (∃ w, encodeDesc params bothVarying = .ok w) ∧
    madD.vdst.mask ≠ 0 ∧ bothVarying.sdst.mask ≠ 0 ∧
    (SlotEncoded params madD 0 ∧ (srcAt madD 0).type = .temp) ∧
    (SlotEncoded params madD 1 ∧ (srcAt madD 1).type = .constant) ∧
    (SlotEncoded params madD 2 ∧ (srcAt madD 2).type = .attr) ∧
    (0 < 3 ∧ ¬ SlotEncoded params rcpD 0) ∧ (∃ w, encodeDesc params rcpD = .ok w) ∧
    (∀ i, SlotEncoded params bothVarying i → (srcAt bothVarying i).type ≠ .constant) ∧
    (∀ i, SlotEncoded params bothVarying i → (srcAt bothVarying i).type ≠ .attr) ∧
    (bothVarying.vdst.type = .varying ∧ bothVarying.sdst.type = .varying) ∧
    (madD.vdst.mask ≠ 0 → madD.vdst.type ≠ .varying) ∧ (madD.sdst.mask ≠ 0 → madD.sdst.type ≠ .varying) ∧
    ∀ f : Field, 127 < params.lo f ∨ params.hi f < 127 := by
  refine ⟨params_valid, ⟨_, rfl⟩, ⟨_, rfl⟩, by decide, by decide, ⟨madD_slots.1, rfl⟩, ⟨madD_slots.2.1, rfl⟩,
    ⟨madD_slots.2.2, rfl⟩, ⟨by decide, rcpD_slot.2⟩, ⟨_, rfl⟩, ?_, ?_, by decide, by decide, by decide, ?_⟩
  · rintro i ⟨h, -, -⟩; match i with | 0 | 1 | 2 => decide
  · rintro i ⟨h, -, -⟩; match i with | 0 | 1 | 2 => decide
  · intro f; cases f <;> decide

theorem witness_CanonicalWordsAreTheImage : params.Valid ∧ ∃ w, encodeDesc params bothVarying = .ok w ∧ w ≠ 0 :=
  ⟨params_valid, _, rfl, by decide⟩

theorem witness_EncWritesTheWord :
    encodeDesc params { State.reset with d := fetchD }.d = .error .conflictingFetch ∧
    ∃ x, encodeDesc params { State.reset with d := madD }.d = .ok x := ⟨by decide, _, rfl⟩

theorem witness_AbsentOpsAreOmitted :
    params.Valid ∧ (rcpD.vdst.mask = 0 ∧ (dst .constant 255 0).mask = 0) ∧ madD.sdst.mask = 0 ∧
    (∃ w, encodeDesc params rcpD = .ok w) ∧ (∃ w, encodeDesc params madD = .ok w) ∧
    (∃ w, encodeDesc params { absentDesc with vop := 1, vdst := dst .temp 1 1, src0 := tempSrc 0 } = .ok w) ∧
    ¬ ((dst .temp 1 1).mask ≠ 0 ∧ vArity params 1 = 3) ∧
    (absentDesc.vdst.mask = 0 ∧ absentDesc.sdst.mask = 0) ∧
    (getField params 0 .vmask = 0 ∧ getField params 0 .smask = 0) :=
  ⟨params_valid, by decide, by decide, ⟨_, rfl⟩, ⟨_, rfl⟩, ⟨_, rfl⟩, by decide, by decide, by decide⟩

theorem witness_DecodeOfEncodeIsTheDescriptor :
    params.Valid ∧ (∃ w, encodeDesc params madD = .ok w) ∧
    ∃ s : State, s.host = .command .enc :: .command .dec :: [] ∧ ∃ w, encodeDesc params s.d = .ok w :=
  ⟨params_valid, ⟨_, rfl⟩, { planned [.command .enc, .command .dec] with d := bothVarying }, rfl, _, rfl⟩

theorem witness_DecodeOfEncodeIsTheInstruction :
    params.Valid ∧
    ((Instr.vmad (.word (vecWord 15))).wellFormedIn params = true ∧ (Instr.vmad (.word (vecWord 15))).isWord = true) ∧
    ((Instr.ssin (.word (scaWord 8 { op := 31, mask := 15, dst := 63 }))).wellFormedIn params = true ∧
      (Instr.ssin (.word (scaWord 8 { op := 31, mask := 15, dst := 63 }))).isWord = true) :=
  ⟨params_valid, by decide, by decide⟩

theorem witness_EncodeOfDecodeKeepsTheFields :
    params.Valid ∧ (∃ i, decodeWord params (BitVec.ofNat 128 0x8007800003006d00363110e000000001) = .ok i) ∧
    ∀ f : Field, 127 < params.lo f ∨ params.hi f < 127 :=
  ⟨params_valid, ⟨_, rfl⟩, by intro f; cases f <;> decide⟩

theorem witness_EncodedDescriptorHoldsItsRow :
    params.Valid ∧
    ((∃ x, encodeDesc params madD = .ok x) ∧ ∃ o, descInstr params madD = .ok (Instr.ofVec .mad (.desc o))) ∧
    ((∃ x, encodeDesc params rcpD = .ok x) ∧ ∃ o, descInstr params rcpD = .ok (Instr.ofSca .rcp (.desc o))) ∧
    ((∃ x, encodeDesc params absentDesc = .ok x) ∧ descInstr params absentDesc = .error .noOp) :=
  ⟨params_valid, ⟨⟨_, rfl⟩, _, rfl⟩, ⟨⟨_, rfl⟩, _, rfl⟩, ⟨_, rfl⟩, by decide⟩

theorem witness_VectorWordsDecodeToTheirRow : vectorRows.length = 17 ∧ (vecWord 1).mask ≠ 0 := by decide

theorem witness_ScalarWordsDecodeToTheirRow :
    scalarRows.length = 7 ∧ (scaWord 1 { op := 4, mask := 1, dst := 0 }).mask ≠ 0 := by decide

/-- A descriptor accepted for every vector row: three temps, the highest index. -/
def tempsD : VecDesc :=
  { dst := dst .temp 62 1, sop := 0, sdst := absentDst, src0 := tempSrc 63, src1 := tempSrc 0, src2 := tempSrc 1
    last := false }

theorem noFetch_temps (n : BitVec 5) : ¬ FetchConflict params (tempsD.toDesc n) := by
  rintro ⟨i, j, ⟨hi, -⟩, -, -, (⟨h, -⟩ | ⟨h, -⟩)⟩ <;>
    (match i with | 0 | 1 | 2 => exact absurd h (by simp [srcAt, VecDesc.toDesc, tempsD, tempSrc]))

theorem witness_VectorDescriptorsEncodeTheirRow : ∀ r ∈ vectorRows, tempsD.dst.mask ≠ 0 ∧
    ¬ ContractBroken params (tempsD.toDesc r.number) ∧ ¬ FetchConflict params (tempsD.toDesc r.number) ∧
    ¬ ModifierConflict (tempsD.toDesc r.number) := by
  have h : ∀ n : BitVec 5, contractOk params (tempsD.toDesc n) = true := by decide
  exact fun r _ => ⟨by decide, (contractOk_iff _ _).1 (h _), noFetch_temps _, fun h => h.2.1 rfl⟩

theorem witness_ScalarDescriptorsEncodeTheirRow : ∀ r ∈ scalarRows, rcpD.scaDesc.dst.mask ≠ 0 ∧
    ¬ ContractBroken params (rcpD.scaDesc.toDesc r.number) ∧ ¬ FetchConflict params (rcpD.scaDesc.toDesc r.number) ∧
    ¬ ModifierConflict (rcpD.scaDesc.toDesc r.number) := by
  have h : ∀ n : BitVec 4, contractOk params (rcpD.scaDesc.toDesc n) = true := by decide
  have h1 : ∀ n : BitVec 4, (fetchIndex params (rcpD.scaDesc.toDesc n) .constant).isOk = true := by decide
  have h2 : ∀ n : BitVec 4, (fetchIndex params (rcpD.scaDesc.toDesc n) .attr).isOk = true := by decide
  have e : ∀ x : Except Status (Option (BitVec 8)), x.isOk = true → ∃ r, x = .ok r := by
    intro x; cases x with
    | ok r => exact fun _ => ⟨r, rfl⟩
    | error _ => exact fun h => by cases h
  exact fun r _ => ⟨by decide, (contractOk_iff _ _).1 (h _),
    (not_fetchConflict_iff _ _).2 ⟨e _ (h1 _), e _ (h2 _)⟩, fun h => h.1 rfl⟩

theorem brokenD_broken : ContractBroken params brokenD := .inl ⟨by decide, .inr (.inr (.inl ⟨rfl, by decide⟩))⟩

theorem fetchD_conflict : ¬ ContractBroken params fetchD ∧ FetchConflict params fetchD :=
  ⟨(contractOk_iff _ _).1 (by decide),
   0, 1, (slotEncoded_iff _ _ _).2 (by decide), (slotEncoded_iff _ _ _).2 (by decide), by decide, .inl ⟨rfl, rfl⟩⟩

theorem modifierD_conflict :
    ¬ ContractBroken params modifierD ∧ ¬ FetchConflict params modifierD ∧ ModifierConflict modifierD :=
  ⟨(contractOk_iff _ _).1 (by decide), (not_fetchConflict_iff _ _).2 ⟨⟨none, by decide⟩, ⟨none, by decide⟩⟩,
   by decide, by decide, .inl ⟨rfl, rfl, by decide⟩⟩

theorem witness_EncodeSideRefuses :
    (⟨.vmov, 1, .mov, asc "mov", 1⟩ ∈ vectorRows ∧ ⟨.vmul, 2, .mul, asc "mul", 2⟩ ∈ vectorRows ∧
      ⟨.smov, 1, .mov, asc "mov"⟩ ∈ scalarRows) ∧
    ContractBroken params (brokenD.vecDesc.toDesc 1) ∧
    (¬ ContractBroken params (fetchD.vecDesc.toDesc 2) ∧ FetchConflict params (fetchD.vecDesc.toDesc 2)) ∧
    (¬ ContractBroken params (modifierD.vecDesc.toDesc 1) ∧ ¬ FetchConflict params (modifierD.vecDesc.toDesc 1) ∧
      ModifierConflict (modifierD.vecDesc.toDesc 1)) ∧
    ContractBroken params ({ rcpD.scaDesc with dst := dst .constant 0 8 }.toDesc 1) ∧
    (¬ ContractBroken params ({ fetchD with sop := 1 }.scaDesc.toDesc 1) ∧
      FetchConflict params ({ fetchD with sop := 1 }.scaDesc.toDesc 1)) ∧
    (¬ ContractBroken params (modifierD.scaDesc.toDesc 1) ∧ ¬ FetchConflict params (modifierD.scaDesc.toDesc 1) ∧
      ModifierConflict (modifierD.scaDesc.toDesc 1)) :=
  ⟨⟨.head _, .tail _ (.head _), .tail _ (.head _)⟩, brokenD_broken, fetchD_conflict, modifierD_conflict,
   .inr (.inl ⟨by decide, .inr (.inl rfl)⟩), fetchD_conflict, modifierD_conflict⟩

theorem witness_InstructionsLeaveTheRest :
    (∃ t, exec (.vmov (.word (vecWord 15))) (holding 7) = .next t) ∧
    (∃ t, exec (.srcp (.desc rcpD.scaDesc)) (holding 7) = .next t ∧ t.st = .ok) ∧
    ∃ t, exec (.vmov (.desc brokenD.vecDesc)) (holding 7) = .next t ∧ t.st ≠ .ok :=
  ⟨⟨_, rfl⟩, ⟨_, rfl, by decide⟩, ⟨_, rfl, by decide⟩⟩

theorem witness_WhatTheDecoderDoesNotShow :
    ((∀ f : Field, getField params 0 f = getField params 1 f) ∧ (0 : BitWord) ≠ 1) ∧ zeroFields.sh.pen = false ∧
    ({ zeroFields with s0 := { emptySlot with type := 2 } }.s0.type = 2 ∨
      { zeroFields with s0 := { emptySlot with type := 2 } }.s0.type = 3) ∧
    zeroFields.sh.vflag = false ∧ zeroFields.vec.mask = 0 ∧ zeroFields.sc.mask = 0 ∧
    ¬ usesSlot params zeroFields 0 ∧ ¬ usesSlot params zeroFields 1 ∧ ¬ usesSlot params zeroFields 2 ∧
    (∀ i, i < 3 → usesSlot params zeroFields i → (zeroFields.slot i).type ≠ 3) ∧
    (∀ i, i < 3 → usesSlot params zeroFields i → (zeroFields.slot i).type ≠ 2) ∧ (zeroFields.slot 2).type = 0 := by
  have h : ∀ i, ¬ usesSlot params zeroFields i := by
    rintro i (⟨h, -⟩ | ⟨h, -⟩) <;> exact h rfl
  refine ⟨⟨?_, by decide⟩, rfl, .inl rfl, rfl, rfl, rfl, h 0, h 1, h 2, ?_, ?_, rfl⟩
  · intro f; cases f <;> decide
  · exact fun i _ hu => absurd hu (h i)
  · exact fun i _ hu => absurd hu (h i)

theorem witness_UnknownOpcodesDecode :
    (((vecWord 1).toFields 31).vec.mask ≠ 0 ∧ vLookup params ((vecWord 1).toFields 31).vec.op = none) ∧
    (((scaWord 1 zeroFields.vec).toFields 12).sc.mask ≠ 0 ∧
      sLookup params ((scaWord 1 zeroFields.vec).toFields 12).sc.op = none) ∧
    ({ madD with vop := 0 }.vdst.mask ≠ 0 ∧ vLookup params { madD with vop := 0 }.vop = none ∧ 2 < 3) := by decide

/-- The word of 45_scalar_ops.md R237: `mad` beside `sin`. -/
theorem witness_BothOpsShareSlotTwo :
    ∃ v c, (decodeFields params (BitVec.ofNat 128 0x000fc21801086c823600009e00000000)).vec = some v ∧
      (decodeFields params (BitVec.ofNat 128 0x000fc21801086c823600009e00000000)).sc = some c ∧ v.arity = 3 :=
  ⟨_, _, rfl, rfl, rfl⟩

theorem witness_NumeralsAreExact : 0 < 31 := by decide

theorem witness_OperandsRender : vectorRows.length = 17 ∧ scalarRows.length = 7 := by decide

theorem witness_LinesStandInOrder :
    (decodeFields params 0).vec = none ∧ (decodeFields params 0).sc = none ∧
    (∃ v, (decodeFields params (BitVec.ofNat 128 0x000fc21801086c823600009e00000000)).vec = some v) ∧
    ∃ c x, (decodeFields params (BitVec.ofNat 128 0x000fc21801086c823600009e00000000)).sc = some c ∧ c.srcs = [x] :=
  ⟨rfl, rfl, ⟨_, rfl⟩, _, _, rfl, rfl⟩

theorem witness_DisasmRendersEveryWord :
    (17 % 16 ≠ 0 ∨ (withStrm dp4Bytes).strm.len < 0 + 17) ∧ (16 % 16 ≠ 0 ∨ (withStrm dp4Bytes).strm.len < 1 + 16) ∧
    (16 % 16 = 0 ∧ 0 + 16 ≤ (withStrm dp4Bytes).strm.len) ∧ (0 % 16 = 0 ∧ 16 + 0 ≤ (withStrm dp4Bytes).strm.len) ∧
    0 < 16 / 16 := by decide

theorem smallest_parses : ∃ p, parse params (bufferOf smallest) = .ok p ∧ p.syms = [] := ⟨_, rfl, rfl⟩

theorem oneConstant_parses : ∃ p, parse params (bufferOf oneConstant) = .ok p ∧ p.syms.length = 1 ∧ p.diag = [] :=
  ⟨_, rfl, rfl, rfl⟩

theorem noValues_parses : ∃ p, parse params (bufferOf noValues) = .ok p ∧ p.diag = [0] := ⟨_, rfl, rfl⟩

theorem witness_ParseDecidesTheStatus :
    params.symRec = defaultSymRec ∧ (bufferOf oneConstant).num 12 ≤ params.maxSymbols ∧
    0 < (bufferOf oneConstant).num 12 := ⟨rfl, by decide, by decide⟩

theorem witness_ParsedHeaderIsCopied : ∃ p, parse params (bufferOf smallest) = .ok p := ⟨_, rfl⟩

theorem witness_ParsedSymbolsAreTheRecords :
    params.symRec = defaultSymRec ∧
    (0 < (bufferOf oneConstant).num 12 ∧ ∃ p, parse params (bufferOf oneConstant) = .ok p) ∧
    ((bufferOf smallest).num 12 = 0 ∧ ∃ p, parse params (bufferOf smallest) = .ok p) :=
  ⟨rfl, ⟨by decide, _, rfl⟩, by decide, _, rfl⟩

theorem witness_DiagnosticsListTheConstants :
    params.symRec = defaultSymRec ∧ (∃ p, parse params (bufferOf noValues) = .ok p ∧ 0 ∈ p.diag) ∧
    ∃ p, parse params (withBuf noValues).bufView = .ok p :=
  ⟨rfl, ⟨_, rfl, .head _⟩, _, rfl⟩

theorem witness_TagAndTypeTables : (0x11005 : Word) ≠ 0x1005 ∧ (0x11005 : Word) ≠ 0x1006 ∧ (0x11005 : Word) ≠ 0x1007 := by
  decide

theorem witness_ParseWritesItsRegisters :
    parse params State.reset.bufView = .error (.raise .malformedContainer) ∧
    ∃ p, parse params (withBuf smallest).bufView = .ok p := ⟨rfl, _, rfl⟩

/-- Two buffers of different lengths that differ beyond the container's own size. -/
theorem witness_ParseReadsOnlyTheContainer :
    48 ≤ (bufferOf smallest).num 8 ∧ (bufferOf smallest).num 8 ≤ (bufferOf smallest).len ∧
    (bufferOf smallest).num 8 ≤ (bufferOf (smallest ++ [1, 2])).len ∧
    ∀ a, a < (bufferOf smallest).num 8 → (bufferOf smallest).byte a = (bufferOf (smallest ++ [1, 2])).byte a := by decide

theorem witness_NoReadOutsideTheMemories :
    ∃ b c : Buffer, b.same c ∧ b.byte 48 ≠ c.byte 48 :=
  ⟨bufferOf smallest, { len := 48, byte := fun a => (smallest ++ [1]).getD a 0 },
    ⟨by decide, by unfold bufferOf; decide⟩, by decide⟩

/-- A container whose one record has a values offset that does not fit. -/
def badRecord : State := withBuf (header 0x1b5d 96 1 0 0 0 0 ++ record 0 0x1006 0 0 81)

theorem badRecord_broken : Command.refusedWith badRecord .parse .malformedContainer :=
  .inr ⟨by decide, 0, by decide, .inr ⟨by decide, by decide⟩⟩

/-- A header of 257 symbols in a buffer that is long enough for them. -/
def manySymbols : State :=
  { withBuf (header 0x1b5d 12384 257 0 0 0 0) with
    buf := { len := 12384, cells := (withBuf (header 0x1b5d 12384 257 0 0 0 0)).buf.cells } }

theorem manySymbols_refused : Command.refusedWith manySymbols .parse .outOfMemory := by
  unfold Command.refusedWith HeaderBroken RegionInside; decide

theorem witness_StatusesHaveTheirCauses :
    Status.contractViolation ≠ .ok ∧ Command.refusedWith State.reset (.bwGetbit 128) .contractViolation ∧
    Command.refusedWith { State.reset with d := fetchD } .enc .conflictingFetch ∧
    Command.refusedWith { State.reset with d := modifierD } .enc .conflictingModifier ∧
    Command.refusedWith State.reset (.disasm 0 16) .malformedContainer ∧
    Command.refusedWith State.reset (.disasm 0 1) .malformedContainer ∧
    Command.refusedWith { State.reset with d := brokenD } .enc .contractViolation ∧
    Command.refusedWith State.reset (.bwLoadw [1, 2, 3, 4, 5]) .contractViolation ∧
    Command.refusedWith State.reset (.bwExtract 0 128) .contractViolation ∧
    Command.refusedWith State.reset (.bwExtract 1 0) .contractViolation ∧
    Command.refusedWith State.reset (.bwInsert 0 128 0) .contractViolation ∧
    Command.refusedWith State.reset (.bwInsert 4 7 16) .contractViolation ∧
    Command.refusedWith State.reset (.bwSetbit 128 1) .contractViolation ∧
    Command.refusedWith State.reset (.bwSetbit 0 2) .contractViolation ∧
    Command.refusedWith (withStrm dp4Bytes) (.bwLoadb 0 1) .malformedContainer ∧
    Command.refusedWith (withBuf (smallest.take 47)) .parse .malformedContainer ∧
    Command.refusedWith badRecord .parse .malformedContainer ∧
    Command.refusedWith manySymbols .parse .outOfMemory :=
  ⟨by decide, Nat.le_refl 128, fetchD_conflict, modifierD_conflict, .inr (by decide), .inl (by decide), brokenD_broken,
   by unfold Command.refusedWith; decide, by unfold Command.refusedWith; decide, by unfold Command.refusedWith; decide,
   by unfold Command.refusedWith; decide, by unfold Command.refusedWith; decide, by unfold Command.refusedWith; decide,
   by unfold Command.refusedWith; decide, by unfold Command.refusedWith; decide, .inl (.inl (by decide)),
   badRecord_broken, manySymbols_refused⟩

/-- A refused ENC in a state that holds a word. -/
theorem witness_RefusalWritesOnlyTheStatus :
    ∃ t, runCommand .enc { holding 7 with d := fetchD } = .next t ∧ t.st ≠ .ok := ⟨_, rfl, by decide⟩

theorem witness_RetryIsRefusedAgain : ∃ t, runCommand .parse (holding 7) = .next t ∧ t.st ≠ .ok :=
  ⟨_, rfl, by decide⟩

theorem witness_CommandsWriteTheirColumn : ∃ t, runCommand (.bwInsert 0 0 1) (holding 7) = .next t := ⟨_, rfl⟩

/-- Two states that agree on `D` alone, before ENC. -/
theorem witness_CommandsReadTheirColumn :
    Command.inputsAgree { holding 7 with d := madD } { withBuf smallest with d := madD } .enc ∧
    (∃ t, runCommand .enc { holding 7 with d := madD } = .next t ∧ t.st = .ok) ∧
    ∃ t', runCommand .enc { withBuf smallest with d := madD } = .next t' :=
  ⟨rfl, ⟨_, rfl, by decide⟩, _, rfl⟩

theorem witness_SymbolsAreCopies :
    (∃ s t : State, s.host = .writeBuf 0 [1] :: [] ∧ HostAction.writeBuf 0 [1] ≠ .command .parse ∧
      HostAction.writeBuf 0 [1] ≠ .reset ∧ step s = .next t) ∧
    ∃ s t : State, s.host = .command .parse :: [] ∧ step s = .next t ∧ t.st = .ok :=
  ⟨⟨planned [.writeBuf 0 [1]], _, rfl, by decide, by decide, rfl⟩,
   ⟨{ withBuf smallest with host := [.command .parse] }, _, rfl, rfl, by decide⟩⟩

/-- A good state other than the reset state, with a step to a state that holds a symbol. -/
theorem witness_GoodIsKept :
    ∃ s t : State, s.Good ∧ step s = .next t ∧ t.sym.length = 1 := by
  obtain ⟨t, h, ht⟩ := next_of_map (f := fun t => t.sym.length)
    (show (nextOf (step { withBuf oneConstant with host := [.command .parse] })).map (fun t => t.sym.length) = some 1 by
      decide)
  refine ⟨_, t, ?_, h, ht⟩
  exact ⟨by decide, by decide, rfl, by decide, rfl, by simp [withBuf, State.reset], rfl, rfl, 0, by decide⟩

theorem witness_OpcodeTableRowsDecode :
    ((⟨.vmov, 1, .mov, asc "mov", 1⟩ : VecRow) ∈ vectorRows ∧
      0x10000 * 2 ^ 96 + 0x2000000000 < 2 ^ 128 ∧
      (0x10000 * 2 ^ 96 + 0x2000000000) &&& 0x3e000000000 = (1 : BitVec 5).toNat <<< 37 ∧
      ((0x10000 * 2 ^ 96 + 0x2000000000) >>> 111) % 16 ≠ 0) ∧
    ((⟨.ssin, 15, .sin, asc "sin"⟩ : ScaRow) ∈ scalarRows ∧ 0x4000 * 2 ^ 96 + 0x1e00000000 < 2 ^ 128 ∧
      (0x4000 * 2 ^ 96 + 0x1e00000000) &&& 0x1e00000000 = (15 : BitVec 4).toNat <<< 33 ∧
      ((0x4000 * 2 ^ 96 + 0x1e00000000) >>> 107) % 16 ≠ 0 ∧
      ((0x4000 * 2 ^ 96 + 0x1e00000000) >>> 111) % 16 = 0) ∧
    (((0x14000 * 2 ^ 96 + 0x3fe00000000) >>> 107) % 16 ≠ 0 ∧
      vLookup params (BitVec.ofNat 5 ((0x14000 * 2 ^ 96 + 0x3fe00000000) >>> 37)) = none) :=
  ⟨⟨.head _, by decide, by decide, by decide⟩,
   ⟨.tail _ (.tail _ (.tail _ (.tail _ (.tail _ (.tail _ (.head _)))))), by decide, by decide, by decide, by decide⟩,
   by decide, by decide⟩

end Sys2Proof.Tests
end

section
/-! PROOFS. The decoder undoes the encoder on the word forms of all 24 rows (30_encoding.md R77 to R79, 00_scope.md R7). -/

namespace Sys2Proof.Proofs

open Sys2Proof.Machine

/-! ### The rows' functions on the two kinds of constructor -/

@[simp] theorem encode_ofVec (P : Params) (m : VMnemonic) (f : VecForm) :
    encode P (Instr.ofVec m f) = f.toWord P (P.vnum m) := by
  cases m <;> rfl

@[simp] theorem encode_ofSca (P : Params) (m : SMnemonic) (f : ScaForm) :
    encode P (Instr.ofSca m f) = f.toWord P (P.snum m) := by
  cases m <;> rfl

@[simp] theorem wellFormedIn_ofVec (P : Params) (m : VMnemonic) (f : VecForm) :
    (Instr.ofVec m f).wellFormedIn P = f.wellFormed := by
  cases m <;> rfl

@[simp] theorem wellFormedIn_ofSca (P : Params) (m : SMnemonic) (f : ScaForm) :
    (Instr.ofSca m f).wellFormedIn P = f.wellFormed P := by
  cases m <;> rfl

@[simp] theorem isWord_ofVec (m : VMnemonic) (f : VecForm) : (Instr.ofVec m f).isWord = f.isWord := by
  cases m <;> rfl

@[simp] theorem isWord_ofSca (m : SMnemonic) (f : ScaForm) : (Instr.ofSca m f).isWord = f.isWord := by
  cases m <;> rfl

theorem vecForm_isWord_iff {f : VecForm} : f.isWord = true ↔ ∃ o, f = .word o := by
  cases f <;> simp [VecForm.isWord]

theorem scaForm_isWord_iff {f : ScaForm} : f.isWord = true ↔ ∃ o, f = .word o := by
  cases f <;> simp [ScaForm.isWord]

/-! ### Which row a pair of halves holds -/

/-- The number of a vector mnemonic, beside a mask that is not zero, is that mnemonic's row. -/
theorem vecRow_vnum {P : Params} (hP : P.Valid) (m : VMnemonic) {mask : BitVec 4} (h : present mask = true) :
    vecRow P mask (P.vnum m) = some m := by
  rw [vecRow, if_pos h, vLookup_vnum hP]

/-- The number of a scalar mnemonic, beside a mask that is not zero, is that mnemonic's row. -/
theorem scaRow_snum {P : Params} (hP : P.Valid) (m : SMnemonic) {mask : BitVec 4} (h : present mask = true) :
    scaRow P mask (P.snum m) = some m := by
  rw [scaRow, if_pos h, sLookup_snum hP]

/-- `knownVec` says whether the vector half has a row. -/
theorem knownVec_eq_isSome_vecRow (P : Params) (mask : BitVec 4) (op : BitVec 5) :
    knownVec P mask op = (vecRow P mask op).isSome := by
  unfold knownVec vecRow
  cases present mask <;> rfl

theorem vecRow_eq_none_iff {P : Params} {mask : BitVec 4} {op : BitVec 5} :
    vecRow P mask op = none ↔ knownVec P mask op = false := by
  rw [knownVec_eq_isSome_vecRow, Option.isSome_eq_false_iff, Option.isNone_iff_eq_none]

/-! ### What the decoder reads from a field record -/

/-- A vector half with a row decides the instruction. -/
theorem decodeFieldsInstr_of_vecRow {P : Params} {F : Fields} {m : VMnemonic}
    (h : vecRow P F.vec.mask F.vec.op = some m) :
    decodeFieldsInstr P F = .ok (Instr.ofVec m (.word F.vecWord)) := by
  unfold decodeFieldsInstr; rw [h]

/-- A scalar half with a row decides it where the vector half has none. -/
theorem decodeFieldsInstr_of_scaRow {P : Params} {F : Fields} {m : SMnemonic}
    (hv : vecRow P F.vec.mask F.vec.op = none) (hs : scaRow P F.sc.mask F.sc.op = some m) :
    decodeFieldsInstr P F = .ok (Instr.ofSca m (.word F.scaWord)) := by
  unfold decodeFieldsInstr; rw [hv, hs]

/-- A word built from a field record decodes as that record does. -/
theorem decodeWord_writeFields {P : Params} (hP : P.Valid) (F : Fields) :
    decodeWord P (writeFields P F) = decodeFieldsInstr P F := by
  rw [decodeWord, readFields_writeFields hP]

@[simp] theorem vecWord_toFields (o : VecWord) (n : BitVec 5) : (o.toFields n).vecWord = o := rfl
@[simp] theorem scaWord_toFields (o : ScaWord) (n : BitVec 4) : (o.toFields n).scaWord = o := rfl

/-! ### The round trip of each kind of row -/

/-- A vector row's word decodes to the row with all its operands, whatever the scalar half holds. -/
theorem decodeWord_vecWord {P : Params} (hP : P.Valid) (m : VMnemonic) {o : VecWord}
    (h : (VecForm.word o).wellFormed = true) :
    decodeWord P (writeFields P (o.toFields (P.vnum m))) = .ok (Instr.ofVec m (.word o)) := by
  have hrow : vecRow P o.mask (P.vnum m) = some m := vecRow_vnum hP m h
  rw [decodeWord_writeFields hP, decodeFieldsInstr_of_vecRow hrow, vecWord_toFields]

/-- A scalar row's word decodes to the row with all its operands, since no vector row stands beside it. -/
theorem decodeWord_scaWord {P : Params} (hP : P.Valid) (m : SMnemonic) {o : ScaWord}
    (h : (ScaForm.word o).wellFormed P = true) :
    decodeWord P (writeFields P (o.toFields (P.snum m))) = .ok (Instr.ofSca m (.word o)) := by
  obtain ⟨hpresent, hknown⟩ := Bool.and_eq_true_iff.mp h
  have hvec : vecRow P o.vec.mask o.vec.op = none := vecRow_eq_none_iff.mpr ((Bool.not_eq_true' _).mp hknown)
  have hsca : scaRow P o.mask (P.snum m) = some m := scaRow_snum hP m hpresent
  rw [decodeWord_writeFields hP, decodeFieldsInstr_of_scaRow hvec hsca, scaWord_toFields]

/-- Settles O22: every instruction is a vector or a scalar row's, and each kind reads back from its word. -/
theorem decodeOfEncodeIsTheInstruction : Obligations.DecodeOfEncodeIsTheInstruction := by
  intro P i hP hwf hword
  obtain ⟨m, f, rfl⟩ | ⟨m, f, rfl⟩ := instr_row_cases i
  · rw [wellFormedIn_ofVec] at hwf
    rw [isWord_ofVec] at hword
    obtain ⟨o, rfl⟩ := vecForm_isWord_iff.mp hword
    exact ⟨_, encode_ofVec P m _, decodeWord_vecWord hP m hwf⟩
  · rw [wellFormedIn_ofSca] at hwf
    rw [isWord_ofSca] at hword
    obtain ⟨o, rfl⟩ := scaForm_isWord_iff.mp hword
    exact ⟨_, encode_ofSca P m _, decodeWord_scaWord hP m hwf⟩

end Sys2Proof.Proofs
end

section
/-! PROOFS. The numerals of the texts are the library's digits (00_scope.md R10). -/

namespace Sys2Proof.Proofs

open Sys2Proof.Machine

/-- With more fuel than the number, `digits` is Mathlib's digit list read from the most significant end. -/
theorem digits_eq_reverse_natDigits {b : Nat} (hb : 1 < b) :
    ∀ fuel n, 0 < n → n < fuel → digits b fuel n = (Nat.digits b n).reverse := by
  intro fuel
  induction fuel with
  | zero => exact fun n _ hn => absurd hn (Nat.not_lt_zero n)
  | succ fuel ih =>
    intro n hpos hfuel
    rw [digits]
    split
    · next hlt => rw [Nat.digits_of_lt b n hpos.ne' hlt, List.reverse_singleton]
    · next hge =>
      have hdiv : 0 < n / b := Nat.div_pos (Nat.le_of_not_lt hge) (by omega)
      have hsmaller : n / b < n := Nat.div_lt_self hpos hb
      rw [ih (n / b) hdiv (by omega), Nat.digits_def' hb hpos, List.reverse_cons]

theorem dec_zero : dec 0 = asc "0" := by decide

theorem hex_zero : hex 0 = asc "0" := by decide

theorem hex_of_pos {n : Nat} (h : 0 < n) : hex n = (Nat.digits 16 n).reverse.map digitByte := by
  rw [hex, digits_eq_reverse_natDigits (by decide) (n + 1) n h n.lt_succ_self]

/-- A decimal digit never needs a letter. -/
theorem dec_of_pos {n : Nat} (h : 0 < n) :
    dec n = (Nat.digits 10 n).reverse.map fun d => BitVec.ofNat 8 (48 + d) := by
  rw [dec, digits_eq_reverse_natDigits (by decide) (n + 1) n h n.lt_succ_self]
  refine List.map_congr_left fun d hd => ?_
  have hlt : d < 10 := Nat.digits_lt_base (by decide) (List.mem_reverse.mp hd)
  rw [digitByte, if_pos hlt]

/-- Settles O38, from the two equations for positive numbers. -/
theorem numeralsAreExact : Obligations.NumeralsAreExact :=
  ⟨dec_zero, hex_zero, fun _ h => ⟨dec_of_pos h, hex_of_pos h⟩⟩

end Sys2Proof.Proofs
end

section
/-! PROOFS. The statuses: their codes (10_state.md R26), and that no refusal carries the status OK (60_exceptions.md R246). -/

namespace Sys2Proof.Proofs

open Sys2Proof.Machine

/-! ### The codes of the statuses -/

/-- The status a code stands for; 6 and 7 stand for none and are sent to `ok` (10_state.md R26). -/
def statusOfCode (n : BitVec 3) : Status :=
  match n.toNat with
  | 1 => .contractViolation
  | 2 => .conflictingFetch
  | 3 => .conflictingModifier
  | 4 => .malformedContainer
  | 5 => .outOfMemory
  | _ => .ok

@[simp] theorem statusOfCode_code (e : Status) : statusOfCode e.code = e := by cases e <;> rfl

theorem statusCode_injective : Function.Injective Status.code := Function.LeftInverse.injective statusOfCode_code

theorem statusCode_ne_reserved (e : Status) : e.code ≠ 6 ∧ e.code ≠ 7 := by cases e <;> decide

/-- Settles O54: the six codes as written, and a code read back gives its status. -/
theorem statusCodes : Obligations.StatusCodes :=
  ⟨rfl, rfl, rfl, rfl, rfl, rfl, statusCode_ne_reserved, fun _ _ h => statusCode_injective h⟩

/-! ### A refusal never carries the status OK -/

/-- A computation that does not end by raising `e`. -/
def NeverRaises {ε α : Type} (e : ε) (r : Except ε α) : Prop := r ≠ .error e

theorem neverRaises_ok {ε α : Type} (e : ε) (a : α) : NeverRaises e (.ok a) := fun h => nomatch h

theorem neverRaises_error {ε α : Type} {e f : ε} (h : f ≠ e) : NeverRaises e (.error f : Except ε α) :=
  fun he => h (Except.error.inj he)

theorem NeverRaises.bind {ε α β : Type} {e : ε} {r : Except ε α} {f : α → Except ε β} (hr : NeverRaises e r)
    (hf : ∀ a, NeverRaises e (f a)) : NeverRaises e (r >>= f) := by
  cases r with
  | error f => exact neverRaises_error fun hfe => hr (congrArg Except.error hfe)
  | ok a => exact hf a

theorem NeverRaises.map {ε α β : Type} {e : ε} {r : Except ε α} (hr : NeverRaises e r) (f : α → β) :
    NeverRaises e (r.map f) := by
  cases r with
  | error f => exact neverRaises_error fun hfe => hr (congrArg Except.error hfe)
  | ok a => exact neverRaises_ok e (f a)

theorem NeverRaises.ite {ε α : Type} {e : ε} {p : Prop} [Decidable p] {x y : Except ε α} (hx : NeverRaises e x)
    (hy : NeverRaises e y) : NeverRaises e (if p then x else y) := by
  split
  · exact hx
  · exact hy

theorem NeverRaises.liftStatus {α : Type} {e : Status} {r : Except Status α} (hr : NeverRaises e r) :
    NeverRaises (.raise e) (liftStatus r) := by
  cases r with
  | error f => exact neverRaises_error fun hfe => hr (congrArg Except.error (Stop.raise.inj hfe))
  | ok a => exact neverRaises_ok _ a

/-- A read outside a memory raises no status at all. -/
theorem needed_neverRaises {α : Type} (e : Status) (o : Option α) : NeverRaises (.raise e) (needed o) := by
  cases o with
  | none => exact neverRaises_error nofun
  | some a => exact neverRaises_ok _ a

theorem malformed_neverRaises_ok {α : Type} : NeverRaises (.raise .ok) (malformed : Result α) := neverRaises_error nofun

theorem fromWords_neverRaises_ok (ws : List Word) : NeverRaises .ok (fromWords ws) :=
  .ite (neverRaises_error nofun) (neverRaises_ok _ _)

theorem extract_neverRaises_ok (w : BitWord) (lo hi : Nat) : NeverRaises .ok (extract w lo hi) :=
  .ite (neverRaises_ok _ _) (neverRaises_error nofun)

theorem insert_neverRaises_ok (w : BitWord) (lo hi value : Nat) : NeverRaises .ok (insert w lo hi value) :=
  .ite (.ite (neverRaises_ok _ _) (neverRaises_error nofun)) (neverRaises_error nofun)

theorem getBit_neverRaises_ok (w : BitWord) (i : Nat) : NeverRaises .ok (getBit w i) :=
  .ite (neverRaises_ok _ _) (neverRaises_error nofun)

theorem setBit_neverRaises_ok (w : BitWord) (i b : Nat) : NeverRaises .ok (setBit w i b) :=
  .ite (neverRaises_ok _ _) (neverRaises_error nofun)

theorem agree_neverRaises {α : Type} [DecidableEq α] {e f : Status} (h : e ≠ f) (acc : Option α) (xs : List α) :
    NeverRaises f (agree e acc xs) := fun hf => h (agree_error xs acc hf).symm

theorem saturate_neverRaises_ok (D : Desc) : NeverRaises .ok (saturate D) :=
  .ite (neverRaises_error nofun) (neverRaises_ok _ _)

theorem encodeFields_neverRaises_ok (P : Params) (D : Desc) : NeverRaises .ok (encodeFields P D) :=
  .ite (.bind (agree_neverRaises (by decide) _ _) fun _ => .bind (agree_neverRaises (by decide) _ _) fun _ =>
    .bind (agree_neverRaises (by decide) _ _) fun _ => .bind (saturate_neverRaises_ok D) fun _ => neverRaises_ok _ _)
    (neverRaises_error nofun)

theorem encodeDesc_neverRaises_ok (P : Params) (D : Desc) : NeverRaises .ok (encodeDesc P D) :=
  (encodeFields_neverRaises_ok P D).map _

theorem loadGroup_neverRaises_ok (b : Buffer) (sOff k : Nat) : NeverRaises (.raise .ok) (loadGroup b sOff k) :=
  .ite (neverRaises_error nofun) (needed_neverRaises _ _)

theorem disasmWords_neverRaises_ok (P : Params) (b : Buffer) (n : Nat) :
    ∀ a, NeverRaises (.raise .ok) (disasmWords P b n a) := by
  induction n with
  | zero => exact fun _ => neverRaises_ok _ _
  | succ n ih => exact fun a => .bind (needed_neverRaises _ _) fun _ => .bind (ih (a + 16)) fun _ => neverRaises_ok _ _

theorem disassemble_neverRaises_ok (P : Params) (b : Buffer) (sOff sLen : Nat) :
    NeverRaises (.raise .ok) (disassemble P b sOff sLen) :=
  .ite (neverRaises_error nofun) (disasmWords_neverRaises_ok P b _ _)

theorem readHeader_neverRaises_ok (b : Buffer) : NeverRaises (.raise .ok) (readHeader b) :=
  .ite malformed_neverRaises_ok (.bind (needed_neverRaises _ _) fun _ => neverRaises_ok _ _)

theorem checkHeader_neverRaises_ok (P : Params) (b : Buffer) (h : Header) : NeverRaises (.raise .ok) (checkHeader P b h) :=
  .ite malformed_neverRaises_ok <| .ite malformed_neverRaises_ok <| .ite malformed_neverRaises_ok <|
    .ite malformed_neverRaises_ok <| .ite (neverRaises_error nofun) (neverRaises_ok _ _)

theorem scanName_neverRaises_ok (b : Buffer) (fuel : Nat) : ∀ p, NeverRaises (.raise .ok) (scanName b fuel p) := by
  induction fuel with
  | zero => exact fun _ => malformed_neverRaises_ok
  | succ fuel ih =>
    exact fun p => .bind (needed_neverRaises _ _) fun _ =>
      .ite (neverRaises_ok _ _) (.bind (ih (p + 1)) fun _ => neverRaises_ok _ _)

theorem readName_neverRaises_ok (b : Buffer) (size off : Nat) : NeverRaises (.raise .ok) (readName b size off) :=
  .ite (neverRaises_ok _ _) <| .ite malformed_neverRaises_ok <|
    .bind (scanName_neverRaises_ok b _ _) fun _ => neverRaises_ok _ _

theorem readVector_neverRaises_ok (b : Buffer) (kind : SymKind) (off : Nat) :
    NeverRaises (.raise .ok) (readVector b kind off) :=
  .ite (.bind (needed_neverRaises _ _) fun _ => neverRaises_ok _ _) (neverRaises_ok _ _)

theorem parseRecord_neverRaises_ok (P : Params) (b : Buffer) (size i : Nat) :
    NeverRaises (.raise .ok) (parseRecord P b size i) :=
  .bind (needed_neverRaises _ _) fun _ => .bind (readName_neverRaises_ok b _ _) fun _ =>
    .ite malformed_neverRaises_ok (.bind (readVector_neverRaises_ok b _ _) fun _ => neverRaises_ok _ _)

theorem parseRecords_neverRaises_ok (P : Params) (b : Buffer) (size n : Nat) :
    ∀ i, NeverRaises (.raise .ok) (parseRecords P b size n i) := by
  induction n with
  | zero => exact fun _ => neverRaises_ok _ _
  | succ n ih =>
    exact fun i => .bind (parseRecord_neverRaises_ok P b size i) fun _ => .bind (ih (i + 1)) fun _ => neverRaises_ok _ _

theorem parse_neverRaises_ok (P : Params) (b : Buffer) : NeverRaises (.raise .ok) (parse P b) :=
  .bind (readHeader_neverRaises_ok b) fun _ => .bind (checkHeader_neverRaises_ok P b _) fun _ =>
    .bind (parseRecords_neverRaises_ok P b _ _ _) fun _ => neverRaises_ok _ _

end Sys2Proof.Proofs
end

section
/-! PROOFS. What reads memory sees only the bytes inside it (60_exceptions.md R257, 20_memory.md R50). -/

namespace Sys2Proof.Proofs

open Sys2Proof.Machine

section
variable {b c : Buffer}

theorem readByte_congr (h : b.same c) : readByte b = readByte c := by
  obtain ⟨hlen, hbyte⟩ := h
  funext a
  unfold readByte
  rw [← hlen]
  split
  · next ha => rw [hbyte a ha]
  · rfl

theorem readWord_congr (h : b.same c) : readWord b = readWord c := by
  obtain ⟨hlen, hbyte⟩ := h
  funext a
  unfold readWord
  rw [← hlen]
  split
  · rw [hbyte a (by omega), hbyte (a + 1) (by omega), hbyte (a + 2) (by omega), hbyte (a + 3) (by omega)]
  · rfl

theorem readWords_congr (h : b.same c) : readWords b = readWords c := by
  funext a n
  induction n generalizing a with
  | zero => rfl
  | succ n ih => rw [readWords, readWords, readWord_congr h, ih]

theorem readGroup_congr (h : b.same c) : readGroup b = readGroup c := by
  funext a
  unfold readGroup
  rw [readWord_congr h]

theorem loadGroup_congr (h : b.same c) : loadGroup b = loadGroup c := by
  funext sOff k
  unfold loadGroup
  rw [h.1, readGroup_congr h]

theorem disasmWords_congr (P : Params) (h : b.same c) : disasmWords P b = disasmWords P c := by
  funext n
  induction n with
  | zero => rfl
  | succ n ih => funext a; rw [disasmWords, disasmWords, readGroup_congr h, ih]

theorem disassemble_congr (P : Params) (h : b.same c) : disassemble P b = disassemble P c := by
  funext sOff sLen
  unfold disassemble
  rw [h.1, disasmWords_congr P h]

theorem readHeader_congr (h : b.same c) : readHeader b = readHeader c := by
  unfold readHeader
  rw [h.1, readWords_congr h]

theorem checkHeader_congr (P : Params) (h : b.same c) : checkHeader P b = checkHeader P c := by
  funext hdr
  unfold checkHeader
  rw [h.1]

theorem scanName_congr (h : b.same c) : scanName b = scanName c := by
  funext fuel
  induction fuel with
  | zero => rfl
  | succ fuel ih => funext p; rw [scanName, scanName, readByte_congr h, ih]

theorem readName_congr (h : b.same c) : readName b = readName c := by
  funext size off
  unfold readName
  rw [scanName_congr h]

theorem readVector_congr (h : b.same c) : readVector b = readVector c := by
  funext kind off
  unfold readVector
  rw [readWords_congr h]

theorem parseRecord_congr (P : Params) (h : b.same c) : parseRecord P b = parseRecord P c := by
  funext size i
  unfold parseRecord
  rw [readWords_congr h, readName_congr h, readVector_congr h]

theorem parseRecords_congr (P : Params) (h : b.same c) : parseRecords P b = parseRecords P c := by
  funext size n
  induction n with
  | zero => rfl
  | succ n ih => funext i; rw [parseRecords, parseRecords, parseRecord_congr P h, ih]

theorem parse_congr (P : Params) (h : b.same c) : parse P b = parse P c := by
  unfold parse
  rw [readHeader_congr h, checkHeader_congr P h, parseRecords_congr P h]

end

end Sys2Proof.Proofs
end

section
/-! PROOFS. Every command is one result, computed from what the command reads, and one write of it (10_state.md R33, R35,
60_exceptions.md R246). From this come the two columns of the access table. -/

namespace Sys2Proof.Proofs

open Sys2Proof.Machine

/-! ### A command as a result and a write -/

/-- What a command hands over when it succeeds. -/
def CommandOutput : Command → Type
  | .bwZero | .bwLoadw _ | .bwLoadb _ _ | .bwInsert _ _ _ | .bwSetbit _ _ | .enc => BitWord
  | .bwExtract _ _ | .bwGetbit _ => BitWord
  | .bwStorew => ReadOut
  | .parse => Parsed
  | .dec => DRec
  | .disasm _ _ => List Text

/-- What a command computes, before anything is written. -/
def commandResult (P : Params) : (c : Command) → State → Result (CommandOutput c)
  | .bwZero, _ => .ok (0 : BitWord)
  | .bwLoadw words, _ => liftStatus (fromWords words)
  | .bwLoadb sOff k, s => loadGroup s.strmView sOff k
  | .bwStorew, s => .ok ({ words := wordsOf s.w, bytes := bytesOfWords s.w } : ReadOut)
  | .bwExtract lo hi, s => liftStatus (extract s.w lo hi)
  | .bwInsert lo hi value, s => liftStatus (insert s.w lo hi value)
  | .bwGetbit i, s => liftStatus (getBit s.w i)
  | .bwSetbit i b, s => liftStatus (setBit s.w i b)
  | .parse, s => parse P s.bufView
  | .enc, s => liftStatus (encodeDesc P s.d)
  | .dec, s => .ok (decodeFields P s.w)
  | .disasm sOff sLen, s => disassemble P s.strmView sOff sLen

/-- Where a command puts what it computed (10_state.md R35, column "writes on success"). -/
def commandWrite (P : Params) (s : State) : (c : Command) → CommandOutput c → State
  | .bwZero, x | .bwLoadw _, x | .bwLoadb _ _, x | .bwInsert _ _ _, x | .bwSetbit _ _, x | .enc, x => { s with w := x }
  | .bwExtract _ _, x | .bwGetbit _, x => { s with r := x }
  | .bwStorew, x => { s with out := some x }
  | .parse, p => s.writeParsed p
  | .dec, r => s.showRec P r
  | .disasm _ _, ts => { s with txt := .many ts }

/-- Every command of the machine is its result, written at once or refused. ENC and DEC are so because each instruction of
the table runs the shared side of its form. -/
theorem runCommandIn_eq_finish (P : Params) (c : Command) (s : State) :
    runCommandIn P c s = finish s ((commandResult P c s).map (commandWrite P s c)) := by
  cases c with
  | enc => exact runEnc_eq P s
  | dec => exact runDec_eq P s
  | _ => rfl

/-- The inversion of a command: it wrote its result, or it was refused with `ST` alone. -/
theorem runCommand_next {c : Command} {s t : State} (h : runCommand c s = .next t) :
    (∃ x, commandResult params c s = .ok x ∧ t = (commandWrite params s c x).succeed) ∨
      ∃ e, commandResult params c s = .error (.raise e) ∧ t = s.raise e := by
  rw [runCommand_eq, runCommandIn_eq_finish] at h
  cases hr : commandResult params c s with
  | ok x =>
    rw [hr] at h
    exact .inl ⟨x, rfl, (Host.Outcome.next.inj h).symm⟩
  | error stop =>
    rw [hr] at h
    cases stop with
    | raise e => exact .inr ⟨e, rfl, (Host.Outcome.next.inj h).symm⟩
    | outside => exact nomatch h

/-- No refusal carries the status OK, so `ST = OK` says that the command wrote its result. -/
theorem commandResult_neverRaises_ok (P : Params) (c : Command) (s : State) :
    NeverRaises (.raise .ok) (commandResult P c s) := by
  cases c with
  | bwZero | bwStorew | dec => exact neverRaises_ok _ _
  | bwLoadw words => exact (fromWords_neverRaises_ok words).liftStatus
  | bwLoadb sOff k => exact loadGroup_neverRaises_ok _ sOff k
  | bwExtract lo hi => exact (extract_neverRaises_ok _ lo hi).liftStatus
  | bwInsert lo hi value => exact (insert_neverRaises_ok _ lo hi value).liftStatus
  | bwGetbit i => exact (getBit_neverRaises_ok _ i).liftStatus
  | bwSetbit i b => exact (setBit_neverRaises_ok _ i b).liftStatus
  | parse => exact parse_neverRaises_ok P _
  | enc => exact (encodeDesc_neverRaises_ok P _).liftStatus
  | disasm sOff sLen => exact disassemble_neverRaises_ok P _ sOff sLen

/-! ### The column "reads" -/

/-- A command's result is a function of what the command reads. -/
theorem commandResult_congr (P : Params) {s s' : State} {c : Command} (h : Command.inputsAgree s s' c) :
    commandResult P c s = commandResult P c s' := by
  cases c with
  | bwZero | bwLoadw _ => rfl
  | bwLoadb sOff k => exact congrFun₂ (loadGroup_congr h) sOff k
  | disasm sOff sLen => exact congrFun₂ (disassemble_congr P h) sOff sLen
  | parse => exact parse_congr P h
  | enc => exact congrArg (fun D => liftStatus (encodeDesc P D)) h
  | dec => exact congrArg (fun w => Except.ok (decodeFields P w)) h
  | bwStorew => exact congrArg (fun w => Except.ok (ReadOut.mk (wordsOf w) (bytesOfWords w))) h
  | bwExtract lo hi => exact congrArg (fun w => liftStatus (extract w lo hi)) h
  | bwInsert lo hi value => exact congrArg (fun w => liftStatus (insert w lo hi value)) h
  | bwGetbit i => exact congrArg (fun w => liftStatus (getBit w i)) h
  | bwSetbit i b => exact congrArg (fun w => liftStatus (setBit w i b)) h

/-- One result written into two states leaves them agreeing on all the command writes. -/
theorem outputsAgree_commandWrite (P : Params) (s s' : State) (c : Command) (x : CommandOutput c) :
    Command.outputsAgree (commandWrite P s c x).succeed (commandWrite P s' c x).succeed c := by
  cases c with
  | parse => exact ⟨rfl, rfl, rfl, rfl⟩
  | dec => exact ⟨rfl, rfl⟩
  | _ => rfl

/-- Settles O53: both runs compute one result, and end as that result says. -/
theorem commandsReadTheirColumn : Obligations.CommandsReadTheirColumn := by
  intro c s s' t t' hin h h'
  have hcongr := commandResult_congr params hin
  obtain ⟨x, hx, rfl⟩ | ⟨e, he, rfl⟩ := runCommand_next h <;>
    obtain ⟨x', hx', rfl⟩ | ⟨e', he', rfl⟩ := runCommand_next h'
  · obtain rfl : x = x' := Except.ok.inj (hx.symm.trans (hcongr.trans hx'))
    exact ⟨rfl, fun _ => outputsAgree_commandWrite params s s' c x⟩
  · exact nomatch hx.symm.trans (hcongr.trans he')
  · exact nomatch he.symm.trans (hcongr.trans hx')
  · obtain rfl : e = e' := Stop.raise.inj (Except.error.inj (he.symm.trans (hcongr.trans he')))
    refine ⟨rfl, fun hok => ?_⟩
    obtain rfl : e = .ok := hok
    exact absurd he (commandResult_neverRaises_ok params c s)

/-! ### The column "writes on success" -/

/-- The memories read as before when neither the written bytes nor the reset count has changed. -/
theorem views_eq {s t : State} (hbuf : t.buf = s.buf) (hstrm : t.strm = s.strm) (hepoch : t.epoch = s.epoch) :
    t.bufView = s.bufView ∧ t.strmView = s.strmView := by
  unfold State.bufView State.strmView
  rw [hbuf, hstrm, hepoch]
  exact ⟨rfl, rfl⟩

/-- What no command writes. -/
theorem commandWrite_frame (P : Params) (s : State) (c : Command) (x : CommandOutput c) :
    (commandWrite P s c x).d = s.d ∧ (commandWrite P s c x).buf = s.buf ∧ (commandWrite P s c x).strm = s.strm ∧
      (commandWrite P s c x).host = s.host ∧ (commandWrite P s c x).epoch = s.epoch := by
  cases c <;> exact ⟨rfl, rfl, rfl, rfl, rfl⟩

/-- A command leaves the host's inputs and plan and the reset count, whether it succeeds or is refused. -/
theorem runCommand_frame {c : Command} {s t : State} (h : runCommand c s = .next t) :
    t.d = s.d ∧ t.buf = s.buf ∧ t.strm = s.strm ∧ t.host = s.host ∧ t.epoch = s.epoch := by
  obtain ⟨x, -, rfl⟩ | ⟨e, -, rfl⟩ := runCommand_next h
  · exact commandWrite_frame params s c x
  · exact ⟨rfl, rfl, rfl, rfl, rfl⟩

/-- Settles O52: a command that succeeds makes its one write, and a refused one writes `ST` alone. -/
theorem commandsWriteTheirColumn : Obligations.CommandsWriteTheirColumn := by
  intro c s t h
  obtain ⟨hd, hbuf, hstrm, hhost, hepoch⟩ := runCommand_frame h
  obtain ⟨hbufView, hstrmView⟩ := views_eq hbuf hstrm hepoch
  refine ⟨hd, hbuf, hstrm, hhost, hepoch, fun a => by rw [hbufView], fun a => by rw [hstrmView], ?_⟩
  obtain ⟨x, -, rfl⟩ | ⟨e, -, rfl⟩ := runCommand_next h
  · cases c <;> rfl
  · cases c <;> rfl

end Sys2Proof.Proofs
end

section
/-! PROOFS. The frame of the 24 instructions (10_state.md R35, 42_encoder.md R167, 43_decoder.md R194). -/

namespace Sys2Proof.Proofs

open Sys2Proof.Machine

/-- An instruction whose operands are a word's fields shows a record. -/
theorem exec_of_word {i : Instr} (h : i.isWord = true) (s : State) : ∃ r, exec i s = showRecord params s r := by
  obtain ⟨m, f, rfl⟩ | ⟨m, f, rfl⟩ := instr_row_cases i
  · obtain ⟨o, rfl⟩ := vecForm_isWord_iff.mp ((isWord_ofVec m f).symm.trans h)
    exact ⟨_, exec_ofVec m _ s⟩
  · obtain ⟨o, rfl⟩ := scaForm_isWord_iff.mp ((isWord_ofSca m f).symm.trans h)
    exact ⟨_, exec_ofSca m _ s⟩

/-- An instruction whose operands are a descriptor encodes a descriptor. -/
theorem exec_of_desc {i : Instr} (h : i.isWord = false) (s : State) : ∃ D, exec i s = encodeInto params s D := by
  obtain ⟨m, f, rfl⟩ | ⟨m, f, rfl⟩ := instr_row_cases i
  · cases f with
    | word o => exact absurd h (by rw [isWord_ofVec]; exact nofun)
    | desc o => exact ⟨_, exec_ofVec m _ s⟩
  · cases f with
    | word o => exact absurd h (by rw [isWord_ofSca]; exact nofun)
    | desc o => exact ⟨_, exec_ofSca m _ s⟩

/-- The encode side writes the word and `ST = OK`, or `ST` alone. -/
theorem encodeInto_next {P : Params} {s t : State} {D : Desc} (h : encodeInto P s D = .next t) :
    (∃ x, t = { s with w := x, st := .ok }) ∨ ∃ e, t = s.raise e := by
  cases hD : encodeDesc P D with
  | ok x => exact .inl ⟨x, Host.Outcome.next.inj (h.symm.trans (encodeInto_ok hD))⟩
  | error e => exact .inr ⟨e, Host.Outcome.next.inj (h.symm.trans (encodeInto_error hD))⟩

/-- What an instruction can do: show a record (word form), write the encoded word, or be refused (descriptor form). -/
theorem exec_next {i : Instr} {s t : State} (h : exec i s = .next t) :
    (i.isWord = true ∧ ∃ r, t = (s.showRec params r).succeed) ∨
      (i.isWord = false ∧ ((∃ x, t = { s with w := x, st := .ok }) ∨ ∃ e, t = s.raise e)) := by
  cases hi : i.isWord with
  | true =>
    obtain ⟨r, hr⟩ := exec_of_word hi s
    rw [hr, showRecord_eq] at h
    exact .inl ⟨rfl, r, (Host.Outcome.next.inj h).symm⟩
  | false =>
    obtain ⟨D, hD⟩ := exec_of_desc hi s
    exact .inr ⟨rfl, encodeInto_next (hD.symm.trans h)⟩

/-- Settles O30, by the three things an instruction can do. -/
theorem instructionsLeaveTheRest : Obligations.InstructionsLeaveTheRest := by
  intro i s t h
  obtain ⟨hi, r, rfl⟩ | ⟨hi, ⟨x, rfl⟩ | ⟨e, rfl⟩⟩ := exec_next h <;>
    refine ⟨rfl, rfl, rfl, rfl, rfl, rfl, rfl, rfl, rfl, rfl, rfl, fun _ => rfl, fun _ => rfl, fun hword => ?_,
      fun hdesc => ?_⟩
  · exact ⟨rfl, rfl⟩
  · exact nomatch hi.symm.trans hdesc
  · exact nomatch hi.symm.trans hword
  · exact ⟨rfl, rfl, fun hst => absurd rfl hst⟩
  · exact nomatch hi.symm.trans hword
  · exact ⟨rfl, rfl, fun _ => rfl⟩

end Sys2Proof.Proofs
end

section
/-! PROOFS. What a parsed container gives (41_container.md R121 to R133), the diagnostics (10_state.md R30), and the
invariant of the registers and memories (10_state.md R25, R28 to R30). -/

namespace Sys2Proof.Proofs

open Sys2Proof.Machine

/-! ### The parts of a parsed container -/

theorem bind_ok {ε α β : Type} {r : Except ε α} {f : α → Except ε β} {y : β} (h : (r >>= f) = .ok y) :
    ∃ a, r = .ok a ∧ f a = .ok y := by
  cases r with
  | error e => exact nomatch h
  | ok a => exact ⟨a, rfl, h⟩

/-- A parsed container has passed the header's checks and resolved every record. -/
theorem parse_ok {P : Params} {b : Buffer} {p : Parsed} (h : parse P b = .ok p) :
    readHeader b = .ok p.hdr ∧ checkHeader P b p.hdr = .ok () ∧
      parseRecords P b p.hdr.size.toNat p.hdr.numSymbols.toNat 0 = .ok p.syms ∧ p.diag = diagFrom 0 p.syms := by
  obtain ⟨hdr, hhdr, h⟩ := bind_ok h
  obtain ⟨⟨⟩, hcheck, h⟩ := bind_ok h
  obtain ⟨ss, hss, h⟩ := bind_ok h
  obtain rfl := Except.ok.inj h
  exact ⟨hhdr, hcheck, hss, rfl⟩

/-- The fields of a header the parser goes by. -/
theorem readHeader_ok {b : Buffer} {h : Header} (hb : readHeader b = .ok h) :
    h.size = b.word 8 ∧ h.numSymbols = b.word 12 ∧ h.ptype = ptypeOf h.type := by
  by_cases hlen : 48 ≤ b.len
  · obtain rfl := Except.ok.inj ((readHeader_of_le b hlen).symm.trans hb)
    exact ⟨rfl, rfl, rfl⟩
  · rw [readHeader, if_pos (show b.len < headerBytes from Nat.lt_of_not_le hlen)] at hb
    exact nomatch hb

/-- A header that passes its checks: the container lies inside the buffer, the records inside the container, and the
symbols fit. -/
theorem checkHeader_ok {P : Params} {b : Buffer} {h : Header} (hc : checkHeader P b h = .ok ()) :
    h.size.toNat ≤ b.len ∧ 48 + 48 * h.numSymbols.toNat ≤ h.size.toNat ∧ h.numSymbols.toNat ≤ P.maxSymbols := by
  unfold checkHeader headerBytes recordBytes at hc
  split at hc
  · exact nomatch hc
  split at hc
  · exact nomatch hc
  split at hc
  · exact nomatch hc
  split at hc
  · exact nomatch hc
  split at hc
  · exact nomatch hc
  omega

/-- The symbols are the resolved records, in order. -/
theorem parseRecords_ok {P : Params} {b : Buffer} {size : Nat} (n : Nat) : ∀ {i : Nat} {ss : List SymbolRec},
    parseRecords P b size n i = .ok ss →
      ss.length = n ∧ ∀ k y, ss[k]? = some y → parseRecord P b size (i + k) = .ok y := by
  induction n with
  | zero =>
    intro i ss h
    obtain rfl := Except.ok.inj h
    exact ⟨rfl, fun k y hy => nomatch hy⟩
  | succ n ih =>
    intro i ss h
    obtain ⟨y, hy, h⟩ := bind_ok h
    obtain ⟨ys, hys, h⟩ := bind_ok h
    obtain rfl := Except.ok.inj h
    obtain ⟨hlen, hget⟩ := ih hys
    refine ⟨congrArg (· + 1) hlen, fun k z hz => ?_⟩
    cases k with
    | zero => exact Option.some.inj hz ▸ hy
    | succ k => exact Nat.add_right_comm i k 1 ▸ hget k z hz

/-! ### The diagnostics -/

/-- A symbol gives a diagnostic exactly when its record has the constant's tag and no values offset. -/
theorem diagnosed_iff {P : Params} {b : Buffer} {i : Nat} {y : SymbolRec} (h : SymbolIs P b i y) :
    diagnosed y = true ↔ b.num (48 + 48 * i + 4) = 0x1007 ∧ b.num (48 + 48 * i + 16) = 0 := by
  have hkind : y.kind = .constant ↔ b.num (48 + 48 * i + 4) = 0x1007 := by
    rw [h.kind_is]
    split_ifs <;> simp_all
  have hvalues := h.values_is
  unfold diagnosed
  rw [Bool.and_eq_true, decide_eq_true_iff, Bool.not_eq_true', ← Bool.not_eq_true, hkind, hvalues]
  tauto

/-- The symbol at each place of a container with the default record layout. -/
theorem parse_symbolIs {P : Params} {b : Buffer} {p : Parsed} (hL : P.symRec = defaultSymRec) (h : parse P b = .ok p) :
    p.syms.length = b.num 12 ∧ ∀ i y, p.syms[i]? = some y → SymbolIs P b i y := by
  obtain ⟨hhdr, hcheck, hrecs, -⟩ := parse_ok h
  obtain ⟨hsize, hnum, -⟩ := readHeader_ok hhdr
  obtain ⟨hinside, hroom, -⟩ := checkHeader_ok hcheck
  rw [hsize] at hinside hroom hrecs
  rw [hnum] at hroom hrecs
  obtain ⟨hlen, hget⟩ := parseRecords_ok _ hrecs
  refine ⟨hlen, fun i y hy => ?_⟩
  have hi : i < (b.word 12).toNat := hlen ▸ (List.getElem?_eq_some_iff.mp hy).1
  have hrec : parseRecord P b (b.num 8) i = .ok y := Nat.zero_add i ▸ hget i y hy
  have hroom' : 48 + 48 * i + 48 ≤ b.num 8 := by unfold Buffer.num; omega
  obtain ⟨-, herr⟩ | ⟨-, z, hz, hsym⟩ := parseRecord_cases P hL b i hinside hroom'
  · exact nomatch hrec.symm.trans herr
  · exact Except.ok.inj (hrec.symm.trans hz) ▸ hsym

theorem parse_diag {P : Params} {b : Buffer} {p : Parsed} (hL : P.symRec = defaultSymRec) (h : parse P b = .ok p) :
    p.diag.Pairwise (· < ·) ∧
      ∀ i, i ∈ p.diag ↔ i < b.num 12 ∧ b.num (48 + 48 * i + 4) = 0x1007 ∧ b.num (48 + 48 * i + 16) = 0 := by
  obtain ⟨-, -, -, hdiag⟩ := parse_ok h
  obtain ⟨hlen, hsym⟩ := parse_symbolIs hL h
  obtain ⟨hrising, hmem⟩ := diagFrom_cases p.syms 0
  rw [hdiag]
  refine ⟨hrising, fun i => (hmem i).trans ⟨?_, ?_⟩⟩
  · rintro ⟨y, -, hy, hd⟩
    exact ⟨hlen ▸ (List.getElem?_eq_some_iff.mp hy).1, (diagnosed_iff (hsym i y hy)).mp hd⟩
  · rintro ⟨hi, htag⟩
    have hy := List.getElem?_eq_getElem (hlen.symm ▸ hi : i < p.syms.length)
    exact ⟨_, Nat.zero_le i, hy, (diagnosed_iff (hsym i _ hy)).mpr htag⟩

/-- PARSE of a container that parses. -/
theorem runCommand_parse_ok {s : State} {p : Parsed} (h : parse params s.bufView = .ok p) :
    runCommand .parse s = .next (s.writeParsed p).succeed := by
  rw [runCommand_eq, runCommandIn_eq_finish, commandResult, h]
  rfl

/-- Settles O43, from the symbols of the records and the writes of PARSE. -/
theorem diagnosticsListTheConstants : Obligations.DiagnosticsListTheConstants :=
  ⟨fun _ _ _ hL h => parse_diag hL h, fun _ _ h => ⟨_, runCommand_parse_ok h, rfl, rfl⟩⟩

/-! ### The invariant -/

theorem parseRecord_good {P : Params} {b : Buffer} {size i : Nat} {y : SymbolRec}
    (h : parseRecord P b size i = .ok y) : y.good := by
  obtain ⟨r, -, h⟩ := bind_ok h
  obtain ⟨name, -, h⟩ := bind_ok h
  split at h
  · exact nomatch h
  obtain ⟨vec, hvec, h⟩ := bind_ok h
  obtain rfl := Except.ok.inj h
  refine ⟨fun hv => ?_, fun hv => ?_⟩
  · exact of_decide_eq_true (Bool.and_eq_true_iff.mp hv).1
  · rw [readVector, if_neg (Bool.not_eq_true _ ▸ hv)] at hvec
    exact (Except.ok.inj hvec).symm

/-- The registers PARSE writes meet the invariant, whatever the rest of the state holds. -/
theorem writeParsed_good {s : State} (hs : s.Good) {b : Buffer} {p : Parsed} (h : parse params b = .ok p) :
    (s.writeParsed p).Good := by
  obtain ⟨hhdr, hcheck, hrecs, hdiag⟩ := parse_ok h
  obtain ⟨-, -, hptype⟩ := readHeader_ok hhdr
  obtain ⟨-, -, hfits⟩ := checkHeader_ok hcheck
  obtain ⟨hlen, hget⟩ := parseRecords_ok _ hrecs
  have hnsym : BitVec.ofNat 32 p.syms.length = p.hdr.numSymbols := by rw [hlen, BitVec.ofNat_toNat, BitVec.setWidth_eq]
  exact {
    buf_wf := hs.buf_wf
    strm_wf := hs.strm_wf
    nsym_counts := (congrArg BitVec.toNat hnsym).trans hlen.symm
    sym_fits := hlen.trans_le hfits
    nsym_header := hnsym
    sym_good := fun y hy =>
      let ⟨k, hk⟩ := List.mem_iff_getElem?.mp hy
      parseRecord_good (hget k y hk)
    diag_lists := hdiag
    ptype_of := hptype
    drec_decodes := hs.drec_decodes }

/-- The invariant speaks of the memories, the parsed registers and `DREC` only. -/
theorem good_of_eq {s t : State} (hs : s.Good) (hbuf : t.buf = s.buf) (hstrm : t.strm = s.strm) (hhdr : t.hdr = s.hdr)
    (hnsym : t.nsym = s.nsym) (hsym : t.sym = s.sym) (hdiag : t.diag = s.diag) (hdrec : t.drec = s.drec) : t.Good := by
  constructor <;> simp only [hbuf, hstrm, hhdr, hnsym, hsym, hdiag, hdrec]
  exacts [hs.buf_wf, hs.strm_wf, hs.nsym_counts, hs.sym_fits, hs.nsym_header, hs.sym_good, hs.diag_lists, hs.ptype_of,
    hs.drec_decodes]

/-- Completion and refusal write `ST`, which the invariant does not mention. -/
theorem raise_good {s : State} (hs : s.Good) (e : Status) : (s.raise e).Good :=
  good_of_eq hs rfl rfl rfl rfl rfl rfl rfl

/-- DEC leaves the decode of the word in `W`. -/
theorem showRec_good {s : State} (hs : s.Good) (w : BitWord) : (s.showRec params (decodeFields params w)).Good :=
  { hs with drec_decodes := ⟨w, rfl⟩ }

theorem commandWrite_good {s : State} (hs : s.Good) {c : Command} {x : CommandOutput c}
    (hx : commandResult params c s = .ok x) : (commandWrite params s c x).Good := by
  cases c with
  | parse => exact writeParsed_good hs hx
  | dec => exact Except.ok.inj hx ▸ showRec_good hs s.w
  | _ => exact good_of_eq hs rfl rfl rfl rfl rfl rfl rfl

theorem runCommand_good {c : Command} {s t : State} (hs : s.Good) (h : runCommand c s = .next t) : t.Good := by
  obtain ⟨x, hx, rfl⟩ | ⟨e, -, rfl⟩ := runCommand_next h
  · exact raise_good (commandWrite_good hs hx) .ok
  · exact raise_good hs e

/-- The record after reset is that of the zero word. -/
theorem absentRec_eq_decodeFields_zero : absentRec = decodeFields params 0 := by decide

/-- The reset event gives a good state, whatever stood before (70_reset_and_hazards.md R270). -/
theorem afterReset_good (s : State) : s.afterReset.Good where
  buf_wf := emptyMemory_wf
  strm_wf := emptyMemory_wf
  nsym_counts := rfl
  sym_fits := Nat.zero_le _
  nsym_header := rfl
  sym_good := nofun
  diag_lists := rfl
  ptype_of := rfl
  drec_decodes := ⟨0, absentRec_eq_decodeFields_zero⟩

theorem runAction_good {a : HostAction} {s t : State} (hs : s.Good) (h : runAction params exec a s = .next t) :
    t.Good := by
  cases a with
  | command c => exact runCommand_good hs h
  | writeD d => exact Host.Outcome.next.inj h ▸ good_of_eq hs rfl rfl rfl rfl rfl rfl rfl
  | writeBuf addr bytes =>
    exact Host.Outcome.next.inj h ▸ { hs with buf_wf := Memory.wf_writeBytes hs.buf_wf addr bytes }
  | setBufLen n => exact Host.Outcome.next.inj h ▸ { hs with buf_wf := Memory.wf_setLen hs.buf_wf n }
  | writeStrm addr bytes =>
    exact Host.Outcome.next.inj h ▸ { hs with strm_wf := Memory.wf_writeBytes hs.strm_wf addr bytes }
  | setStrmLen n => exact Host.Outcome.next.inj h ▸ { hs with strm_wf := Memory.wf_setLen hs.strm_wf n }
  | reset => exact Host.Outcome.next.inj h ▸ afterReset_good s

/-- Settles O56: the block waits, or it carries out the host's next action, which keeps the invariant. -/
theorem goodIsKept : Obligations.GoodIsKept := by
  intro s t hs h
  unfold step stepWith at h
  split at h
  · exact Host.Outcome.next.inj h ▸ hs
  · next a rest _ =>
    have hrest : State.Good { s with host := rest } := good_of_eq hs rfl rfl rfl rfl rfl rfl rfl
    exact runAction_good hrest h

end Sys2Proof.Proofs
end

section
/-! PROOFS. What the host writes to a byte memory is what is read there (20_memory.md R51, 70_reset_and_hazards.md R275). -/

namespace Sys2Proof.Proofs

open Sys2Proof.Machine

/-! ### Bytes written from an address on -/

/-- Outside the addresses written every byte is as before. -/
theorem byte_writeBytes_outside {m : Memory} (h : m.wf) (free : Nat → Byte) {a c : Nat} {vs : List Byte}
    (hc : c < a ∨ a + vs.length ≤ c) : (m.writeBytes a vs).byte free c = m.byte free c := by
  induction vs generalizing m a with
  | nil => rfl
  | cons v vs ih =>
    rw [List.length_cons] at hc
    calc ((m.write a v).writeBytes (a + 1) vs).byte free c
      _ = (m.write a v).byte free c := ih (Memory.wf_write h a v) (by omega)
      _ = m.byte free c := by rw [Memory.byte_write h, if_neg (by omega)]

/-- The `j`-th byte written stands `j` addresses further on. -/
theorem byte_writeBytes_inside {m : Memory} (h : m.wf) (free : Nat → Byte) (a : Nat) {vs : List Byte} {j : Nat}
    (hj : j < vs.length) : vs[j]? = some ((m.writeBytes a vs).byte free (a + j)) := by
  induction vs generalizing m a j with
  | nil => exact absurd hj (Nat.not_lt_zero j)
  | cons v vs ih =>
    have hw : (m.write a v).wf := Memory.wf_write h a v
    cases j with
    | zero =>
      have hread : ((m.write a v).writeBytes (a + 1) vs).byte free a = v := by
        rw [byte_writeBytes_outside hw free (.inl (by omega)), Memory.byte_write h, if_pos rfl]
      exact congrArg some hread.symm
    | succ j =>
      rw [List.getElem?_cons_succ, ← Nat.succ_add_eq_add_succ]
      exact ih hw (a + 1) (Nat.lt_of_succ_lt_succ hj)

/-! ### The host's write as a step -/

/-- A step carries out the host's oldest action. -/
theorem step_of_host {s : State} {a : HostAction} {rest : List HostAction} (h : s.host = a :: rest) :
    step s = runAction params exec a { s with host := rest } := by
  unfold step stepWith
  rw [h]

/-- Settles O3: the next state holds the written memory, and the laws of `writeBytes` say what is read from it. -/
theorem hostWritesAreRead : Obligations.HostWritesAreRead := by
  intro s a bs rest hbuf hstrm
  refine ⟨fun h => ⟨_, step_of_host h, rfl, ?_⟩, fun h => ⟨_, step_of_host h, rfl, ?_⟩⟩
  · exact ⟨Memory.wf_writeBytes hbuf a bs, Memory.len_writeBytes s.buf a bs,
      fun j => byte_writeBytes_inside hbuf _ a, fun c => byte_writeBytes_outside hbuf _, fun c => rfl⟩
  · exact ⟨Memory.wf_writeBytes hstrm a bs, Memory.len_writeBytes s.strm a bs,
      fun j => byte_writeBytes_inside hstrm _ a, fun c => byte_writeBytes_outside hstrm _, fun c => rfl⟩

end Sys2Proof.Proofs
end

section
/-! PROOFS. The order of bytes: a word and its four bytes, a group and its sixteen (20_memory.md R42 to R44). -/

namespace Sys2Proof.Proofs

open Sys2Proof.Machine

/-! ### Four parts of one width -/

/-- A list of four entries given by their index. -/
theorem getD_four {α : Type} (f : Nat → α) (d : α) {k : Nat} (hk : k < 4) : [f 0, f 1, f 2, f 3].getD k d = f k := by
  obtain rfl | rfl | rfl | rfl : k = 0 ∨ k = 1 ∨ k = 2 ∨ k = 3 := by omega
  all_goals rfl

section
variable {n : Nat}

/-- Bit `n * k + r` of four joined parts is bit `r` of part `k`, the last of them being part 0. -/
theorem getLsbD_append_four (p0 p1 p2 p3 : BitVec n) {k r : Nat} (hk : k < 4) (hr : r < n) :
    (p3 ++ p2 ++ p1 ++ p0).getLsbD (n * k + r) = ([p0, p1, p2, p3].getD k 0).getLsbD r := by
  simp only [BitVec.getLsbD_append]
  obtain rfl | rfl | rfl | rfl : k = 0 ∨ k = 1 ∨ k = 2 ∨ k = 3 := by omega
  · rw [if_pos (by omega), Nat.mul_zero, Nat.zero_add]; rfl
  · rw [if_neg (by omega), if_pos (by omega), show n * 1 + r - n = r by omega]; rfl
  · rw [if_neg (by omega), if_neg (by omega), if_pos (by omega), show n * 2 + r - n - n = r by omega]; rfl
  · rw [if_neg (by omega), if_neg (by omega), if_neg (by omega), show n * 3 + r - n - n - n = r by omega]; rfl

/-- The four parts of a bit vector, least significant first. -/
def parts (x : BitVec (n + n + n + n)) : List (BitVec n) :=
  [x.extractLsb' (n * 0) n, x.extractLsb' (n * 1) n, x.extractLsb' (n * 2) n, x.extractLsb' (n * 3) n]

/-- Joined parts are cut out again. -/
theorem parts_append_four (p0 p1 p2 p3 : BitVec n) : parts (p3 ++ p2 ++ p1 ++ p0) = [p0, p1, p2, p3] := by
  have hcut : ∀ k, k < 4 → (p3 ++ p2 ++ p1 ++ p0).extractLsb' (n * k) n = [p0, p1, p2, p3].getD k 0 := by
    intro k hk
    apply BitVec.eq_of_getLsbD_eq
    intro r hr
    rw [BitVec.getLsbD_extractLsb', decide_eq_true hr, Bool.true_and, getLsbD_append_four _ _ _ _ hk hr]
  rw [parts, hcut 0 (by omega), hcut 1 (by omega), hcut 2 (by omega), hcut 3 (by omega)]
  rfl

/-- Cut parts joined again give the whole. -/
theorem append_four_parts (x : BitVec (n + n + n + n)) :
    x.extractLsb' (n * 3) n ++ x.extractLsb' (n * 2) n ++ x.extractLsb' (n * 1) n ++ x.extractLsb' (n * 0) n = x := by
  apply BitVec.eq_of_getLsbD_eq
  intro i hi
  have hn : 0 < n := by omega
  have hk : i / n < 4 := (Nat.div_lt_iff_lt_mul hn).mpr (by omega)
  have hr : i % n < n := Nat.mod_lt i hn
  rw [← Nat.div_add_mod i n, getLsbD_append_four _ _ _ _ hk hr,
    getD_four (fun k => x.extractLsb' (n * k) n) 0 hk, BitVec.getLsbD_extractLsb', decide_eq_true hr, Bool.true_and]

end

/-! ### A word and its four bytes -/

/-- The bytes of a word are its parts (20_memory.md R42). -/
theorem bytesOfWord_eq_parts (x : Word) : bytesOfWord x = parts (n := 8) x := rfl

theorem bytesOfWord_wordOfBytes (b0 b1 b2 b3 : Byte) : bytesOfWord (wordOfBytes b0 b1 b2 b3) = [b0, b1, b2, b3] :=
  (bytesOfWord_eq_parts _).trans (parts_append_four b0 b1 b2 b3)

/-- The four bytes of a word make that word. -/
theorem wordInBytes_bytesOfWord (x : Word) : wordInBytes (bytesOfWord x) 0 = x := append_four_parts (n := 8) x

/-- The high part of a concatenation counts `2 ^ n` times. -/
theorem toNat_append_eq_add {m n : Nat} (x : BitVec m) (y : BitVec n) :
    (x ++ y).toNat = x.toNat * 2 ^ n + y.toNat := by
  rw [BitVec.toNat_append, ← Nat.shiftLeft_add_eq_or_of_lt y.isLt, Nat.shiftLeft_eq]

/-- The little-endian sum (20_memory.md R42). -/
theorem toNat_wordOfBytes (b0 b1 b2 b3 : Byte) :
    (wordOfBytes b0 b1 b2 b3).toNat = b0.toNat + b1.toNat * 2 ^ 8 + b2.toNat * 2 ^ 16 + b3.toNat * 2 ^ 24 := by
  unfold wordOfBytes
  simp only [toNat_append_eq_add]
  omega

/-- Numeric bits `8 * k` to `8 * k + 7` of the word at offset `a` are those of byte `a + k`. -/
theorem getLsbD_wordInBytes (g : List Byte) (a : Nat) {k r : Nat} (hk : k < 4) (hr : r < 8) :
    (wordInBytes g a).getLsbD (8 * k + r) = (g.getD (a + k) 0).getLsbD r := by
  rw [← getD_four (fun j => g.getD (a + j) 0) 0 hk]
  exact getLsbD_append_four _ _ _ _ hk hr

/-! ### The container and its four words -/

/-- The words of a container are its parts, the most significant first (00_scope.md R10). -/
theorem wordsOf_eq_parts (x : BitWord) : wordsOf x = (parts (n := 32) x).reverse := rfl

theorem wordsOf_ofWords (w0 w1 w2 w3 : Word) : wordsOf (ofWords w0 w1 w2 w3) = [w0, w1, w2, w3] :=
  (wordsOf_eq_parts _).trans (congrArg List.reverse (parts_append_four w3 w2 w1 w0))

theorem ofWords_wordAt (x : BitWord) : ofWords (wordAt x 0) (wordAt x 1) (wordAt x 2) (wordAt x 3) = x :=
  append_four_parts (n := 32) x

/-- Spec bit `b` stands in word `b / 32` at numeric bit `31 - b % 32` (00_scope.md R10). -/
theorem bit_ofWords (w0 w1 w2 w3 : Word) {b : Nat} (hb : b < 128) :
    bit (ofWords w0 w1 w2 w3) b = ([w0, w1, w2, w3].getD (b / 32) 0).getLsbD (31 - b % 32) := by
  have hword := calc [w3, w2, w1, w0].getD (3 - b / 32) 0
    _ = [w0, w1, w2, w3].getD (3 - (3 - b / 32)) 0 :=
      getD_four (fun k => [w0, w1, w2, w3].getD (3 - k) 0) 0 (by omega)
    _ = [w0, w1, w2, w3].getD (b / 32) 0 := by rw [Nat.sub_sub_self (by omega)]
  rw [bit_eq, show 127 - b = 32 * (3 - b / 32) + (31 - b % 32) by omega, ← hword]
  exact getLsbD_append_four w3 w2 w1 w0 (by omega) (by omega)

/-! ### The container and its sixteen bytes -/

theorem bytesOfWords_eq_flatMap (x : BitWord) : bytesOfWords x = (wordsOf x).flatMap bytesOfWord := by
  simp [bytesOfWords, wordsOf]

/-- The container of an image is the one the image is of (20_memory.md R44). -/
theorem wordsOfBytes_bytesOfWords (x : BitWord) : wordsOfBytes (bytesOfWords x) = x := by
  have hwords : wordsOfBytes (bytesOfWords x) =
      ofWords (wordInBytes (bytesOfWord (wordAt x 0)) 0) (wordInBytes (bytesOfWord (wordAt x 1)) 0)
        (wordInBytes (bytesOfWord (wordAt x 2)) 0) (wordInBytes (bytesOfWord (wordAt x 3)) 0) := rfl
  simp only [hwords, wordInBytes_bytesOfWord, ofWords_wordAt]

/-- A list is its entries at its indices. -/
theorem map_getD_range {g : List Byte} {n : Nat} (hg : g.length = n) : (List.range n).map (g.getD · 0) = g := by
  apply List.ext_getElem
  · simp [hg]
  · intro i _ hi
    simp [hi]

/-- The image of a container is the group it was made of (20_memory.md R44). -/
theorem bytesOfWords_wordsOfBytes {g : List Byte} (hg : g.length = 16) : bytesOfWords (wordsOfBytes g) = g := by
  rw [bytesOfWords_eq_flatMap, wordsOfBytes, wordsOf_ofWords]
  simp only [List.flatMap_cons, List.flatMap_nil, wordInBytes, bytesOfWord_wordOfBytes]
  exact map_getD_range hg

/-- Where a spec bit stands in the group (20_memory.md R43). -/
theorem bit_wordsOfBytes (g : List Byte) {b : Nat} (hb : b < 128) :
    bit (wordsOfBytes g) b = (g.getD (4 * (b / 32) + 3 - b % 32 / 8) 0).getLsbD (7 - b % 8) := by
  have hword : [wordInBytes g 0, wordInBytes g 4, wordInBytes g 8, wordInBytes g 12].getD (b / 32) 0 =
      wordInBytes g (4 * (b / 32)) := getD_four (fun k => wordInBytes g (4 * k)) 0 (by omega)
  rw [wordsOfBytes, bit_ofWords _ _ _ _ hb, hword,
    show 31 - b % 32 = 8 * (3 - b % 32 / 8) + (7 - b % 8) by omega,
    getLsbD_wordInBytes _ _ (by omega) (by omega),
    show 4 * (b / 32) + (3 - b % 32 / 8) = 4 * (b / 32) + 3 - b % 32 / 8 by omega]

/-! ### Reads of memory -/

theorem readWord_outside {b : Buffer} {a : Nat} (h : b.len < a + 4) : readWord b a = none := if_neg (by omega)

/-- A group inside the memory is the container of its sixteen bytes. -/
theorem readGroup_eq_wordsOfBytes {m : Buffer} {a : Nat} (h : a + 16 ≤ m.len) :
    readGroup m a = some (wordsOfBytes ((List.range 16).map fun j => m.byte (a + j))) := by
  unfold readGroup
  rw [readWord_of_le (by omega), readWord_of_le (by omega), readWord_of_le (by omega), readWord_of_le (by omega)]
  rfl

/-- Settles O14: `readWord` joins the four bytes, and joining counts byte `j` `2 ^ (8 * j)` times. -/
theorem wordsAreLittleEndian : Obligations.WordsAreLittleEndian :=
  fun _ _ => ⟨fun h => ⟨_, readWord_of_le h, toNat_wordOfBytes _ _ _ _, rfl⟩, readWord_outside⟩

/-- The image of the spec's example (20_memory.md R44). -/
theorem bytesOfWords_example : bytesOfWords (ofWords 0x80078000 0x03006d00 0x363110e0 0) =
    [0x00, 0x80, 0x07, 0x80, 0x00, 0x6d, 0x00, 0x03, 0xe0, 0x10, 0x31, 0x36, 0, 0, 0, 0] := by decide

/-- Settles O15: cutting into parts and joining undo each other, for a word's bytes and for a container's words. -/
theorem byteImageIsExact : Obligations.ByteImageIsExact :=
  ⟨wordsOfBytes_bytesOfWords, fun _ => bytesOfWords_wordsOfBytes, fun g _ _ => bit_wordsOfBytes g,
    fun _ _ => readGroup_eq_wordsOfBytes, bytesOfWords_example⟩

end Sys2Proof.Proofs
end

section
/-! PROOFS. An instruction read from a word is well formed, and its own word has the word's fields (30_encoding.md R76,
R79, 00_scope.md R7). -/

namespace Sys2Proof.Proofs

open Sys2Proof.Machine

/-! ### Which halves have a row -/

theorem vecRow_eq_some_iff {P : Params} {mask : BitVec 4} {op : BitVec 5} {m : VMnemonic} :
    vecRow P mask op = some m ↔ present mask = true ∧ vLookup P op = some m :=
  Option.ite_none_right_eq_some

theorem scaRow_eq_some_iff {P : Params} {mask op : BitVec 4} {m : SMnemonic} :
    scaRow P mask op = some m ↔ present mask = true ∧ sLookup P op = some m :=
  Option.ite_none_right_eq_some

/-! ### What a decoded instruction is -/

/-- The decoder answers the vector half's row, or the scalar half's where the vector half has none. -/
theorem decodeFieldsInstr_ok {P : Params} {F : Fields} {i : Instr} (h : decodeFieldsInstr P F = .ok i) :
    (∃ m, vecRow P F.vec.mask F.vec.op = some m ∧ i = Instr.ofVec m (.word F.vecWord)) ∨
    (vecRow P F.vec.mask F.vec.op = none ∧
      ∃ m, scaRow P F.sc.mask F.sc.op = some m ∧ i = Instr.ofSca m (.word F.scaWord)) := by
  cases hv : vecRow P F.vec.mask F.vec.op with
  | some m => exact .inl ⟨m, rfl, Except.ok.inj (h.symm.trans (decodeFieldsInstr_of_vecRow hv))⟩
  | none =>
    cases hs : scaRow P F.sc.mask F.sc.op with
    | some m => exact .inr ⟨rfl, m, rfl, Except.ok.inj (h.symm.trans (decodeFieldsInstr_of_scaRow hv hs))⟩
    | none =>
      unfold decodeFieldsInstr at h
      rw [hv, hs] at h
      exact nomatch h

/-- Taking the opcode out of a record and putting it back changes nothing. -/
@[simp] theorem vecWord_toFields_op (F : Fields) : F.vecWord.toFields F.vec.op = F := rfl
@[simp] theorem scaWord_toFields_op (F : Fields) : F.scaWord.toFields F.sc.op = F := rfl

/-- A decoded instruction is a well-formed word form that encodes to the word of the fields it was read from. -/
theorem decodeFieldsInstr_ok_encode {P : Params} {F : Fields} {i : Instr} (h : decodeFieldsInstr P F = .ok i) :
    i.wellFormedIn P = true ∧ i.isWord = true ∧ encode P i = .ok (writeFields P F) := by
  obtain ⟨m, hrow, rfl⟩ | ⟨hvec, m, hrow, rfl⟩ := decodeFieldsInstr_ok h
  · obtain ⟨hpresent, hop⟩ := vecRow_eq_some_iff.mp hrow
    refine ⟨(wellFormedIn_ofVec P m _).trans hpresent, isWord_ofVec m _, ?_⟩
    rw [encode_ofVec, VecForm.toWord, vLookup_some hop, vecWord_toFields_op]
  · obtain ⟨hpresent, hop⟩ := scaRow_eq_some_iff.mp hrow
    have hknown : knownVec P F.vec.mask F.vec.op = false := vecRow_eq_none_iff.mp hvec
    refine ⟨(wellFormedIn_ofSca P m _).trans ?_, isWord_ofSca m _, ?_⟩
    · exact Bool.and_eq_true_iff.mpr ⟨hpresent, (Bool.not_eq_true' _).mpr hknown⟩
    · rw [encode_ofSca, ScaForm.toWord, sLookup_some hop, scaWord_toFields_op]

/-- Settles O23: the instruction's word is the zero word with the fields of the word it was read from. -/
theorem encodeOfDecodeKeepsTheFields : Obligations.EncodeOfDecodeKeepsTheFields := by
  intro P x i hP h
  obtain ⟨hwf, hword, hencode⟩ := decodeFieldsInstr_ok_encode h
  refine ⟨hwf, hword, _, hencode, fun f => ?_, bit_writeFields_reserved P hP _⟩
  rw [getField_writeFields hP, getField_eq_fieldValue]

end Sys2Proof.Proofs
end

section
/-! PROOFS. The rows of the opcode table and words written out in bits (30_encoding.md R63, R77 to R79). -/

namespace Sys2Proof.Proofs

open Sys2Proof.Machine

/-! ### The decoder on a table word -/

theorem length_bytesOfWords (x : BitWord) : (bytesOfWords x).length = 16 := rfl

/-- The decoder on the sixteen bytes of a container is the decoder on the container. -/
theorem decodeBytes_bytesOfWords (P : Params) (x : BitWord) :
    decodeBytes P (bytesOfWords x) = (decodeWord P x).map fun i => (i, []) := by
  unfold decodeBytes
  rw [if_neg (by rw [length_bytesOfWords]; decide), List.take_of_length_le (length_bytesOfWords x).le,
    List.drop_of_length_le (length_bytesOfWords x).le, wordsOfBytes_bytesOfWords]

theorem tableWord_eq_ofNat (w : Nat) : tableWord 128 w = BitVec.ofNat 128 w :=
  BitVec.eq_of_toNat_eq (by simp [tableWord])

/-- A table word holds the instruction of the container with that value. -/
theorem decodeTableWord_of_decodeWord {w : Nat} {i : Instr} (h : decodeWord params (BitVec.ofNat 128 w) = .ok i) :
    decodeTableWord 128 w = some i := by
  unfold decodeTableWord
  rw [tableWord_eq_ofNat, decodeBytes_bytesOfWords, h]
  rfl

/-! ### The fields of a container given as a number -/

/-- A field is the run of bits that ends at numeric bit `127 - hi` (00_scope.md R10). -/
theorem getField_eq_extractLsb' (P : Params) (x : BitWord) (f : Field) :
    getField P x f = x.extractLsb' (127 - P.hi f) f.width := by
  apply BitVec.eq_of_getLsbD_eq
  intro i hi
  rw [getField, BitVec.getLsbD_setWidth, getLsbD_rangeValue, field_hi_sub_lo, BitVec.getLsbD_extractLsb',
    decide_eq_true hi, Bool.true_and, Bool.true_and]

theorem toNat_getField_ofNat (P : Params) {w : Nat} (hw : w < 2 ^ 128) (f : Field) :
    (getField P (BitVec.ofNat 128 w) f).toNat = (w >>> (127 - P.hi f)) % 2 ^ f.width := by
  rw [getField_eq_extractLsb', BitVec.extractLsb'_toNat, BitVec.toNat_ofNat, Nat.mod_eq_of_lt hw]

/-- A number that shows `n` under a mask of `k` ones from bit `s` on has `n` in those bits. -/
theorem mod_shiftRight_of_and_mask {w n k s : Nat} (h : w &&& ((2 ^ k - 1) <<< s) = n <<< s) :
    (w >>> s) % 2 ^ k = n := by
  have hshift := congrArg (· >>> s) h
  simpa only [Nat.shiftRight_and_distrib, Nat.shiftLeft_shiftRight, Nat.and_two_pow_sub_one_eq_mod] using hshift

/-- A container matches a table pattern over a field exactly as its field has the pattern's value. -/
theorem getField_of_match {P : Params} {w : Nat} (hw : w < 2 ^ 128) {f : Field} {n : BitVec f.width}
    (h : w &&& ((2 ^ f.width - 1) <<< (127 - P.hi f)) = n.toNat <<< (127 - P.hi f)) :
    getField P (BitVec.ofNat 128 w) f = n :=
  BitVec.eq_of_toNat_eq ((toNat_getField_ofNat P hw f).trans (mod_shiftRight_of_and_mask h))

theorem getField_ofNat_eq_zero_iff (P : Params) {w : Nat} (hw : w < 2 ^ 128) (f : Field) :
    getField P (BitVec.ofNat 128 w) f = 0 ↔ (w >>> (127 - P.hi f)) % 2 ^ f.width = 0 := by
  rw [← toNat_getField_ofNat P hw f, ← BitVec.toNat_inj, BitVec.ofNat_eq_ofNat, BitVec.toNat_zero]

/-! ### The rows -/

theorem present_iff {mask : BitVec 4} : present mask = true ↔ mask ≠ 0 := bne_iff_ne

/-- The vector row of a number whose `vop` bits, 37 to 41, are the row's and whose `vmask` bits, 111 to 114, are not
all zero. -/
theorem vecRow_of_match {r : VecRow} (hr : r ∈ vectorRows) {w : Nat} (hw : w < 2 ^ 128)
    (hop : w &&& 0x3e000000000 = r.number.toNat <<< 37) (hmask : (w >>> 111) % 16 ≠ 0) :
    vecRow params (getField params (BitVec.ofNat 128 w) .vmask) (getField params (BitVec.ofNat 128 w) .vop) =
      some r.mnemonic := by
  obtain ⟨-, hnumber, -, -⟩ := vectorRows_agree hr
  have hvop : getField params (BitVec.ofNat 128 w) .vop = r.number := getField_of_match (f := .vop) hw hop
  have hpresent : present (getField params (BitVec.ofNat 128 w) .vmask) = true :=
    present_iff.mpr fun h0 => hmask ((getField_ofNat_eq_zero_iff params hw .vmask).mp h0)
  rw [hvop, hnumber, vecRow_vnum params_valid _ hpresent]

/-- The scalar row of a number whose `sop` bits, 33 to 36, are the row's and whose `smask` bits, 107 to 110, are not
all zero. -/
theorem scaRow_of_match {r : ScaRow} (hr : r ∈ scalarRows) {w : Nat} (hw : w < 2 ^ 128)
    (hop : w &&& 0x1e00000000 = r.number.toNat <<< 33) (hmask : (w >>> 107) % 16 ≠ 0) :
    scaRow params (getField params (BitVec.ofNat 128 w) .smask) (getField params (BitVec.ofNat 128 w) .sop) =
      some r.mnemonic := by
  obtain ⟨-, hnumber, -⟩ := scalarRows_agree hr
  have hsop : getField params (BitVec.ofNat 128 w) .sop = r.number := getField_of_match (f := .sop) hw hop
  have hpresent : present (getField params (BitVec.ofNat 128 w) .smask) = true :=
    present_iff.mpr fun h0 => hmask ((getField_ofNat_eq_zero_iff params hw .smask).mp h0)
  rw [hsop, hnumber, scaRow_snum params_valid _ hpresent]

/-- No vector row in a number whose `vmask` bits are zero or whose `vop` bits are in no row. -/
theorem vecRow_eq_none_of_table {w : Nat} (hw : w < 2 ^ 128)
    (h : (w >>> 111) % 16 = 0 ∨ vLookup params (BitVec.ofNat 5 (w >>> 37)) = none) :
    vecRow params (getField params (BitVec.ofNat 128 w) .vmask) (getField params (BitVec.ofNat 128 w) .vop) = none := by
  obtain hmask | hop := h
  · rw [(getField_ofNat_eq_zero_iff params hw .vmask).mpr hmask]
    rfl
  · have hvop : getField params (BitVec.ofNat 128 w) .vop = BitVec.ofNat 5 (w >>> 37) :=
      BitVec.eq_of_toNat_eq (toNat_getField_ofNat params hw .vop)
    rw [hvop, vecRow, hop, ite_self]

/-- Settles O59: the bits under a row's mask are the opcode field, and a half with a row decides the constructor. -/
theorem opcodeTableRowsDecode : Obligations.OpcodeTableRowsDecode := by
  refine ⟨fun r hr w hw hop hmask => ?_, fun r hr w hw hop hmask hvec => ?_⟩
  · obtain ⟨hmake, -⟩ := vectorRows_agree hr
    rw [hmake]
    exact ⟨_, decodeTableWord_of_decodeWord (decodeFieldsInstr_of_vecRow (vecRow_of_match hr hw hop hmask))⟩
  · obtain ⟨hmake, -⟩ := scalarRows_agree hr
    rw [hmake]
    exact ⟨_, decodeTableWord_of_decodeWord
      (decodeFieldsInstr_of_scaRow (vecRow_eq_none_of_table hw hvec) (scaRow_of_match hr hw hop hmask))⟩

/-! ### The default positions, and words written out at them -/

/-- Settles O60: each position of the table, and each of the 128 bits, is looked at. -/
theorem defaultLayoutIsTheTable : Obligations.DefaultLayoutIsTheTable := ⟨by decide, by decide⟩

/-- A container that is the word of a vector row's fields reads, as a table word, as the row. -/
theorem decodeTableWord_of_vecWord (m : VMnemonic) {x : BitWord} {o : VecWord}
    (hwf : (VecForm.word o).wellFormed = true) (hx : x = writeFields params (o.toFields (params.vnum m))) :
    decodeTableWord 128 x.toNat = some (Instr.ofVec m (.word o)) := by
  apply decodeTableWord_of_decodeWord
  rw [BitVec.ofNat_toNat, BitVec.setWidth_eq, hx, decodeWord_vecWord params_valid m hwf]

/-- The same for a scalar row. -/
theorem decodeTableWord_of_scaWord (m : SMnemonic) {x : BitWord} {o : ScaWord}
    (hwf : (ScaForm.word o).wellFormed params = true) (hx : x = writeFields params (o.toFields (params.snum m))) :
    decodeTableWord 128 x.toNat = some (Instr.ofSca m (.word o)) := by
  apply decodeTableWord_of_decodeWord
  rw [BitVec.ofNat_toNat, BitVec.setWidth_eq, hx, decodeWord_scaWord params_valid m hwf]

/-- Settles O58: each sequence of bits is the word of the fields named beside it. -/
theorem writtenOutWordsDecode : Obligations.WrittenOutWordsDecode :=
  ⟨decodeTableWord_of_vecWord .dp4 (by decide) (by decide), decodeTableWord_of_scaWord .rcp (by decide) (by decide),
    decodeTableWord_of_vecWord .mad (by decide) (by decide)⟩

end Sys2Proof.Proofs
end

section
/-! PROOFS. What the record of a word is a function of, and so what it does not show (30_encoding.md R80, R81, R83,
43_decoder.md R181, R196). -/

namespace Sys2Proof.Proofs

open Sys2Proof.Machine

/-! ### The halves of a record -/

theorem vecRec_of_present {P : Params} {F : Fields} (h : F.vec.mask ≠ 0) :
    vecRec P F = some (vecRecNamed F (vName P F.vec.op) (vArity P F.vec.op)) := if_pos (bne_iff_ne.mpr h)

theorem scaRec_of_present {P : Params} {F : Fields} (h : F.sc.mask ≠ 0) :
    scaRec P F = some (scaRecNamed F (sName P F.sc.op)) := if_pos (bne_iff_ne.mpr h)

theorem vecRec_of_absent {P : Params} {F : Fields} (h : F.vec.mask = 0) : vecRec P F = none :=
  if_neg (by rw [present, bne_iff_ne]; exact not_not_intro h)

theorem scaRec_of_absent {P : Params} {F : Fields} (h : F.sc.mask = 0) : scaRec P F = none :=
  if_neg (by rw [present, bne_iff_ne]; exact not_not_intro h)

theorem vName_of_unknown {P : Params} {n : BitVec 5} (h : vLookup P n = none) : vName P n = .unknown n := by
  rw [vName, h]

theorem vArity_of_unknown {P : Params} {n : BitVec 5} (h : vLookup P n = none) : vArity P n = 3 := by
  rw [vArity, h]; rfl

theorem sName_of_unknown {P : Params} {n : BitVec 4} (h : sLookup P n = none) : sName P n = .unknown n := by
  rw [sName, h]

/-! ### Unknown opcodes -/

/-- Settles O34: the tables are searched number by number, and an unknown number has the arity 3 and its own name. -/
theorem unknownOpcodesDecode : Obligations.UnknownOpcodesDecode := by
  refine ⟨by decide, by decide, fun P F hmask hop => ?_, fun P F hmask hop => ?_, fun P D i hmask hop hi => ?_⟩
  · refine ⟨_, vecRec_of_present hmask, vName_of_unknown hop, vArity_of_unknown hop, ?_, ?_⟩
    · rw [vArity_of_unknown hop]; rfl
    · rw [vName_of_unknown hop]; rfl
  · refine ⟨_, scaRec_of_present hmask, sName_of_unknown hop, rfl, ?_⟩
    rw [sName_of_unknown hop]; rfl
  · have hslot : i < vArity P D.vop := (vArity_of_unknown hop).symm ▸ hi
    rw [used, present, bne_iff_ne.mpr hmask, decide_eq_true hslot]
    rfl

/-! ### Slot 2 in both halves -/

/-- A vector half shown is the present op's record. -/
theorem eq_of_vecRec_eq_some {P : Params} {F : Fields} {v : VecRec} (h : vecRec P F = some v) :
    v = vecRecNamed F (vName P F.vec.op) (vArity P F.vec.op) :=
  (Option.some.inj (Option.ite_none_right_eq_some.mp h).2).symm

/-- A scalar half shown is the present op's record. -/
theorem eq_of_scaRec_eq_some {P : Params} {F : Fields} {c : ScaRec} (h : scaRec P F = some c) :
    c = scaRecNamed F (sName P F.sc.op) :=
  (Option.some.inj (Option.ite_none_right_eq_some.mp h).2).symm

/-- Settles O35: the third of three vector sources and the one scalar source are both slot 2, resolved alike. -/
theorem bothOpsShareSlotTwo : Obligations.BothOpsShareSlotTwo := by
  intro P w v c hv hc harity
  obtain rfl := eq_of_vecRec_eq_some hv
  obtain rfl := eq_of_scaRec_eq_some hc
  have hthree : vArity P (readFields P w).vec.op = 3 := harity
  refine ⟨srcOf (readFields P w).sh (readFields P w).s2, ?_, rfl⟩
  rw [hthree]
  rfl

/-! ### What the record is a function of -/

/-- Two field records that agree on all the decoder shows: the flags, the enabled gate, the present ops with their
destinations, and the sources of the slots a present op uses. -/
structure ShownAlike (P : Params) (F G : Fields) : Prop where
  last : F.sh.last = G.sh.last := by rfl
  sat : F.sh.sat = G.sh.sat := by rfl
  gate : predOf F.sh = predOf G.sh := by rfl
  vmask : F.vec.mask = G.vec.mask := by rfl
  smask : F.sc.mask = G.sc.mask := by rfl
  vop : G.vec.mask ≠ 0 → F.vec.op = G.vec.op := by exact fun _ => rfl
  sop : G.sc.mask ≠ 0 → F.sc.op = G.sc.op := by exact fun _ => rfl
  vdst : G.vec.mask ≠ 0 → dstOf F.sh F.vec.dst = dstOf G.sh G.vec.dst := by exact fun _ => rfl
  sdst : G.sc.mask ≠ 0 → dstOf F.sh F.sc.dst = dstOf G.sh G.sc.dst := by exact fun _ => rfl
  srcs : ∀ i, usesSlot P G i → srcOf F.sh (F.slot i) = srcOf G.sh (G.slot i) := by exact fun _ _ => rfl

theorem usesSlot_lt_three {P : Params} {F : Fields} {i : Nat} (h : usesSlot P F i) : i < 3 := by
  obtain ⟨-, hi⟩ | ⟨-, rfl⟩ := h
  · exact hi.trans_le (vArity_le P F.vec.op)
  · decide

/-- The sources of a vector op are those of its first slots. -/
theorem vecSrcs_congr {F G : Fields} {n : Nat} (hn : n ≤ 3)
    (h : ∀ i, i < n → srcOf F.sh (F.slot i) = srcOf G.sh (G.slot i)) : vecSrcs F n = vecSrcs G n := by
  have hslots : ∀ H : Fields, vecSrcs H n = (List.range n).map fun i => srcOf H.sh (H.slot i) := by
    intro H
    obtain rfl | rfl | rfl | rfl : n = 0 ∨ n = 1 ∨ n = 2 ∨ n = 3 := by omega
    all_goals rfl
  rw [hslots, hslots]
  exact List.map_congr_left fun i hi => h i (List.mem_range.mp hi)

namespace ShownAlike

variable {P : Params} {F G : Fields}

theorem vecRec_eq (h : ShownAlike P F G) : vecRec P F = vecRec P G := by
  by_cases hmask : G.vec.mask = 0
  · rw [vecRec_of_absent (h.vmask.trans hmask), vecRec_of_absent hmask]
  · have hsrcs : vecSrcs F (vArity P G.vec.op) = vecSrcs G (vArity P G.vec.op) :=
      vecSrcs_congr (vArity_le P G.vec.op) fun i hi => h.srcs i (.inl ⟨hmask, hi⟩)
    rw [vecRec_of_present (h.vmask ▸ hmask), vecRec_of_present hmask, h.vop hmask, vecRecNamed, vecRecNamed,
      h.vop hmask, h.vdst hmask, h.vmask, hsrcs]

theorem scaRec_eq (h : ShownAlike P F G) : scaRec P F = scaRec P G := by
  by_cases hmask : G.sc.mask = 0
  · rw [scaRec_of_absent (h.smask.trans hmask), scaRec_of_absent hmask]
  · have hsrc : srcOf F.sh F.s2 = srcOf G.sh G.s2 := h.srcs 2 (.inr ⟨hmask, rfl⟩)
    rw [scaRec_of_present (h.smask ▸ hmask), scaRec_of_present hmask, h.sop hmask, scaRecNamed, scaRecNamed,
      h.sop hmask, h.sdst hmask, h.smask, hsrc]

theorem recOfFields_eq (h : ShownAlike P F G) : recOfFields P F = recOfFields P G := by
  rw [recOfFields, recOfFields, h.vecRec_eq, h.scaRec_eq, recWith, recWith, h.last, h.sat, h.gate, h.vmask, h.smask]

end ShownAlike

/-! ### What the operands do not show -/

/-- A gate that is off shows neither of its other fields. -/
theorem predOf_disabled {sh : Shared} (h : sh.pen = false) (n : Bool) (z : BitVec 8) :
    predOf { sh with pneg := n, pswz := z } = predOf sh := by
  simp [predOf, h]

/-- A slot of a type with a shared fetch index does not show its own index. -/
theorem srcOf_idx {sh : Shared} {s : Slot} (h : s.type = 2 ∨ s.type = 3) (k : BitVec 6) :
    srcOf sh { s with idx := k } = srcOf sh s := by
  obtain h | h := h <;> simp [srcOf, h]

theorem srcOf_cfetch {sh : Shared} {s : Slot} (h : s.type ≠ 3) (n : BitVec 8) :
    srcOf { sh with cfetch := n } s = srcOf sh s := by
  simp only [srcOf, if_neg h]

theorem srcOf_afetch {sh : Shared} {s : Slot} (h : s.type ≠ 2) (n : BitVec 4) :
    srcOf { sh with afetch := n } s = srcOf sh s := by
  simp only [srcOf, if_neg h]

/-- The shared target shows only in a varying destination. -/
theorem dstOf_tgt {sh : Shared} {d : BitVec 6} (h : sh.vflag = false ∨ d ≠ 63) (n : BitVec 5) :
    dstOf { sh with tgt := n } d = dstOf sh d := by
  obtain h | h := h
  · simp [dstOf, h]
  · exact (if_pos h).trans (if_pos h).symm

/-! ### What the record does not show -/

/-- Slot 0 shows, at most, as the source it stands for. -/
theorem recOfFields_s0 {P : Params} {F : Fields} {z : Slot}
    (h : usesSlot P F 0 → srcOf F.sh z = srcOf F.sh F.s0) : recOfFields P { F with s0 := z } = recOfFields P F := by
  refine ShownAlike.recOfFields_eq { srcs := fun i hi => ?_ }
  match i with
  | 0 => exact h hi
  | 1 | _ + 2 => rfl

theorem recOfFields_s1 {P : Params} {F : Fields} {z : Slot}
    (h : usesSlot P F 1 → srcOf F.sh z = srcOf F.sh F.s1) : recOfFields P { F with s1 := z } = recOfFields P F := by
  refine ShownAlike.recOfFields_eq { srcs := fun i hi => ?_ }
  match i with
  | 1 => exact h hi
  | 0 | _ + 2 => rfl

theorem recOfFields_s2 {P : Params} {F : Fields} {z : Slot}
    (h : usesSlot P F 2 → srcOf F.sh z = srcOf F.sh F.s2) : recOfFields P { F with s2 := z } = recOfFields P F := by
  refine ShownAlike.recOfFields_eq { srcs := fun i hi => ?_ }
  match i, usesSlot_lt_three hi with
  | 2, _ => exact h hi
  | 0, _ | 1, _ => rfl

/-- The shared target does not show where no present op writes a varying. -/
theorem recOfFields_tgt {P : Params} {F : Fields}
    (h : F.sh.vflag = false ∨ (F.vec.mask = 0 ∨ F.vec.dst ≠ 63) ∧ (F.sc.mask = 0 ∨ F.sc.dst ≠ 63)) (n : BitVec 5) :
    recOfFields P { F with sh := { F.sh with tgt := n } } = recOfFields P F := by
  have hvec (hmask : F.vec.mask ≠ 0) : F.sh.vflag = false ∨ F.vec.dst ≠ 63 :=
    h.imp_right fun hdst => hdst.1.resolve_left hmask
  have hsc (hmask : F.sc.mask ≠ 0) : F.sh.vflag = false ∨ F.sc.dst ≠ 63 :=
    h.imp_right fun hdst => hdst.2.resolve_left hmask
  exact ShownAlike.recOfFields_eq
    { vdst := fun hmask => dstOf_tgt (hvec hmask) n, sdst := fun hmask => dstOf_tgt (hsc hmask) n }

/-- An absent vector op's opcode and destination do not show. -/
theorem recOfFields_vec_absent {P : Params} {F : Fields} (h : F.vec.mask = 0) (n : BitVec 5) (d : BitVec 6) :
    recOfFields P { F with vec := { op := n, mask := 0, dst := d } } = recOfFields P F :=
  ShownAlike.recOfFields_eq
    { vmask := h.symm, vop := fun hmask => absurd h hmask, vdst := fun hmask => absurd h hmask }

/-- An absent scalar op's opcode and destination do not show. -/
theorem recOfFields_sc_absent {P : Params} {F : Fields} (h : F.sc.mask = 0) (n : BitVec 4) (d : BitVec 6) :
    recOfFields P { F with sc := { op := n, mask := 0, dst := d } } = recOfFields P F :=
  ShownAlike.recOfFields_eq
    { smask := h.symm, sop := fun hmask => absurd h hmask, sdst := fun hmask => absurd h hmask }

/-- The text of a record without ops is the marker of the last word, if anything. -/
theorem render_of_absent {P : Params} {F : Fields} (hv : F.vec.mask = 0) (hs : F.sc.mask = 0) (T : TextStrings) :
    render T (recOfFields P F) = joinLines T.newline (if F.sh.last then [T.lastLine] else []) := by
  rw [render, renderLines, recOfFields, vecRec_of_absent hv, scaRec_of_absent hs]
  rfl

/-- The field record is a function of the fields. -/
theorem readFields_congr {P : Params} {x y : BitWord} (h : ∀ f : Field, getField P x f = getField P y f) :
    readFields P x = readFields P y := by
  simp only [readFields, h]

/-- Settles O33: each change keeps all that the record is a function of, and without ops the text is a function of the
last flag alone. -/
theorem whatTheDecoderDoesNotShow : Obligations.WhatTheDecoderDoesNotShow := by
  refine fun P => ⟨fun x y h => congrArg (recOfFields P) (readFields_congr h), fun F => ?_⟩
  refine ⟨?gate, ?idx0, ?idx1, ?idx2, ?predicate, recOfFields_vec_absent, recOfFields_sc_absent, ?unused0, ?unused1,
    ?unused2, recOfFields_tgt, ?cfetch, ?afetch, ?text, ?typeZero⟩
  case gate => exact fun h n z => ShownAlike.recOfFields_eq { gate := predOf_disabled h n z }
  case idx0 => exact fun h k => recOfFields_s0 fun _ => srcOf_idx h k
  case idx1 => exact fun h k => recOfFields_s1 fun _ => srcOf_idx h k
  case idx2 => exact fun h k => recOfFields_s2 fun _ => srcOf_idx h k
  case predicate =>
    intro h
    simp [dstOf, sentinel, h]
  case unused0 => exact fun h z => recOfFields_s0 fun hused => absurd hused h
  case unused1 => exact fun h z => recOfFields_s1 fun hused => absurd hused h
  case unused2 => exact fun h z => recOfFields_s2 fun hused => absurd hused h
  case cfetch =>
    intro h n
    exact ShownAlike.recOfFields_eq { srcs := fun i hi => srcOf_cfetch (h i (usesSlot_lt_three hi) hi) n }
  case afetch =>
    intro h n
    exact ShownAlike.recOfFields_eq { srcs := fun i hi => srcOf_afetch (h i (usesSlot_lt_three hi) hi) n }
  case text =>
    intro hv hs a b
    rw [render_of_absent (F := { F with sh := { F.sh with sat := a, vflag := b } }) hv hs, render_of_absent hv hs]
  case typeZero =>
    intro i h
    simp [srcOf, h]

end Sys2Proof.Proofs
end

section
/-! PROOFS. The header, the kind tags and the type table of a container (30_encoding.md R89, R92, R93). -/

namespace Sys2Proof.Proofs

open Sys2Proof.Machine

/-- A header is read of 48 bytes or more (41_container.md R121). -/
theorem le_len_of_readHeader_ok {b : Buffer} {h : Header} (hb : readHeader b = .ok h) : 48 ≤ b.len := by
  by_contra hlen
  rw [readHeader, if_pos (show b.len < headerBytes from Nat.lt_of_not_le hlen)] at hb
  exact nomatch hb

/-- Settles O41: a parsed container's header is the one that was read. -/
theorem parsedHeaderIsCopied : Obligations.ParsedHeaderIsCopied := by
  intro P b p h
  obtain ⟨hhdr, -⟩ := parse_ok h
  exact Except.ok.inj (hhdr.symm.trans (readHeader_of_le b (le_len_of_readHeader_ok hhdr)))

/-- A key is found where its image under an injective function is. -/
theorem lookup_map_key {α β γ : Type} [DecidableEq α] [DecidableEq β] {f : α → β} (hf : Function.Injective f)
    (a : α) (l : List (α × γ)) : (l.map fun p => (f p.1, p.2)).lookup (f a) = l.lookup a := by
  induction l with
  | nil => rfl
  | cons p l ih =>
    have hkey : (f a == f p.1) = (a == p.1) := by rw [Bool.eq_iff_iff, beq_iff_eq, beq_iff_eq, hf.eq_iff]
    rw [List.map_cons, List.lookup_cons, List.lookup_cons, hkey, ih]

/-- The default type table, searched by the number of the low byte. -/
theorem typeOf_params (x : Word) :
    typeOf params x = ((defaultDtype.map fun p => (p.1.toNat, p.2)).lookup (x.toNat % 256)).getD .unknown := by
  have hbyte : (x.setWidth 8).toNat = x.toNat % 256 := BitVec.toNat_setWidth 8 x
  rw [← hbyte, lookup_map_key fun _ _ => BitVec.eq_of_toNat_eq]
  rfl

/-- Settles O44: the tags are compared one by one, and the table's bytes are its numbers. -/
theorem tagAndTypeTables : Obligations.TagAndTypeTables := by
  refine ⟨rfl, rfl, rfl, fun t h1 h2 h3 => ?_, typeOf_params⟩
  exact (if_neg h1).trans ((if_neg h2).trans (if_neg h3))

end Sys2Proof.Proofs
end

section
/-! PROOFS. The bit container: where its bits stand (40_bitword.md R100, R109), ranges of bits (R104 to R108), and the eight
commands on it (R101 to R107, R111). -/

namespace Sys2Proof.Proofs

open Sys2Proof.Machine

/-! ### Spec bits and words -/

/-- A container is known by its spec bits. -/
theorem eq_of_bit_eq {x y : BitWord} (h : ∀ b, b < 128 → bit x b = bit y b) : x = y := by
  apply BitVec.eq_of_getLsbD_eq
  intro i hi
  have hbit := h (127 - i) (by omega)
  rwa [bit_eq, bit_eq, Nat.sub_sub_self (by omega)] at hbit

/-- Numeric bit `p` of word `k` is spec bit `32 * k + (31 - p)` (00_scope.md R10). -/
theorem getLsbD_wordAt (w : BitWord) {k p : Nat} (hk : k < 4) (hp : p < 32) :
    (wordAt w k).getLsbD p = bit w (32 * k + (31 - p)) := by
  rw [wordAt, BitVec.getLsbD_extractLsb', decide_eq_true hp, Bool.true_and, bit_eq]
  congr 1
  omega

theorem bit_eq_getLsbD_wordAt (w : BitWord) {b : Nat} (hb : b < 128) :
    bit w b = (wordAt w (b / 32)).getLsbD (31 - b % 32) := by
  rw [getLsbD_wordAt w (by omega) (by omega)]
  congr 1
  omega

theorem wordAt_ext_iff {w x : BitWord} : (∀ k, k < 4 → wordAt w k = wordAt x k) ↔ w = x := by
  constructor
  · intro h
    apply eq_of_bit_eq
    intro b hb
    rw [bit_eq_getLsbD_wordAt w hb, bit_eq_getLsbD_wordAt x hb, h (b / 32) (by omega)]
  · rintro rfl k -
    rfl

theorem wordAt_zero (k : Nat) : wordAt 0 k = 0 := BitVec.extractLsb'_zero

/-- The words of a container made of four words are those words. -/
theorem wordAt_ofWords (f : Nat → Word) {k : Nat} (hk : k < 4) :
    wordAt (ofWords (f 0) (f 1) (f 2) (f 3)) k = f k := by
  have hwords := congrArg (·.getD k 0) (wordsOf_ofWords (f 0) (f 1) (f 2) (f 3))
  rwa [wordsOf, getD_four (wordAt _) 0 hk, getD_four f 0 hk] at hwords

/-- A list of four entries given by their index, read by `?`. -/
theorem getElem?_four {α : Type} (f : Nat → α) {k : Nat} (hk : k < 4) : [f 0, f 1, f 2, f 3][k]? = some (f k) := by
  rw [List.getElem?_eq_getElem hk, ← List.getD_eq_getElem _ (f 0), getD_four f (f 0) hk]

/-- Byte `j` of word `k` stands at `4 * k + j` of the image (20_memory.md R44). -/
theorem getElem?_bytesOfWords (w : BitWord) {k j : Nat} (hk : k < 4) (hj : j < 4) :
    (bytesOfWords w)[4 * k + j]? = some ((wordAt w k).extractLsb' (8 * j) 8) := by
  have hbyte : (bytesOfWord (wordAt w k))[j]? = some ((wordAt w k).extractLsb' (8 * j) 8) :=
    getElem?_four (fun j => (wordAt w k).extractLsb' (8 * j) 8) hj
  have hlen : ∀ x, (bytesOfWord x).length = 4 := fun _ => rfl
  rw [← hbyte, bytesOfWords]
  obtain rfl | rfl | rfl | rfl : k = 0 ∨ k = 1 ∨ k = 2 ∨ k = 3 := by omega
  all_goals grind

/-! ### Ranges of spec bits -/

section
variable {w : BitWord} {lo hi v : Nat}

/-- The shift-and-modulus formula of a range (40_bitword.md R104). -/
theorem toNat_rangeValue (w : BitWord) (hhi : hi < 128) :
    (rangeValue w lo hi).toNat = (w.toNat >>> (127 - hi)) % 2 ^ (hi - lo + 1) := by
  have hmask : 2 ^ (hi - lo + 1) ≤ 2 ^ 128 := Nat.pow_le_pow_right (by omega) (by omega)
  have hpos : 0 < 2 ^ (hi - lo + 1) := Nat.two_pow_pos _
  rw [rangeValue, lowMask, BitVec.toNat_and, BitVec.toNat_ushiftRight, BitVec.toNat_ofNat,
    Nat.mod_eq_of_lt (by omega), Nat.and_two_pow_sub_one_eq_mod]

theorem toNat_rangeValue_lt (w : BitWord) (hhi : hi < 128) : (rangeValue w lo hi).toNat < 2 ^ (hi - lo + 1) := by
  rw [toNat_rangeValue w hhi]
  exact Nat.mod_lt _ (Nat.two_pow_pos _)

/-- Numeric bit `j` of a range's value is spec bit `hi - j` (40_bitword.md R104). -/
theorem getLsbD_rangeValue_eq_bit (w : BitWord) (hlo : lo ≤ hi) (hhi : hi < 128) (j : Nat) :
    (rangeValue w lo hi).getLsbD j = (decide (j < hi - lo + 1) && bit w (hi - j)) := by
  rw [getLsbD_rangeValue]
  by_cases hj : j < hi - lo + 1
  · rw [bit_eq, show 127 - (hi - j) = 127 - hi + j by omega]
  · rw [decide_eq_false hj, Bool.false_and, Bool.false_and]

/-- Every spec bit after a range write (40_bitword.md R105). -/
theorem bit_setRange (w : BitWord) (hlo : lo ≤ hi) (hhi : hi < 128) (hv : v < 2 ^ (hi - lo + 1)) {b : Nat}
    (hb : b < 128) :
    bit (setRange w lo hi (BitVec.ofNat 128 v)) b = if lo ≤ b ∧ b ≤ hi then v.testBit (hi - b) else bit w b := by
  rw [bit_eq, getLsbD_setRange _ _ _ _ _ hlo hhi fun j => getLsbD_ofNat_of_lt v _ j hv]
  by_cases hin : lo ≤ b ∧ b ≤ hi
  · rw [if_pos hin, if_pos (by omega), BitVec.getLsbD_ofNat, decide_eq_true (by omega), Bool.true_and,
      show 127 - b - (127 - hi) = hi - b by omega]
  · rw [if_neg hin, if_neg (by omega), bit_eq]

/-- A range given its own value is not changed. -/
theorem setRange_rangeValue (w : BitWord) (hlo : lo ≤ hi) (hhi : hi < 128) :
    setRange w lo hi (BitVec.ofNat 128 (rangeValue w lo hi).toNat) = w := by
  apply eq_of_bit_eq
  intro b hb
  rw [bit_setRange w hlo hhi (toNat_rangeValue_lt w hhi) hb]
  split
  · rw [BitVec.testBit_toNat, getLsbD_rangeValue_eq_bit w hlo hhi, decide_eq_true (by omega), Bool.true_and,
      Nat.sub_sub_self (by omega)]
  · rfl

/-- Writes of disjoint ranges commute (40_bitword.md R108). -/
theorem setRange_comm (w : BitWord) (hlo : lo ≤ hi) (hhi : hi < 128) (hv : v < 2 ^ (hi - lo + 1)) {a b u : Nat}
    (hab : a ≤ b) (hb : b < 128) (hu : u < 2 ^ (b - a + 1)) (hdisjoint : b < lo ∨ hi < a) :
    setRange (setRange w a b (BitVec.ofNat 128 u)) lo hi (BitVec.ofNat 128 v) =
      setRange (setRange w lo hi (BitVec.ofNat 128 v)) a b (BitVec.ofNat 128 u) := by
  apply eq_of_bit_eq
  intro c hc
  rw [bit_setRange _ hlo hhi hv hc, bit_setRange _ hab hb hu hc, bit_setRange _ hab hb hu hc,
    bit_setRange _ hlo hhi hv hc]
  by_cases hin : lo ≤ c ∧ c ≤ hi
  · rw [if_pos hin, if_pos hin, if_neg (by omega)]
  · rw [if_neg hin, if_neg hin]

/-! ### When the operations answer and when they refuse -/

theorem extract_accepted (w : BitWord) (hlo : lo ≤ hi) (hhi : hi < 128) : extract w lo hi = .ok (rangeValue w lo hi) :=
  if_pos ⟨hlo, hhi⟩

theorem extract_refused (w : BitWord) (h : ¬ (lo ≤ hi ∧ hi < 128)) : extract w lo hi = .error .contractViolation :=
  if_neg h

theorem insert_accepted (w : BitWord) (hlo : lo ≤ hi) (hhi : hi < 128) (hv : v < 2 ^ (hi - lo + 1)) :
    Machine.insert w lo hi v = .ok (setRange w lo hi (BitVec.ofNat 128 v)) :=
  (if_pos ⟨hlo, hhi⟩).trans (if_pos hv)

theorem insert_refused (w : BitWord) (h : ¬ (lo ≤ hi ∧ hi < 128) ∨ 2 ^ (hi - lo + 1) ≤ v) :
    Machine.insert w lo hi v = .error .contractViolation := by
  unfold Machine.insert
  split
  · next hrange => exact if_neg (Nat.not_lt.mpr (h.resolve_left (not_not_intro hrange)))
  · rfl

/-- The inversion of an insert: it was accepted, and its result is the range write. -/
theorem insert_ok {x : BitWord} (h : Machine.insert w lo hi v = .ok x) :
    lo ≤ hi ∧ hi < 128 ∧ v < 2 ^ (hi - lo + 1) ∧ x = setRange w lo hi (BitVec.ofNat 128 v) := by
  by_cases hacc : (lo ≤ hi ∧ hi < 128) ∧ v < 2 ^ (hi - lo + 1)
  · obtain ⟨⟨hlo, hhi⟩, hv⟩ := hacc
    rw [insert_accepted w hlo hhi hv] at h
    exact ⟨hlo, hhi, hv, (Except.ok.inj h).symm⟩
  · rw [insert_refused w ((not_and_or.mp hacc).imp_right Nat.le_of_not_lt)] at h
    exact nomatch h

theorem getBit_accepted (w : BitWord) {i : Nat} (hi : i < 128) :
    getBit w i = .ok (BitVec.ofNat 128 (bit w i).toNat) := if_pos hi

theorem getBit_refused (w : BitWord) {i : Nat} (hi : 128 ≤ i) : getBit w i = .error .contractViolation :=
  if_neg (Nat.not_lt.mpr hi)

theorem setBit_accepted (w : BitWord) {i b : Nat} (hi : i < 128) (hb : b ≤ 1) :
    setBit w i b = .ok (setRange w i i (BitVec.ofNat 128 b)) := if_pos ⟨hi, hb⟩

theorem setBit_refused (w : BitWord) {i b : Nat} (h : 128 ≤ i ∨ 1 < b) : setBit w i b = .error .contractViolation :=
  if_neg (by omega)

end

/-- GETBIT's function is the one-bit extract (40_bitword.md R106). -/
theorem getBit_eq_extract (w : BitWord) (i : Nat) : getBit w i = extract w i i := by
  obtain hi | hi := Nat.lt_or_ge i 128
  · rw [getBit_accepted w hi, extract_accepted w (le_refl i) hi]
    congr 1
    apply BitVec.eq_of_getLsbD_eq
    intro j hj
    rw [getLsbD_rangeValue_eq_bit w (le_refl i) hi, BitVec.getLsbD_ofNat, decide_eq_true hj, Bool.true_and,
      Nat.testBit_bool_toNat, Nat.sub_self]
    by_cases hj0 : j = 0
    · simp [hj0]
    · simp [hj0]
  · rw [getBit_refused w hi, extract_refused w (by omega)]

/-- SETBIT's function is the one-bit insert (40_bitword.md R107). -/
theorem setBit_eq_insert (w : BitWord) (i b : Nat) : setBit w i b = Machine.insert w i i b := by
  have hwidth : 2 ^ (i - i + 1) = 2 := by rw [Nat.sub_self]; rfl
  by_cases h : i < 128 ∧ b ≤ 1
  · obtain ⟨hi, hb⟩ := h
    rw [setBit_accepted w hi hb, insert_accepted w (le_refl i) hi (by omega)]
  · rw [setBit_refused w (by omega), insert_refused w (by omega)]

/-! ### A command that answers and a command that refuses -/

/-- A command with a result writes it at once. -/
theorem runCommand_of_ok {c : Command} {s : State} {x : CommandOutput c} (h : commandResult params c s = .ok x) :
    runCommand c s = .next (commandWrite params s c x).succeed := by
  rw [runCommand_eq, runCommandIn_eq_finish, h, except_map_ok, finish_ok]

/-- A command whose function raises writes `ST` alone. -/
theorem runCommand_of_raise {c : Command} {s : State} {e : Status} (h : commandResult params c s = .error (.raise e)) :
    runCommand c s = .next (s.raise e) := by
  rw [runCommand_eq, runCommandIn_eq_finish, h, except_map_error, finish_raise]

/-! ### The range commands -/

/-- Settles O10: the result is the range write, known bit by bit. -/
theorem bwInsertWritesTheRange : Obligations.BwInsertWritesTheRange := by
  intro s lo hi value
  constructor
  · intro hlo hhi hv
    refine ⟨_, runCommand_of_ok (congrArg liftStatus (insert_accepted s.w hlo hhi hv)), rfl, ?_,
      fun b => bit_setRange s.w hlo hhi hv⟩
    have hread := rangeValue_setRange_same s.w _ lo hi hlo hhi fun j => getLsbD_ofNat_of_lt value _ j hv
    have hfits : value < 2 ^ 128 := lt_of_lt_of_le hv (Nat.pow_le_pow_right (by omega) (by omega))
    calc _ = _ := (toNat_rangeValue _ hhi).symm
      _ = _ := congrArg BitVec.toNat hread
      _ = value := by rw [BitVec.toNat_ofNat, Nat.mod_eq_of_lt hfits]
  · exact fun h => runCommand_of_raise (congrArg liftStatus (insert_refused s.w h))

/-- Settles O12: a spec bit has one place in one word, and an insert is known bit by bit. -/
theorem rangesStraddleWords : Obligations.RangesStraddleWords := by
  refine ⟨fun w b => bit_eq_getLsbD_wordAt w, fun w x => wordAt_ext_iff, ?_⟩
  intro w x lo hi value b hx hlob hbhi
  obtain ⟨hlo, hhi, hv, rfl⟩ := insert_ok hx
  have hb : b < 128 := by omega
  rw [← bit_eq_getLsbD_wordAt _ hb, bit_setRange w hlo hhi hv hb, if_pos ⟨hlob, hbhi⟩]

/-- Settles O13: each law is a law of the range write. -/
theorem insertExtractLaws : Obligations.InsertExtractLaws := by
  intro w lo hi v hlo hhi hv
  have hhigh : ∀ j, hi - lo + 1 ≤ j → (BitVec.ofNat 128 v).getLsbD j = false := fun j => getLsbD_ofNat_of_lt v _ j hv
  refine ⟨_, insert_accepted w hlo hhi hv, ?same, ?zero, ?disjoint, ?reinsert, ?commute⟩
  case same => rw [extract_accepted _ hlo hhi, rangeValue_setRange_same w _ lo hi hlo hhi hhigh]
  case zero =>
    rintro rfl b hb hout
    rw [bit_setRange 0 hlo hhi hv hb, if_neg (by omega), bit_eq]
    exact BitVec.getLsbD_zero
  case disjoint =>
    intro a b hab hb hout
    rw [extract_accepted _ hab hb, extract_accepted w hab hb,
      rangeValue_setRange_disjoint w _ lo hi a b hlo hhi hab hb hhigh hout.symm]
  case reinsert =>
    intro r hr
    obtain rfl : rangeValue w lo hi = r := Except.ok.inj ((extract_accepted w hlo hhi).symm.trans hr)
    rw [insert_accepted w hlo hhi (toNat_rangeValue_lt w hhi), setRange_rangeValue w hlo hhi]
  case commute =>
    intro a b u hab hb hu hout
    refine ⟨_, _, insert_accepted w hab hb hu, insert_accepted _ hab hb hu, ?_⟩
    rw [insert_accepted _ hlo hhi hv, setRange_comm w hlo hhi hv hab hb hu hout]

/-- Settles O9: the result is the range's value, by the formula and bit by bit. -/
theorem bwExtractReadsTheRange : Obligations.BwExtractReadsTheRange := by
  intro s lo hi
  constructor
  · exact fun hlo hhi => ⟨_, runCommand_of_ok (congrArg liftStatus (extract_accepted s.w hlo hhi)), rfl,
      toNat_rangeValue s.w hhi, getLsbD_rangeValue_eq_bit s.w hlo hhi⟩
  · exact fun h => runCommand_of_raise (congrArg liftStatus (extract_refused s.w h))

/-- BW.GETBIT runs as the one-bit extract. -/
theorem runCommand_bwGetbit (i : Nat) (s : State) : runCommand (.bwGetbit i) s = runCommand (.bwExtract i i) s := by
  change runGetbit i s = runExtract i i s
  rw [runGetbit, runExtract, getBit_eq_extract]

/-- BW.SETBIT runs as the one-bit insert. -/
theorem runCommand_bwSetbit (i b : Nat) (s : State) :
    runCommand (.bwSetbit i b) s = runCommand (.bwInsert i i b) s := by
  change runSetbit i b s = runInsert i i b s
  rw [runSetbit, runInsert, setBit_eq_insert]

/-- Every bit of every word after a one-bit write (40_bitword.md R107). -/
theorem getLsbD_wordAt_setRange_single (w : BitWord) {i b k p : Nat} (hi : i < 128) (hb : b ≤ 1) (hk : k < 4)
    (hp : p < 32) :
    (wordAt (setRange w i i (BitVec.ofNat 128 b)) k).getLsbD p =
      if k = i / 32 ∧ p = 31 - i % 32 then decide (b = 1) else (wordAt w k).getLsbD p := by
  have hfits : b < 2 ^ (i - i + 1) := by rw [Nat.sub_self]; omega
  rw [getLsbD_wordAt _ hk hp, getLsbD_wordAt w hk hp, bit_setRange w (le_refl i) hi hfits (by omega)]
  by_cases hplace : k = i / 32 ∧ p = 31 - i % 32
  · rw [if_pos hplace, if_pos (by omega), show i - (32 * k + (31 - p)) = 0 by omega, Nat.testBit_zero,
      Nat.mod_eq_of_lt (by omega)]
  · rw [if_neg hplace, if_neg (by omega)]

/-- Settles O11: both commands are range commands on one bit. -/
theorem singleBitsAreOneBitRanges : Obligations.SingleBitsAreOneBitRanges := by
  intro s i b
  refine ⟨fun hi => ?get, fun hi => ?getRefused, runCommand_bwGetbit i s, fun hi hb => ?set, fun h => ?setRefused,
    runCommand_bwSetbit i b s⟩
  case get =>
    rw [← bit_eq_getLsbD_wordAt s.w hi]
    exact runCommand_of_ok (c := .bwGetbit i) (congrArg liftStatus (getBit_accepted s.w hi))
  case getRefused => exact runCommand_of_raise (congrArg liftStatus (getBit_refused s.w hi))
  case set =>
    exact ⟨_, runCommand_of_ok (congrArg liftStatus (setBit_accepted s.w hi hb)), rfl,
      fun k p => getLsbD_wordAt_setRange_single s.w hi hb⟩
  case setRefused => exact runCommand_of_raise (congrArg liftStatus (setBit_refused s.w h))

/-! ### The commands that fill the container and read it out -/

/-- Settles O5: the result is the zero container, whose every range is zero. -/
theorem bwZeroClearsTheWord : Obligations.BwZeroClearsTheWord := by
  intro s
  have hextract : extract 0 0 127 = .ok 0 := by decide
  exact ⟨_, runCommand_of_ok (c := .bwZero) rfl, rfl, wordAt_zero 0, wordAt_zero 1, wordAt_zero 2,
    wordAt_zero 3,
    runCommand_of_ok (c := .bwExtract 0 127) (s := { s with w := 0, st := .ok }) (congrArg liftStatus hextract)⟩

theorem fromWords_accepted {words : List Word} (h : words.length ≤ 4) :
    fromWords words = .ok (ofWords (words.getD 0 0) (words.getD 1 0) (words.getD 2 0) (words.getD 3 0)) :=
  if_neg (Nat.not_lt.mpr h)

theorem fromWords_refused {words : List Word} (h : 4 < words.length) : fromWords words = .error .contractViolation :=
  if_pos h

/-- No words fill the container with zeros. -/
theorem fromWords_nil : fromWords [] = .ok 0 := by decide

/-- Settles O6: word `k` is the list's entry, and an entry that is not there reads 0. -/
theorem bwLoadwFillsTheWord : Obligations.BwLoadwFillsTheWord := by
  intro s words
  refine ⟨fun hlen => ?_, fun hlen => runCommand_of_raise (congrArg liftStatus (fromWords_refused hlen)), ?_⟩
  · refine ⟨_, runCommand_of_ok (congrArg liftStatus (fromWords_accepted hlen)), rfl, fun k hk => ?_⟩
    refine (wordAt_ofWords (words.getD · 0) hk).trans ?_
    split
    · rfl
    · next hout => exact List.getD_eq_default words 0 (Nat.le_of_not_lt hout)
  · exact (runCommand_of_ok (c := .bwLoadw []) (congrArg liftStatus fromWords_nil)).trans
      (runCommand_of_ok (c := .bwZero) rfl).symm

/-- A group inside the stream is the container of its four words. -/
theorem loadGroup_accepted {m : Buffer} {sOff k : Nat} (h : sOff + 16 * k + 16 ≤ m.len) :
    loadGroup m sOff k = .ok (ofWords (m.word (sOff + 16 * k)) (m.word (sOff + 16 * k + 4))
      (m.word (sOff + 16 * k + 8)) (m.word (sOff + 16 * k + 12))) := by
  rw [loadGroup, if_neg (Nat.not_lt.mpr h), readGroup, readWord_of_le (by omega), readWord_of_le (by omega),
    readWord_of_le (by omega), readWord_of_le (by omega)]
  rfl

theorem loadGroup_refused {m : Buffer} {sOff k : Nat} (h : m.len < sOff + 16 * k + 16) :
    loadGroup m sOff k = .error (.raise .malformedContainer) := if_pos h

/-- Settles O7: a group inside the stream is read word by word. -/
theorem bwLoadbReadsTheGroup : Obligations.BwLoadbReadsTheGroup := by
  intro s sOff k
  exact ⟨fun h => ⟨_, runCommand_of_ok (c := .bwLoadb sOff k) (loadGroup_accepted h), rfl,
      fun j hj => wordAt_ofWords (fun j => s.strmView.word (sOff + 16 * k + 4 * j)) hj⟩,
    fun h => runCommand_of_raise (c := .bwLoadb sOff k) (loadGroup_refused h)⟩

/-- Settles O8: what is read out are the words in order and their image. -/
theorem bwStorewReadsTheWordOut : Obligations.BwStorewReadsTheWordOut := by
  intro s
  exact ⟨wordsOf s.w, bytesOfWords s.w, runCommand_of_ok rfl, rfl, length_bytesOfWords s.w,
    fun k => getElem?_four (wordAt s.w), fun k j => getElem?_bytesOfWords s.w⟩

end Sys2Proof.Proofs
end

section
/-! PROOFS. Which container is refused (41_container.md R134), what PARSE writes (R133), the symbols it resolves (R126 to
R132), and that it reads the container only (R122, R138). -/

namespace Sys2Proof.Proofs

open Sys2Proof.Machine

/-! ### Which container is refused -/

/-- The header's checks on the header that was read: checks (1) to (4) of R134, then the capacity. -/
theorem checkHeader_cases {P : Params} {b : Buffer} {h : Header} (hb : readHeader b = .ok h) :
    (HeaderBroken b ∧ checkHeader P b h = .error (.raise .malformedContainer)) ∨
    (¬ HeaderBroken b ∧ P.maxSymbols < b.num 12 ∧ checkHeader P b h = .error (.raise .outOfMemory)) ∨
    (¬ HeaderBroken b ∧ b.num 12 ≤ P.maxSymbols ∧ checkHeader P b h = .ok ()) := by
  have hlen := le_len_of_readHeader_ok hb
  obtain rfl := Except.ok.inj ((readHeader_of_le b hlen).symm.trans hb)
  simp only [checkHeader, headerBytes, recordBytes, regionOk_eq_false_iff, HeaderBroken, RegionInside, Buffer.num]
  split_ifs with hsize hroom hbar hbinary hfull
  · exact .inl ⟨by omega, rfl⟩
  · exact .inl ⟨by omega, rfl⟩
  · exact .inr (.inl ⟨by omega, hfull, rfl⟩)
  · exact .inr (.inr ⟨by omega, Nat.le_of_not_lt hfull, rfl⟩)
  · exact .inl ⟨by omega, rfl⟩
  · exact .inl ⟨by omega, rfl⟩

/-- Records inside the container are all resolved, or one of them is broken. -/
theorem parseRecords_cases (P : Params) (hL : P.symRec = defaultSymRec) (b : Buffer) (hs : b.num 8 ≤ b.len) (n : Nat) :
    ∀ i, 48 + 48 * (i + n) ≤ b.num 8 →
      ((∃ j, i ≤ j ∧ j < i + n ∧ RecordBroken b j) ∧
        parseRecords P b (b.num 8) n i = .error (.raise .malformedContainer)) ∨
      ((∀ j, i ≤ j → j < i + n → ¬ RecordBroken b j) ∧ ∃ ss, parseRecords P b (b.num 8) n i = .ok ss) := by
  induction n with
  | zero => exact fun i _ => .inr ⟨fun j _ _ => by omega, [], rfl⟩
  | succ n ih =>
    intro i hroom
    rw [parseRecords]
    obtain ⟨hbroken, herr⟩ | ⟨hgood, y, hy, -⟩ := parseRecord_cases P hL b i hs (by omega)
    · exact .inl ⟨⟨i, le_refl i, by omega, hbroken⟩, by rw [herr, except_bind_error]⟩
    rw [hy, except_bind_ok]
    obtain ⟨⟨j, hij, hj, hbroken⟩, herr⟩ | ⟨hrest, ss, hss⟩ := ih (i + 1) (by omega)
    · exact .inl ⟨⟨j, by omega, by omega, hbroken⟩, by rw [herr, except_bind_error]⟩
    · refine .inr ⟨fun j hij hj => ?_, y :: ss, by rw [hss]; rfl⟩
      obtain rfl | hlt := Nat.eq_or_lt_of_le hij
      · exact hgood
      · exact hrest j hlt (by omega)

/-- The four ways `parse` ends, in the order of R134. -/
theorem parse_cases (P : Params) (hL : P.symRec = defaultSymRec) (b : Buffer) :
    (HeaderBroken b ∧ parse P b = .error (.raise .malformedContainer)) ∨
    (¬ HeaderBroken b ∧ P.maxSymbols < b.num 12 ∧ parse P b = .error (.raise .outOfMemory)) ∨
    (¬ HeaderBroken b ∧ b.num 12 ≤ P.maxSymbols ∧ (∃ i, i < b.num 12 ∧ RecordBroken b i) ∧
      parse P b = .error (.raise .malformedContainer)) ∨
    (¬ HeaderBroken b ∧ b.num 12 ≤ P.maxSymbols ∧ (∀ i, i < b.num 12 → ¬ RecordBroken b i) ∧
      ∃ p, parse P b = .ok p) := by
  obtain hlen | hlen := Nat.lt_or_ge b.len 48
  · exact .inl ⟨.inl hlen, by rw [parse, readHeader, if_pos (show b.len < headerBytes from hlen)]; rfl⟩
  have hhdr := readHeader_of_le b hlen
  unfold parse
  rw [hhdr, except_bind_ok]
  obtain ⟨hbroken, hcheck⟩ | ⟨hgood, hfull, hcheck⟩ | ⟨hgood, hfits, hcheck⟩ := checkHeader_cases (P := P) hhdr
  · exact .inl ⟨hbroken, by rw [hcheck, except_bind_error]⟩
  · exact .inr (.inl ⟨hgood, hfull, by rw [hcheck, except_bind_error]⟩)
  rw [hcheck, except_bind_ok]
  obtain ⟨hinside, hroom, -⟩ := checkHeader_ok hcheck
  obtain ⟨⟨i, -, hi, hbroken⟩, hrecs⟩ | ⟨hrecords, ss, hrecs⟩ :=
    parseRecords_cases P hL b hinside (b.num 12) 0 (by rw [Nat.zero_add]; exact hroom)
  · refine .inr (.inr (.inl ⟨hgood, hfits, ⟨i, Nat.zero_add (b.num 12) ▸ hi, hbroken⟩, ?_⟩))
    exact congrArg (· >>= _) hrecs
  · refine .inr (.inr (.inr ⟨hgood, hfits, fun i hi => hrecords i i.zero_le (by omega), ?_⟩))
    exact ⟨_, congrArg (· >>= _) hrecs⟩

/-- Settles O40: the four ways `parse` ends exclude each other. -/
theorem parseDecidesTheStatus : Obligations.ParseDecidesTheStatus := by
  intro P b hL
  obtain ⟨hbroken, hp⟩ | ⟨hgood, hfull, hp⟩ | ⟨hgood, hfits, hbad, hp⟩ | ⟨hgood, hfits, hrecs, p, hp⟩ := parse_cases P hL b
  · simp [hp, hbroken]
  · simp [hp, hgood, hfull]
  · simpa [hp, hgood, hfits] using hbad
  · simpa [hp, hgood, hfits] using hrecs

/-! ### The symbols and the registers of a parsed container -/

/-- Settles O42, from the symbols of the records; no symbols give no diagnostics. -/
theorem parsedSymbolsAreTheRecords : Obligations.ParsedSymbolsAreTheRecords := by
  intro P b p hL h
  obtain ⟨hlen, hsym⟩ := parse_symbolIs hL h
  obtain ⟨-, -, -, hdiag⟩ := parse_ok h
  refine ⟨hlen, fun i hi => ?_, fun hzero => ?_⟩
  · have hy := List.getElem?_eq_getElem (hlen.symm ▸ hi : i < p.syms.length)
    exact ⟨_, hy, hsym i _ hy⟩
  · have hnil : p.syms = [] := List.length_eq_zero_iff.mp (hlen.trans hzero)
    exact ⟨hnil, by rw [hdiag, hnil, diagFrom]⟩

/-- The symbols of a container are as many as a word counts. -/
theorem parse_length_lt {P : Params} {b : Buffer} {p : Parsed} (h : parse P b = .ok p) : p.syms.length < 2 ^ 32 := by
  obtain ⟨-, -, hrecs, -⟩ := parse_ok h
  obtain ⟨hlen, -⟩ := parseRecords_ok _ hrecs
  exact hlen ▸ p.hdr.numSymbols.isLt

/-- Settles O45: the result's registers are written at once, and `NSYM` holds the count without wrapping. -/
theorem parseWritesItsRegisters : Obligations.ParseWritesItsRegisters := fun _ =>
  ⟨fun _ h => runCommand_of_raise (c := .parse) h,
    fun p h => ⟨BitVec.ofNat 32 p.syms.length, Nat.mod_eq_of_lt (parse_length_lt h), runCommand_parse_ok h⟩⟩

/-! ### Reads below a bound -/

/-- Two buffers, each at least `n` bytes long, hold the same bytes below `n`. -/
structure AgreeBelow (n : Nat) (b c : Buffer) : Prop where
  le_left : n ≤ b.len
  le_right : n ≤ c.len
  byte_eq : ∀ a, a < n → b.byte a = c.byte a

namespace AgreeBelow

variable {n : Nat} {b c : Buffer}

theorem readByte_eq (h : AgreeBelow n b c) {a : Nat} (ha : a < n) : readByte b a = readByte c a := by
  rw [readByte_of_lt (ha.trans_le h.le_left), readByte_of_lt (ha.trans_le h.le_right), h.byte_eq a ha]

theorem word_eq (h : AgreeBelow n b c) {a : Nat} (ha : a + 4 ≤ n) : b.word a = c.word a := by
  unfold Buffer.word
  rw [h.byte_eq a (by omega), h.byte_eq (a + 1) (by omega), h.byte_eq (a + 2) (by omega), h.byte_eq (a + 3) (by omega)]

theorem readWord_eq (h : AgreeBelow n b c) {a : Nat} (ha : a + 4 ≤ n) : readWord b a = readWord c a := by
  rw [readWord_of_le (ha.trans h.le_left), readWord_of_le (ha.trans h.le_right)]
  exact congrArg some (h.word_eq ha)

theorem readWords_eq (h : AgreeBelow n b c) (k : Nat) : ∀ {a}, a + 4 * k ≤ n → readWords b a k = readWords c a k := by
  induction k with
  | zero => exact fun _ => rfl
  | succ k ih => intro a ha; rw [readWords, readWords, h.readWord_eq (by omega), ih (by omega)]

theorem scanName_eq (h : AgreeBelow n b c) (fuel : Nat) :
    ∀ {p}, p + fuel ≤ n → scanName b fuel p = scanName c fuel p := by
  induction fuel with
  | zero => exact fun _ => rfl
  | succ fuel ih => intro p hp; rw [scanName, scanName, h.readByte_eq (by omega), ih (by omega)]

/-- A name is sought below the container's size only. -/
theorem readName_eq (h : AgreeBelow n b c) (off : Nat) : readName b n off = readName c n off := by
  unfold readName
  split
  · rfl
  · split
    · rfl
    · rw [h.scanName_eq _ (by omega)]

/-- The values are read where the record's values offset passed its check (R128), or not at all. -/
theorem readVector_eq (h : AgreeBelow n b c) (kind : SymKind) {off : Nat} (hoff : ¬ (off ≠ 0 ∧ off + 16 > n)) :
    readVector b kind off = readVector c kind off := by
  unfold readVector
  split
  · next hv =>
    have hne : off ≠ 0 := of_decide_eq_true (Bool.and_eq_true_iff.mp hv).2
    rw [h.readWords_eq 4 (by omega)]
  · rfl

theorem parseRecord_eq (P : Params) (h : AgreeBelow n b c) {i : Nat} (hi : 48 + 48 * i + 48 ≤ n) :
    parseRecord P b n i = parseRecord P c n i := by
  unfold parseRecord
  rw [h.readWords_eq 12 (show headerBytes + recordBytes * i + 4 * 12 ≤ n from hi)]
  refine bind_congr fun r => ?_
  simp only [h.readName_eq]
  refine bind_congr fun name => ?_
  split
  · rfl
  · next hvalues => rw [h.readVector_eq _ hvalues]

theorem parseRecords_eq (P : Params) (h : AgreeBelow n b c) (k : Nat) :
    ∀ {i}, 48 + 48 * (i + k) ≤ n → parseRecords P b n k i = parseRecords P c n k i := by
  induction k with
  | zero => exact fun _ => rfl
  | succ k ih => intro i hi; rw [parseRecords, parseRecords, h.parseRecord_eq P (by omega), ih (by omega)]

theorem readHeader_eq (h : AgreeBelow n b c) (hn : 48 ≤ n) : readHeader b = readHeader c := by
  unfold readHeader headerBytes
  rw [if_neg (Nat.not_lt.mpr (hn.trans h.le_left)), if_neg (Nat.not_lt.mpr (hn.trans h.le_right)), h.readWords_eq 12 hn]

/-- Of a buffer's length the header's checks need only that the container's size does not exceed it. -/
theorem checkHeader_eq (P : Params) {h : Header} (hbc : AgreeBelow h.size.toNat b c) :
    checkHeader P b h = checkHeader P c h := by
  unfold checkHeader
  simp only [Nat.not_lt.mpr hbc.le_left, Nat.not_lt.mpr hbc.le_right, gt_iff_lt]

end AgreeBelow

/-- Settles O46: after the header every read is checked against the container's size. -/
theorem parseReadsOnlyTheContainer : Obligations.ParseReadsOnlyTheContainer := by
  intro P b c hmin hb hc hbytes
  have hagree : AgreeBelow (b.num 8) b c := ⟨hb, hc, hbytes⟩
  unfold parse
  rw [← hagree.readHeader_eq hmin]
  cases hhdr : readHeader b with
  | error e => rfl
  | ok h =>
    obtain ⟨hsize, -, -⟩ := readHeader_ok hhdr
    rw [Buffer.num, ← hsize] at hagree
    rw [except_bind_ok, except_bind_ok, ← hagree.checkHeader_eq P]
    cases hcheck : checkHeader P b h with
    | error e => rfl
    | ok u =>
      obtain ⟨-, hroom, -⟩ := checkHeader_ok hcheck
      rw [except_bind_ok, except_bind_ok, hagree.parseRecords_eq P _ (by rw [Nat.zero_add]; exact hroom)]

end Sys2Proof.Proofs
end

section
/-! PROOFS. The encoder accepts a descriptor exactly when no check fails, refuses it by the first one that does, and ENC
writes accordingly (42_encoder.md R153 to R158, R164, R167). -/

namespace Sys2Proof.Proofs

open Sys2Proof.Machine

/-! ### Which status refuses a descriptor -/

theorem fetchIndex_error {P : Params} {D : Desc} {t : RegType} {e : Status} (h : fetchIndex P D t = .error e) :
    e = .conflictingFetch := agree_error _ _ h

theorem sharedTarget_error {D : Desc} {e : Status} (h : sharedTarget D = .error e) : e = .conflictingModifier :=
  agree_error _ _ h

theorem saturate_error {D : Desc} {e : Status} (h : saturate D = .error e) : e = .conflictingModifier := by
  unfold saturate at h
  split at h
  · exact (Except.error.inj h).symm
  · exact nomatch h

theorem encodeFields_of_broken {P : Params} {D : Desc} (h : ContractBroken P D) :
    encodeFields P D = .error .contractViolation :=
  if_neg fun hok => (contractOk_iff P D).mp hok h

theorem encodeFields_of_fetchConflict {P : Params} {D : Desc} (hc : ¬ ContractBroken P D) (hf : FetchConflict P D) :
    encodeFields P D = .error .conflictingFetch := by
  rw [encodeFields, if_pos ((contractOk_iff P D).mpr hc)]
  cases hcf : fetchIndex P D .constant with
  | error e => rw [fetchIndex_error hcf]; rfl
  | ok cf =>
    cases haf : fetchIndex P D .attr with
    | error e => rw [fetchIndex_error haf]; rfl
    | ok af => exact absurd hf ((not_fetchConflict_iff P D).mpr ⟨⟨cf, hcf⟩, ⟨af, haf⟩⟩)

theorem encodeFields_of_modifierConflict {P : Params} {D : Desc} (hc : ¬ ContractBroken P D) (hf : ¬ FetchConflict P D)
    (hm : ModifierConflict D) : encodeFields P D = .error .conflictingModifier := by
  obtain ⟨⟨cf, hcf⟩, ⟨af, haf⟩⟩ := (not_fetchConflict_iff P D).mp hf
  rw [encodeFields, if_pos ((contractOk_iff P D).mpr hc), hcf, haf]
  cases htg : sharedTarget D with
  | error e => rw [sharedTarget_error htg]; rfl
  | ok tg =>
    cases hsat : saturate D with
    | error e => rw [saturate_error hsat]; rfl
    | ok sat => exact absurd hm ((not_modifierConflict_iff D).mpr ⟨⟨tg, htg⟩, ⟨sat, hsat⟩⟩)

/-! ### What an accepted descriptor's fields are -/

/-- The fields of the word of a descriptor, given the values of the shared ones. -/
def encodedFields (P : Params) (D : Desc) (cf af tg : Option (BitVec 8)) (sat : Bool) : Fields :=
  { vec := vHalfOf D, sc := sHalfOf D, s0 := slotAt P D 0, s1 := slotAt P D 1, s2 := slotAt P D 2,
    sh := sharedOf D cf af tg sat }

/-- Some encoded slot of the type names register `n` (42_encoder.md R155, R156). -/
def Fetches (P : Params) (D : Desc) (t : RegType) (n : BitVec 8) : Prop :=
  ∃ i, SlotEncoded P D i ∧ (srcAt D i).type = t ∧ (srcAt D i).idx = n

/-- Some present op writes varying `n` (42_encoder.md R157). -/
def Targets (D : Desc) (n : BitVec 8) : Prop := ∃ d ∈ presentDsts D, d.type = .varying ∧ d.idx = n

/-- Every check of 42_encoder.md R164 passes, and the shared fields have the given values (R155 to R158). -/
structure Accepted (P : Params) (D : Desc) (cf af tg : Option (BitVec 8)) (sat : Bool) : Prop where
  contract : ¬ ContractBroken P D
  cfetch : ∀ n, Fetches P D .constant n ↔ cf = some n
  afetch : ∀ n, Fetches P D .attr n ↔ af = some n
  target : ∀ n, Targets D n ↔ tg = some n
  saturates : saturate D = .ok sat

/-- A fold accepts with exactly the value of all its candidates. -/
theorem agree_none_ok_iff {α : Type} [DecidableEq α] {e : Status} {xs : List α} {r : Option α} :
    agree e none xs = .ok r ↔ ∀ x, x ∈ xs ↔ r = some x := by
  rw [agree_ok_iff]
  constructor
  · rintro ⟨hall, hnone⟩ x
    refine ⟨fun hx => hall x hx, fun hr => ?_⟩
    cases xs with
    | nil => exact nomatch (hnone rfl rfl).symm.trans hr
    | cons y ys =>
      have hy : r = some y := hall y List.mem_cons_self
      rw [Option.some.inj (hr.symm.trans hy)]
      exact List.mem_cons_self
  · intro h
    refine ⟨fun x hx => (h x).mp hx, ?_⟩
    rintro - rfl
    exact Option.eq_none_iff_forall_ne_some.mpr fun x hx => List.not_mem_nil ((h x).mpr hx)

theorem fetchIndex_eq_ok_iff {P : Params} {D : Desc} {t : RegType} {r : Option (BitVec 8)} :
    fetchIndex P D t = .ok r ↔ ∀ n, Fetches P D t n ↔ r = some n := by
  have hmem : ∀ n, n ∈ fetchCandidates P D t ↔ Fetches P D t n := by
    intro n
    simp [fetchCandidates, Fetches, mem_encodedSrcs, and_assoc]
  simp only [fetchIndex, agree_none_ok_iff, hmem]

theorem sharedTarget_eq_ok_iff {D : Desc} {r : Option (BitVec 8)} :
    sharedTarget D = .ok r ↔ ∀ n, Targets D n ↔ r = some n := by
  have hmem : ∀ n, n ∈ targetCandidates D ↔ Targets D n := by
    intro n
    simp [targetCandidates, Targets, and_assoc]
  simp only [sharedTarget, agree_none_ok_iff, hmem]

theorem saturate_eq_ok_iff {D : Desc} {b : Bool} :
    saturate D = .ok b ↔
      (D.vdst.mask ≠ 0 → D.sdst.mask ≠ 0 → D.vdst.sat = D.sdst.sat) ∧
      (b = true ↔ (D.vdst.mask ≠ 0 ∧ D.vdst.sat = true) ∨ (D.sdst.mask ≠ 0 ∧ D.sdst.sat = true)) := by
  have hvalue (c : Bool) : c = b ↔ (b = true ↔ c = true) := by cases b <;> cases c <;> decide
  unfold saturate
  split
  · next hne =>
    simp only [Bool.and_eq_true, present_iff, bne_iff_ne] at hne
    obtain ⟨⟨hv, hs⟩, hsat⟩ := hne
    exact ⟨nofun, fun h => absurd (h.1 hv hs) hsat⟩
  · next hagree =>
    simp only [Bool.and_eq_true, present_iff, bne_iff_ne, not_and, not_not] at hagree
    simp only [Except.ok.injEq, hvalue, Bool.or_eq_true, Bool.and_eq_true, present_iff]
    exact ⟨fun h => ⟨fun hv hs => hagree ⟨hv, hs⟩, h⟩, And.right⟩

/-- The encoder accepts exactly when every check passes, and then writes the fields of the agreed shared values. -/
theorem encodeFields_ok_iff {P : Params} {D : Desc} {F : Fields} :
    encodeFields P D = .ok F ↔ ∃ cf af tg sat, Accepted P D cf af tg sat ∧ F = encodedFields P D cf af tg sat := by
  constructor
  · intro h
    obtain ⟨hc, cf, af, tg, sat, hcf, haf, htg, hsat, rfl⟩ := encodeFields_ok h
    exact ⟨cf, af, tg, sat, ⟨(contractOk_iff P D).mp hc, fetchIndex_eq_ok_iff.mp hcf, fetchIndex_eq_ok_iff.mp haf,
      sharedTarget_eq_ok_iff.mp htg, hsat⟩, rfl⟩
  · rintro ⟨cf, af, tg, sat, h, rfl⟩
    rw [encodeFields, if_pos ((contractOk_iff P D).mpr h.contract), fetchIndex_eq_ok_iff.mpr h.cfetch,
      fetchIndex_eq_ok_iff.mpr h.afetch, sharedTarget_eq_ok_iff.mpr h.target, h.saturates]
    rfl

theorem encodeDesc_ok_iff {P : Params} {D : Desc} {w : BitWord} :
    encodeDesc P D = .ok w ↔
      ∃ cf af tg sat, Accepted P D cf af tg sat ∧ w = writeFields P (encodedFields P D cf af tg sat) := by
  constructor
  · intro h
    obtain ⟨F, hF, rfl⟩ := encodeDesc_ok h
    obtain ⟨cf, af, tg, sat, hacc, rfl⟩ := encodeFields_ok_iff.mp hF
    exact ⟨cf, af, tg, sat, hacc, rfl⟩
  · rintro ⟨cf, af, tg, sat, hacc, rfl⟩
    rw [encodeDesc, encodeFields_ok_iff.mpr ⟨cf, af, tg, sat, hacc, rfl⟩]
    rfl

theorem encodeDesc_of_no_conflict {P : Params} {D : Desc} (hc : ¬ ContractBroken P D) (hf : ¬ FetchConflict P D)
    (hm : ¬ ModifierConflict D) : ∃ w, encodeDesc P D = .ok w := by
  obtain ⟨⟨cf, hcf⟩, ⟨af, haf⟩⟩ := (not_fetchConflict_iff P D).mp hf
  obtain ⟨⟨tg, htg⟩, ⟨sat, hsat⟩⟩ := (not_modifierConflict_iff D).mp hm
  exact ⟨_, encodeDesc_ok_iff.mpr ⟨cf, af, tg, sat, ⟨hc, fetchIndex_eq_ok_iff.mp hcf, fetchIndex_eq_ok_iff.mp haf,
    sharedTarget_eq_ok_iff.mp htg, hsat⟩, rfl⟩⟩

/-! ### The four outcomes -/

/-- Exactly one of the four outcomes, by the first check that fails. -/
theorem encodeDesc_cases (P : Params) (D : Desc) :
    (ContractBroken P D ∧ encodeDesc P D = .error .contractViolation) ∨
    (¬ ContractBroken P D ∧ FetchConflict P D ∧ encodeDesc P D = .error .conflictingFetch) ∨
    (¬ ContractBroken P D ∧ ¬ FetchConflict P D ∧ ModifierConflict D ∧
      encodeDesc P D = .error .conflictingModifier) ∨
    (¬ ContractBroken P D ∧ ¬ FetchConflict P D ∧ ¬ ModifierConflict D ∧ ∃ w, encodeDesc P D = .ok w) := by
  by_cases hc : ContractBroken P D
  · exact .inl ⟨hc, by rw [encodeDesc, encodeFields_of_broken hc]; rfl⟩
  by_cases hf : FetchConflict P D
  · exact .inr (.inl ⟨hc, hf, by rw [encodeDesc, encodeFields_of_fetchConflict hc hf]; rfl⟩)
  by_cases hm : ModifierConflict D
  · exact .inr (.inr (.inl ⟨hc, hf, hm, by rw [encodeDesc, encodeFields_of_modifierConflict hc hf hm]; rfl⟩))
  · exact .inr (.inr (.inr ⟨hc, hf, hm, encodeDesc_of_no_conflict hc hf hm⟩))

/-- Settles O16: in each of the four cases the outcome is known, and the four outcomes differ. -/
theorem encoderDecidesTheStatus : Obligations.EncoderDecidesTheStatus := by
  intro P D
  obtain ⟨hc, he⟩ | ⟨hc, hf, he⟩ | ⟨hc, hf, hm, he⟩ | ⟨hc, hf, hm, w, he⟩ := encodeDesc_cases P D
  · simp [he, hc]
  · simp [he, hc, hf]
  · simp [he, hc, hf, hm]
  · simp [he, hc, hf, hm]

/-- Settles O19: ENC writes the encoder's word, or is refused with the encoder's status. -/
theorem encWritesTheWord : Obligations.EncWritesTheWord := by
  refine fun s => ⟨fun e he => ?_, fun x hx => ?_⟩
  · exact runCommand_of_raise (c := .enc) (congrArg liftStatus he)
  · exact runCommand_of_ok (c := .enc) (congrArg liftStatus hx)

end Sys2Proof.Proofs
end

section
/-! PROOFS. What stands in the word of an accepted descriptor: its fields (42_encoder.md R159 to R161, R165) and its row
(30_encoding.md R79). -/

namespace Sys2Proof.Proofs

open Sys2Proof.Machine

/-! ### The parts of an accepted descriptor -/

theorem mem_presentDsts_iff {D : Desc} {d : Dst} :
    d ∈ presentDsts D ↔ (d = D.vdst ∨ d = D.sdst) ∧ d.mask ≠ 0 := by
  rw [mem_presentDsts]
  constructor
  · rintro (⟨rfl, hd⟩ | ⟨rfl, hd⟩)
    · exact ⟨.inl rfl, hd⟩
    · exact ⟨.inr rfl, hd⟩
  · rintro ⟨rfl | rfl, hd⟩
    · exact .inl ⟨rfl, hd⟩
    · exact .inr ⟨rfl, hd⟩

theorem not_dstBroken_of_contract {P : Params} {D : Desc} (h : ¬ ContractBroken P D) {d : Dst} (hd : d ∈ presentDsts D) :
    ¬ DstBroken d := by
  intro hb
  obtain ⟨rfl, hmask⟩ | ⟨rfl, hmask⟩ := (mem_presentDsts D d).mp hd
  · exact h (.inl ⟨hmask, hb⟩)
  · exact h (.inr (.inl ⟨hmask, hb⟩))

theorem not_srcBroken_of_contract {P : Params} {D : Desc} (h : ¬ ContractBroken P D) {i : Nat} (hi : SlotEncoded P D i) :
    ¬ SrcBroken (srcAt D i) := fun hb => h (.inr (.inr ⟨i, hi, hb⟩))

theorem slotAt_of_encoded {P : Params} {D : Desc} {i : Nat} (h : SlotEncoded P D i) :
    slotAt P D i = slotOf (srcAt D i) :=
  if_pos ((slotEncoded_iff P D i).mp h).2

theorem slotAt_of_not_encoded {P : Params} {D : Desc} {i : Nat} (hi : i < 3) (h : ¬ SlotEncoded P D i) :
    slotAt P D i = emptySlot :=
  if_neg fun he => h ((slotEncoded_iff P D i).mpr ⟨hi, he⟩)

theorem vHalfOf_of_present {D : Desc} (h : D.vdst.mask ≠ 0) :
    vHalfOf D = { op := D.vop, mask := D.vdst.mask, dst := dstField D.vdst } := if_pos (present_iff.mpr h)

theorem vHalfOf_of_absent {D : Desc} (h : D.vdst.mask = 0) : vHalfOf D = { op := 0, mask := 0, dst := 0 } :=
  if_neg fun hp => present_iff.mp hp h

theorem sHalfOf_of_present {D : Desc} (h : D.sdst.mask ≠ 0) :
    sHalfOf D = { op := D.sop, mask := D.sdst.mask, dst := dstField D.sdst } := if_pos (present_iff.mpr h)

theorem sHalfOf_of_absent {D : Desc} (h : D.sdst.mask = 0) : sHalfOf D = { op := 0, mask := 0, dst := 0 } :=
  if_neg fun hp => present_iff.mp hp h

section
variable {P : Params} {D : Desc} {cf af tg : Option (BitVec 8)} {sat : Bool}

theorem slot_encodedFields {i : Nat} (hi : i < 3) : (encodedFields P D cf af tg sat).slot i = slotAt P D i := by
  match i, hi with
  | 0, _ | 1, _ | 2, _ => rfl

theorem Accepted.cfetch_eq (h : Accepted P D cf af tg sat) {i : Nat} (hi : SlotEncoded P D i)
    (ht : (srcAt D i).type = .constant) : cf = some (srcAt D i).idx := (h.cfetch _).mp ⟨i, hi, ht, rfl⟩

theorem Accepted.afetch_eq (h : Accepted P D cf af tg sat) {i : Nat} (hi : SlotEncoded P D i)
    (ht : (srcAt D i).type = .attr) : af = some (srcAt D i).idx := (h.afetch _).mp ⟨i, hi, ht, rfl⟩

theorem Accepted.target_eq (h : Accepted P D cf af tg sat) {d : Dst} (hd : d ∈ presentDsts D) (ht : d.type = .varying) :
    tg = some d.idx := (h.target _).mp ⟨d, hd, ht, rfl⟩

/-- An accepted `attr` register fits the 4 bits of `afetch` (42_encoder.md R154 (f)). -/
theorem Accepted.attr_idx_lt (h : Accepted P D cf af tg sat) {i : Nat} (hi : SlotEncoded P D i)
    (ht : (srcAt D i).type = .attr) : (srcAt D i).idx.toNat < 2 ^ 4 := by
  have hfit : ¬ 15 < (srcAt D i).idx.toNat := fun hlt =>
    not_srcBroken_of_contract h.contract hi (.inr (.inr (.inl ⟨ht, hlt⟩)))
  omega

/-- An accepted varying destination fits the 5 bits of `tgt` (42_encoder.md R154 (c)). -/
theorem Accepted.target_idx_lt (h : Accepted P D cf af tg sat) {d : Dst} (hd : d ∈ presentDsts D)
    (ht : d.type = .varying) : d.idx.toNat < 2 ^ 5 := by
  have hfit : ¬ 31 < d.idx.toNat := fun hlt =>
    not_dstBroken_of_contract h.contract hd (.inr (.inr (.inr ⟨ht, hlt⟩)))
  omega

end

/-- A fold without candidates gives no value. -/
theorem eq_none_of_forall_not {α : Type} {p : α → Prop} {r : Option α} (h : ∀ x, p x ↔ r = some x)
    (hno : ∀ x, ¬ p x) : r = none :=
  Option.eq_none_iff_forall_ne_some.mpr fun x hx => hno x ((h x).mpr hx)

/-- A value that fits in fewer bits comes back from them unchanged. -/
theorem setWidth_setWidth_of_lt {n : Nat} (k : Nat) {x : BitVec n} (h : x.toNat < 2 ^ k) :
    (x.setWidth k).setWidth n = x :=
  BitVec.eq_of_toNat_eq (by
    rw [BitVec.toNat_setWidth, BitVec.toNat_setWidth, Nat.mod_eq_of_lt h, Nat.mod_eq_of_lt x.isLt])

theorem ofBool_eq_one_iff {b : Bool} : BitVec.ofBool b = 1 ↔ b = true := by cases b <;> decide

/-- Settles O17: the word's field record is that of the encoder, and the shared values are those that accepted it. -/
theorem encoderWritesTheFields : Obligations.EncoderWritesTheFields := by
  intro P D w hP hw
  obtain ⟨cf, af, tg, sat, hacc, rfl⟩ := encodeDesc_ok_iff.mp hw
  obtain ⟨-, hsat⟩ := saturate_eq_ok_iff.mp hacc.saturates
  simp only [readFields_writeFields hP, getField_writeFields hP, bit_zero_eq_last P hP]
  refine ⟨?vec, ?sc, fun i hi => ?slot, fun i hi he => ?empty, fun i hi ht => ?cfetch, fun hno => ?noCfetch,
    fun i hi ht => ?afetch, fun hno => ?noAfetch, fun d hd hmask ht => ?target, fun hno => ?noTarget,
    ofBool_eq_one_iff.trans hsat, rfl, rfl, rfl, rfl, flag_ofBool D.last, bit_writeFields_reserved P hP _⟩
  case vec =>
    split
    · next h => exact vHalfOf_of_present h
    · next h => exact vHalfOf_of_absent (not_not.mp h)
  case sc =>
    split
    · next h => exact sHalfOf_of_present h
    · next h => exact sHalfOf_of_absent (not_not.mp h)
  case slot =>
    rw [slot_encodedFields hi.1, slotAt_of_encoded hi]
    have htype : ∀ t, (srcAt D i).type = t → (slotOf (srcAt D i)).type = typeCode t := fun _ ht => congrArg typeCode ht
    exact ⟨htype .temp, htype .attr, htype .constant, rfl, rfl, rfl, rfl⟩
  case empty => rw [slot_encodedFields hi, slotAt_of_not_encoded hi he]; rfl
  case cfetch =>
    rw [hacc.cfetch_eq hi ht]
    rfl
  case noCfetch =>
    have hnone : cf = none := eq_none_of_forall_not hacc.cfetch fun _ ⟨i, hi, ht, _⟩ => hno i hi ht
    rw [hnone]
    rfl
  case afetch =>
    rw [hacc.afetch_eq hi ht]
    exact setWidth_setWidth_of_lt 4 (hacc.attr_idx_lt hi ht)
  case noAfetch =>
    have hnone : af = none := eq_none_of_forall_not hacc.afetch fun _ ⟨i, hi, ht, _⟩ => hno i hi ht
    rw [hnone]
    rfl
  case target =>
    have hmem : d ∈ presentDsts D := mem_presentDsts_iff.mpr ⟨hd, hmask⟩
    rw [hacc.target_eq hmem ht]
    exact ⟨setWidth_setWidth_of_lt 5 (hacc.target_idx_lt hmem ht), rfl⟩
  case noTarget =>
    have hnone : tg = none := eq_none_of_forall_not hacc.target fun _ ⟨d, hd, ht, _⟩ =>
      hno d (mem_presentDsts_iff.mp hd).1 (mem_presentDsts_iff.mp hd).2 ht
    rw [hnone]
    exact ⟨rfl, rfl⟩

/-! ### The row of an instruction -/

/-- The mnemonic of an instruction's row, of either family. -/
def rowOf : Instr → VMnemonic ⊕ SMnemonic
  | .vmov _ => .inl .mov | .vmul _ => .inl .mul | .vadd _ => .inl .add | .vmad _ => .inl .mad
  | .vdp3 _ => .inl .dp3 | .vdp4 _ => .inl .dp4 | .vmin _ => .inl .min | .vmax _ => .inl .max
  | .vslt _ => .inl .slt | .vsge _ => .inl .sge | .varl _ => .inl .arl | .vfrc _ => .inl .frc
  | .vflr _ => .inl .flr | .vseq _ => .inl .seq | .vsgt _ => .inl .sgt | .vsle _ => .inl .sle
  | .vsne _ => .inl .sne
  | .scos _ => .inr .cos | .smov _ => .inr .mov | .srcp _ => .inr .rcp | .srsq _ => .inr .rsq
  | .slg2 _ => .inr .lg2 | .sex2 _ => .inr .ex2 | .ssin _ => .inr .sin

@[simp] theorem rowOf_ofVec (m : VMnemonic) (f : VecForm) : rowOf (Instr.ofVec m f) = .inl m := by cases m <;> rfl

@[simp] theorem rowOf_ofSca (m : SMnemonic) (f : ScaForm) : rowOf (Instr.ofSca m f) = .inr m := by cases m <;> rfl

/-- What the descriptor's instruction says of the rows of its ops: the vector op's row leads. -/
theorem descInstr_rows (P : Params) (D : Desc) :
    (∃ m, vecRow P D.vdst.mask D.vop = some m ∧ descInstr P D = .ok (Instr.ofVec m (.desc D.vecDesc))) ∨
    (vecRow P D.vdst.mask D.vop = none ∧
      ∃ m, scaRow P D.sdst.mask D.sop = some m ∧ descInstr P D = .ok (Instr.ofSca m (.desc D.scaDesc))) ∨
    (vecRow P D.vdst.mask D.vop = none ∧ scaRow P D.sdst.mask D.sop = none ∧ ∃ e, descInstr P D = .error e) := by
  unfold descInstr
  cases vecRow P D.vdst.mask D.vop with
  | some m => exact .inl ⟨m, rfl, rfl⟩
  | none =>
    cases scaRow P D.sdst.mask D.sop with
    | some m => exact .inr (.inl ⟨rfl, m, rfl, rfl⟩)
    | none => exact .inr (.inr ⟨rfl, rfl, _, rfl⟩)

theorem descInstr_eq_ofVec {P : Params} {D : Desc} {m : VMnemonic} {f : VecForm}
    (h : descInstr P D = .ok (Instr.ofVec m f)) : vecRow P D.vdst.mask D.vop = some m := by
  obtain ⟨m', hv, hd⟩ | ⟨-, m', -, hd⟩ | ⟨-, -, e, hd⟩ := descInstr_rows P D
  · have hrow : m' = m := by simpa using congrArg rowOf (Except.ok.inj (hd.symm.trans h))
    rw [hv, hrow]
  · simpa using congrArg rowOf (Except.ok.inj (hd.symm.trans h))
  · exact nomatch hd.symm.trans h

theorem descInstr_eq_ofSca {P : Params} {D : Desc} {m : SMnemonic} {f : ScaForm}
    (h : descInstr P D = .ok (Instr.ofSca m f)) :
    vecRow P D.vdst.mask D.vop = none ∧ scaRow P D.sdst.mask D.sop = some m := by
  obtain ⟨m', -, hd⟩ | ⟨hv, m', hs, hd⟩ | ⟨-, -, e, hd⟩ := descInstr_rows P D
  · simpa using congrArg rowOf (Except.ok.inj (hd.symm.trans h))
  · have hrow : m' = m := by simpa using congrArg rowOf (Except.ok.inj (hd.symm.trans h))
    exact ⟨hv, by rw [hs, hrow]⟩
  · exact nomatch hd.symm.trans h

theorem descInstr_eq_error {P : Params} {D : Desc} {e : DecodeError} (h : descInstr P D = .error e) :
    vecRow P D.vdst.mask D.vop = none ∧ scaRow P D.sdst.mask D.sop = none := by
  obtain ⟨m, -, hd⟩ | ⟨-, m, -, hd⟩ | ⟨hv, hs, -⟩ := descInstr_rows P D
  · exact nomatch hd.symm.trans h
  · exact nomatch hd.symm.trans h
  · exact ⟨hv, hs⟩

theorem decodeFieldsInstr_of_no_row {P : Params} {F : Fields} (hv : vecRow P F.vec.mask F.vec.op = none)
    (hs : scaRow P F.sc.mask F.sc.op = none) : ∃ e, decodeFieldsInstr P F = .error e := by
  unfold decodeFieldsInstr
  rw [hv, hs]
  exact ⟨_, rfl⟩

/-- An absent op has no row, in the word as in the descriptor. -/
theorem vecRow_vHalfOf (P : Params) (D : Desc) :
    vecRow P (vHalfOf D).mask (vHalfOf D).op = vecRow P D.vdst.mask D.vop := by
  by_cases h : D.vdst.mask = 0
  · rw [vHalfOf_of_absent h, h]
    rfl
  · rw [vHalfOf_of_present h]

theorem scaRow_sHalfOf (P : Params) (D : Desc) :
    scaRow P (sHalfOf D).mask (sHalfOf D).op = scaRow P D.sdst.mask D.sop := by
  by_cases h : D.sdst.mask = 0
  · rw [sHalfOf_of_absent h, h]
    rfl
  · rw [sHalfOf_of_present h]

/-- Settles O24: the word's halves have the rows of the descriptor's ops, and the decoder chooses between them as the
descriptor does. -/
theorem encodedDescriptorHoldsItsRow : Obligations.EncodedDescriptorHoldsItsRow := by
  intro P D x hP hx
  obtain ⟨cf, af, tg, sat, -, rfl⟩ := encodeDesc_ok_iff.mp hx
  rw [decodeWord_writeFields hP]
  have hvec := vecRow_vHalfOf P D
  have hsca := scaRow_sHalfOf P D
  refine ⟨fun m o h => ?_, fun m o h => ?_, fun e h => ?_⟩
  · exact ⟨_, decodeFieldsInstr_of_vecRow (hvec.trans (descInstr_eq_ofVec h))⟩
  · obtain ⟨hv, hs⟩ := descInstr_eq_ofSca h
    exact ⟨_, decodeFieldsInstr_of_scaRow (hvec.trans hv) (hsca.trans hs)⟩
  · obtain ⟨hv, hs⟩ := descInstr_eq_error h
    exact decodeFieldsInstr_of_no_row (hvec.trans hv) (hsca.trans hs)

end Sys2Proof.Proofs
end

section
/-! PROOFS. The words the encoder returns are exactly the canonical words (42_encoder.md R166, 30_encoding.md R83). -/

namespace Sys2Proof.Proofs

open Sys2Proof.Machine

/-! ### Every word of the encoder is canonical -/

theorem typeCode_eq_zero_iff {t : RegType} : typeCode t = 0 ↔ t = .varying := by cases t <;> decide

theorem typeCode_eq_two_iff {t : RegType} : typeCode t = 2 ↔ t = .attr := by cases t <;> decide

theorem typeCode_eq_three_iff {t : RegType} : typeCode t = 3 ↔ t = .constant := by cases t <;> decide

theorem slotOf_idx_of_not_temp {s : Src} (h : s.type ≠ .temp) : (slotOf s).idx = 0 := if_neg h

/-- A temp destination never has the sentinel's index (42_encoder.md R154 (b)). -/
theorem dstField_eq_sentinel_iff {d : Dst} (h : ¬ DstBroken d) : dstField d = 63 ↔ d.type = .varying := by
  unfold DstBroken at h
  unfold dstField sentinel
  cases ht : d.type with
  | temp =>
    rw [if_neg nofun]
    have hfit : d.idx.toNat ≤ 62 := by simpa [ht] using h
    refine ⟨fun hd => ?_, nofun⟩
    have hmod : d.idx.toNat % 64 = 63 := congrArg BitVec.toNat hd
    omega
  | varying => simp
  | attr | constant => simp [ht] at h

theorem vHalfOf_mask (D : Desc) : (vHalfOf D).mask = D.vdst.mask := by
  by_cases h : D.vdst.mask = 0
  · rw [vHalfOf_of_absent h, h]
  · rw [vHalfOf_of_present h]

theorem sHalfOf_mask (D : Desc) : (sHalfOf D).mask = D.sdst.mask := by
  by_cases h : D.sdst.mask = 0
  · rw [sHalfOf_of_absent h, h]
  · rw [sHalfOf_of_present h]

theorem vHalfOf_dst_eq_sentinel_iff {P : Params} {D : Desc} (h : ¬ ContractBroken P D) :
    (vHalfOf D).dst = 63 ↔ D.vdst.mask ≠ 0 ∧ D.vdst.type = .varying := by
  by_cases hmask : D.vdst.mask = 0
  · rw [vHalfOf_of_absent hmask]
    exact ⟨nofun, fun hd => absurd hmask hd.1⟩
  · rw [vHalfOf_of_present hmask, and_iff_right hmask]
    exact dstField_eq_sentinel_iff (not_dstBroken_of_contract h (mem_presentDsts_iff.mpr ⟨.inl rfl, hmask⟩))

theorem sHalfOf_dst_eq_sentinel_iff {P : Params} {D : Desc} (h : ¬ ContractBroken P D) :
    (sHalfOf D).dst = 63 ↔ D.sdst.mask ≠ 0 ∧ D.sdst.type = .varying := by
  by_cases hmask : D.sdst.mask = 0
  · rw [sHalfOf_of_absent hmask]
    exact ⟨nofun, fun hd => absurd hmask hd.1⟩
  · rw [sHalfOf_of_present hmask, and_iff_right hmask]
    exact dstField_eq_sentinel_iff (not_dstBroken_of_contract h (mem_presentDsts_iff.mpr ⟨.inr rfl, hmask⟩))

section
variable {P : Params} {D : Desc} {cf af tg : Option (BitVec 8)} {sat : Bool}

/-- A slot the descriptor encodes is used by the word's ops. -/
theorem usesSlot_of_encoded {i : Nat} (h : SlotEncoded P D i) : usesSlot P (encodedFields P D cf af tg sat) i := by
  obtain ⟨-, ⟨hmask, hi⟩ | ⟨hmask, hi⟩, -⟩ := h
  · exact .inl (by simpa only [encodedFields, vHalfOf_of_present hmask] using ⟨hmask, hi⟩)
  · exact .inr (by simpa only [encodedFields, sHalfOf_of_present hmask] using ⟨hmask, hi⟩)

/-- A slot of the word is that of an encoded source, or empty. -/
theorem slot_encodedFields_cases {i : Nat} (hi : i < 3) :
    (SlotEncoded P D i ∧ (encodedFields P D cf af tg sat).slot i = slotOf (srcAt D i)) ∨
    (¬ SlotEncoded P D i ∧ (encodedFields P D cf af tg sat).slot i = emptySlot) := by
  rw [slot_encodedFields hi]
  by_cases h : SlotEncoded P D i
  · exact .inl ⟨h, slotAt_of_encoded h⟩
  · exact .inr ⟨h, slotAt_of_not_encoded hi h⟩

theorem slot_type_of_fetches {t : RegType} {n : BitVec 8} (h : Fetches P D t n) :
    ∃ i, i < 3 ∧ ((encodedFields P D cf af tg sat).slot i).type = typeCode t := by
  obtain ⟨i, hi, ht, -⟩ := h
  refine ⟨i, hi.1, ?_⟩
  rw [slot_encodedFields hi.1, slotAt_of_encoded hi, ← ht]
  rfl

/-- The word's destinations hold the sentinel exactly when the fold of the targets gave a value (42_encoder.md R157). -/
theorem Accepted.sentinel_iff (h : Accepted P D cf af tg sat) :
    (vHalfOf D).dst = 63 ∨ (sHalfOf D).dst = 63 ↔ tg.isSome = true := by
  rw [vHalfOf_dst_eq_sentinel_iff h.contract, sHalfOf_dst_eq_sentinel_iff h.contract, Option.isSome_iff_exists]
  constructor
  · rintro (⟨hmask, ht⟩ | ⟨hmask, ht⟩)
    · exact ⟨_, h.target_eq (mem_presentDsts_iff.mpr ⟨.inl rfl, hmask⟩) ht⟩
    · exact ⟨_, h.target_eq (mem_presentDsts_iff.mpr ⟨.inr rfl, hmask⟩) ht⟩
  · rintro ⟨n, hn⟩
    obtain ⟨d, hd, ht, -⟩ := (h.target n).mpr hn
    obtain ⟨rfl, hmask⟩ | ⟨rfl, hmask⟩ := (mem_presentDsts D d).mp hd
    · exact .inl ⟨hmask, ht⟩
    · exact .inr ⟨hmask, ht⟩

theorem canonical_of_accepted (hP : P.Valid) (h : Accepted P D cf af tg sat) :
    Canonical P (writeFields P (encodedFields P D cf af tg sat)) := by
  obtain ⟨-, hsat⟩ := saturate_eq_ok_iff.mp h.saturates
  constructor
  case reserved_zero => exact bit_writeFields_reserved P hP _
  all_goals simp only [readFields_writeFields hP, getField_writeFields hP, fieldValue]
  case gate_zero => exact ⟨rfl, rfl, rfl⟩
  case vec_absent =>
    intro hmask
    rw [encodedFields, vHalfOf_of_absent ((vHalfOf_mask D).symm.trans hmask)]
    exact ⟨rfl, rfl⟩
  case sc_absent =>
    intro hmask
    rw [encodedFields, sHalfOf_of_absent ((sHalfOf_mask D).symm.trans hmask)]
    exact ⟨rfl, rfl⟩
  case unused_zero =>
    intro i hi hunused
    rw [slot_encodedFields hi, slotAt_of_not_encoded hi fun he => hunused (usesSlot_of_encoded he)]
  case shared_index_zero =>
    intro i hi htype
    obtain ⟨-, hslot⟩ | ⟨-, hslot⟩ := slot_encodedFields_cases (P := P) (D := D) hi <;> rw [hslot] at htype ⊢
    · refine slotOf_idx_of_not_temp ?_
      obtain ht | ht := htype.imp typeCode_eq_two_iff.mp typeCode_eq_three_iff.mp <;> rw [ht] <;> nofun
    · rfl
  case untyped_zero =>
    intro i hi htype
    obtain ⟨he, hslot⟩ | ⟨-, hslot⟩ := slot_encodedFields_cases (P := P) (D := D) hi <;> rw [hslot] at htype ⊢
    exact absurd (.inl (typeCode_eq_zero_iff.mp htype)) (not_srcBroken_of_contract h.contract he)
  case cfetch_used =>
    intro hne
    cases hcf : cf with
    | none => simp [encodedFields, sharedOf, hcf] at hne
    | some n => exact slot_type_of_fetches ((h.cfetch n).mpr hcf)
  case afetch_used =>
    intro hne
    cases haf : af with
    | none => simp [encodedFields, sharedOf, haf] at hne
    | some n => exact slot_type_of_fetches ((h.afetch n).mpr haf)
  case vflag_exact => exact ofBool_eq_one_iff.trans h.sentinel_iff.symm
  case tgt_used =>
    intro hne
    refine h.sentinel_iff.mpr ?_
    cases htg : tg with
    | none => simp [encodedFields, sharedOf, htg] at hne
    | some n => rfl
  case sat_used =>
    intro hone
    rw [encodedFields, vHalfOf_mask, sHalfOf_mask]
    exact (hsat.mp (ofBool_eq_one_iff.mp hone)).imp And.left And.left

end

/-! ### A canonical word is the word of a descriptor -/

/-- The register type of a slot's type code that is not zero (30_encoding.md R65). -/
def regTypeOf (t : BitVec 2) : RegType := if t = 3 then .constant else if t = 2 then .attr else .temp

/-- The source a slot stands for, valid when the slot has a type. -/
def srcOfSlot (sh : Shared) (s : Slot) : Src :=
  { valid := decide (s.type ≠ 0), idx := (srcOf sh s).index, type := regTypeOf s.type, swz := s.swz, neg := s.neg
    abs := s.abs }

/-- The destination a destination field stands for, the sentinel being the shared varying. -/
def dstOfField (sh : Shared) (mask : BitVec 4) (d : BitVec 6) : Dst :=
  { idx := if d = 63 then sh.tgt.setWidth 8 else d.setWidth 8, type := if d = 63 then .varying else .temp, mask := mask
    sat := sh.sat }

/-- The descriptor whose word has these fields, if they are canonical. -/
def descOfFields (F : Fields) : Desc :=
  { vop := F.vec.op, vdst := dstOfField F.sh F.vec.mask F.vec.dst, sop := F.sc.op
    sdst := dstOfField F.sh F.sc.mask F.sc.dst, src0 := srcOfSlot F.sh F.s0, src1 := srcOfSlot F.sh F.s1
    src2 := srcOfSlot F.sh F.s2, last := F.sh.last }

theorem typeCode_regTypeOf : ∀ {t : BitVec 2}, t ≠ 0 → typeCode (regTypeOf t) = t := by decide

theorem regTypeOf_typeCode {t : RegType} (h : t ≠ .varying) : regTypeOf (typeCode t) = t := by
  cases t with
  | varying => exact absurd rfl h
  | _ => rfl

theorem slotOf_srcOfSlot (sh : Shared) {s : Slot} (htype : s.type ≠ 0) (hidx : s.type = 2 ∨ s.type = 3 → s.idx = 0) :
    slotOf (srcOfSlot sh s) = s := by
  have hindex : (if regTypeOf s.type = .temp then (srcOf sh s).index.setWidth 6 else 0) = s.idx := by
    by_cases hfetch : s.type = 2 ∨ s.type = 3
    · have hne : regTypeOf s.type ≠ .temp := by obtain h | h := hfetch <;> rw [h] <;> decide
      rw [if_neg hne, hidx hfetch]
    · obtain ⟨h2, h3⟩ := not_or.mp hfetch
      rw [regTypeOf, if_neg h3, if_neg h2, if_pos rfl, srcOf, if_neg h2, if_neg h3]
      exact setWidth_setWidth_of_lt 8 (by omega)
  rw [slotOf, srcOfSlot, hindex, typeCode_regTypeOf htype]

theorem dstOfField_of_ne {sh : Shared} {mask : BitVec 4} {d : BitVec 6} (h : d ≠ 63) :
    dstOfField sh mask d = { idx := d.setWidth 8, type := .temp, mask := mask, sat := sh.sat } := by
  rw [dstOfField, if_neg h, if_neg h]

theorem dstOfField_type_iff {sh : Shared} {mask : BitVec 4} {d : BitVec 6} :
    (dstOfField sh mask d).type = .varying ↔ d = 63 := by
  by_cases h : d = 63
  · exact iff_of_true (if_pos h) h
  · rw [dstOfField_of_ne h]
    exact iff_of_false nofun h

theorem dstField_dstOfField (sh : Shared) (mask : BitVec 4) (d : BitVec 6) : dstField (dstOfField sh mask d) = d := by
  by_cases h : d = 63
  · rw [dstField, if_pos (dstOfField_type_iff.mpr h), h]
    rfl
  · rw [dstField, if_neg (mt dstOfField_type_iff.mp h), dstOfField_of_ne h]
    exact setWidth_setWidth_of_lt 8 (by omega)

/-- What a destination field stands for fits: a temp is not the sentinel, and a target has 5 bits. -/
theorem not_dstBroken_dstOfField (sh : Shared) (mask : BitVec 4) (d : BitVec 6) :
    ¬ DstBroken (dstOfField sh mask d) := by
  rw [← dstOk_iff]
  by_cases h : d = 63
  · have htgt := sh.tgt.isLt
    have hfit : (sh.tgt.setWidth 8).toNat ≤ 31 := by rw [BitVec.toNat_setWidth]; omega
    rw [h]
    exact decide_eq_true hfit
  · have hne : d.toNat ≠ 63 := fun he => h (BitVec.eq_of_toNat_eq he)
    have hfit : (d.setWidth 8).toNat ≤ 62 := by rw [BitVec.toNat_setWidth]; omega
    rw [dstOfField_of_ne h]
    exact decide_eq_true hfit

/-- What a slot stands for fits: the field its index comes from is as wide as its type allows. -/
theorem not_srcBroken_srcOfSlot (sh : Shared) (s : Slot) : ¬ SrcBroken (srcOfSlot sh s) := by
  rw [← srcOk_iff, srcOk, srcOfSlot, regTypeOf, srcOf]
  by_cases h3 : s.type = 3
  · have hfit : sh.cfetch.toNat ≤ 255 := by omega
    rw [h3]
    exact decide_eq_true hfit
  by_cases h2 : s.type = 2
  · have hfit : (sh.afetch.setWidth 8).toNat ≤ 15 := by rw [BitVec.toNat_setWidth]; omega
    rw [h2]
    exact decide_eq_true hfit
  · have hfit : (s.idx.setWidth 8).toNat ≤ 63 := by rw [BitVec.toNat_setWidth]; omega
    rw [if_neg h3, if_neg h2, if_neg h2, if_neg h3]
    exact decide_eq_true hfit

theorem srcAt_descOfFields (F : Fields) (i : Nat) : srcAt (descOfFields F) i = srcOfSlot F.sh (F.slot i) := by
  match i with
  | 0 | 1 | _ + 2 => rfl

section
variable {P : Params} {w : BitWord}

/-- In a canonical word the encoded slots are those with a type, since an unused slot has none. -/
theorem slotEncoded_descOfFields (hc : Canonical P w) {i : Nat} :
    SlotEncoded P (descOfFields (readFields P w)) i ↔ i < 3 ∧ ((readFields P w).slot i).type ≠ 0 := by
  unfold SlotEncoded
  rw [srcAt_descOfFields]
  constructor
  · rintro ⟨hi, -, hvalid⟩
    exact ⟨hi, of_decide_eq_true hvalid⟩
  · rintro ⟨hi, htype⟩
    refine ⟨hi, ?_, decide_eq_true htype⟩
    by_contra hunused
    exact htype (congrArg Slot.type (hc.unused_zero i hi hunused))

theorem slotAt_descOfFields (hc : Canonical P w) {i : Nat} (hi : i < 3) :
    slotAt P (descOfFields (readFields P w)) i = (readFields P w).slot i := by
  by_cases htype : ((readFields P w).slot i).type = 0
  · rw [slotAt_of_not_encoded hi fun he => ((slotEncoded_descOfFields hc).mp he).2 htype, hc.untyped_zero i hi htype]
  · rw [slotAt_of_encoded ((slotEncoded_descOfFields hc).mpr ⟨hi, htype⟩), srcAt_descOfFields,
      slotOf_srcOfSlot _ htype (hc.shared_index_zero i hi)]

theorem vHalfOf_descOfFields (hc : Canonical P w) : vHalfOf (descOfFields (readFields P w)) = (readFields P w).vec := by
  by_cases hmask : getField P w .vmask = 0
  · obtain ⟨hop, hdst⟩ := hc.vec_absent hmask
    rw [vHalfOf_of_absent hmask]
    simp only [readFields, hop, hmask, hdst]
  · rw [vHalfOf_of_present hmask]
    simp only [descOfFields, dstField_dstOfField]
    rfl

theorem sHalfOf_descOfFields (hc : Canonical P w) : sHalfOf (descOfFields (readFields P w)) = (readFields P w).sc := by
  by_cases hmask : getField P w .smask = 0
  · obtain ⟨hop, hdst⟩ := hc.sc_absent hmask
    rw [sHalfOf_of_absent hmask]
    simp only [readFields, hop, hmask, hdst]
  · rw [sHalfOf_of_present hmask]
    simp only [descOfFields, dstField_dstOfField]
    rfl

theorem not_contractBroken_descOfFields (F : Fields) : ¬ ContractBroken P (descOfFields F) := by
  rintro (⟨-, hb⟩ | ⟨-, hb⟩ | ⟨i, -, hb⟩)
  · exact not_dstBroken_dstOfField _ _ _ hb
  · exact not_dstBroken_dstOfField _ _ _ hb
  · rw [srcAt_descOfFields] at hb
    exact not_srcBroken_srcOfSlot _ _ hb

/-- A shared index `v` that every slot of its type stands for, and that is zero without such a slot, is the fold's. -/
theorem exists_fetch_descOfFields (hc : Canonical P w) {t : RegType} {v : BitVec 8} (ht : t ≠ .varying)
    (hidx : ∀ s : Slot, s.type = typeCode t → (srcOf (readFields P w).sh s).index = v)
    (hused : v ≠ 0 → ∃ i, i < 3 ∧ ((readFields P w).slot i).type = typeCode t) :
    ∃ r : Option (BitVec 8), (∀ n, Fetches P (descOfFields (readFields P w)) t n ↔ r = some n) ∧ r.getD 0 = v := by
  have hiff : ∀ n, Fetches P (descOfFields (readFields P w)) t n ↔
      (∃ i, i < 3 ∧ ((readFields P w).slot i).type = typeCode t) ∧ v = n := by
    intro n
    simp only [Fetches, slotEncoded_descOfFields hc, srcAt_descOfFields]
    constructor
    · rintro ⟨i, ⟨hi, hne⟩, htype, rfl⟩
      have hcode : ((readFields P w).slot i).type = typeCode t := by
        rw [← htype]
        exact (typeCode_regTypeOf hne).symm
      exact ⟨⟨i, hi, hcode⟩, (hidx _ hcode).symm⟩
    · rintro ⟨⟨i, hi, hcode⟩, rfl⟩
      refine ⟨i, ⟨hi, ?_⟩, ?_, hidx _ hcode⟩
      · exact fun h0 => ht (typeCode_eq_zero_iff.mp (hcode.symm.trans h0))
      · exact (congrArg regTypeOf hcode).trans (regTypeOf_typeCode ht)
  by_cases hslot : ∃ i, i < 3 ∧ ((readFields P w).slot i).type = typeCode t
  · exact ⟨some v, fun n => by rw [hiff, and_iff_right hslot, Option.some.injEq], rfl⟩
  · refine ⟨none, fun n => ⟨fun h => absurd ((hiff n).mp h).1 hslot, nofun⟩, ?_⟩
    exact (not_not.mp (mt hused hslot)).symm

/-- The varying index `tgt` is the fold's exactly when `vflag` is set. -/
theorem exists_target_descOfFields (hc : Canonical P w) :
    ∃ r : Option (BitVec 8), (∀ n, Targets (descOfFields (readFields P w)) n ↔ r = some n) ∧
      (r.getD 0).setWidth 5 = getField P w .tgt ∧ r.isSome = flag (getField P w .vflag) := by
  have hiff : ∀ n, Targets (descOfFields (readFields P w)) n ↔
      getField P w .vflag = 1 ∧ (getField P w .tgt).setWidth 8 = n := by
    intro n
    rw [hc.vflag_exact]
    have hidx : ∀ (mask : BitVec 4) {d : BitVec 6}, d = 63 →
        (dstOfField (readFields P w).sh mask d).idx = (getField P w .tgt).setWidth 8 := fun _ _ h => if_pos h
    constructor
    · rintro ⟨d, hd, ht, rfl⟩
      obtain ⟨rfl, -⟩ | ⟨rfl, -⟩ := (mem_presentDsts _ d).mp hd
      · have hdst := dstOfField_type_iff.mp ht
        exact ⟨.inl hdst, (hidx _ hdst).symm⟩
      · have hdst := dstOfField_type_iff.mp ht
        exact ⟨.inr hdst, (hidx _ hdst).symm⟩
    · rintro ⟨hdst | hdst, rfl⟩
      · have hmask : getField P w .vmask ≠ 0 := fun h0 => nomatch hdst.symm.trans (hc.vec_absent h0).2
        exact ⟨_, mem_presentDsts_iff.mpr ⟨.inl rfl, hmask⟩, dstOfField_type_iff.mpr hdst, hidx _ hdst⟩
      · have hmask : getField P w .smask ≠ 0 := fun h0 => nomatch hdst.symm.trans (hc.sc_absent h0).2
        exact ⟨_, mem_presentDsts_iff.mpr ⟨.inr rfl, hmask⟩, dstOfField_type_iff.mpr hdst, hidx _ hdst⟩
  by_cases hflag : getField P w .vflag = 1
  · refine ⟨some ((getField P w .tgt).setWidth 8), fun n => ?_, ?_, ?_⟩
    · rw [hiff, and_iff_right hflag, Option.some.injEq]
    · exact setWidth_setWidth_of_lt 8 (by omega)
    · rw [hflag]
      rfl
  · refine ⟨none, fun n => ⟨fun h => absurd ((hiff n).mp h).1 hflag, nofun⟩, ?_, ?_⟩
    · exact (not_not.mp (mt hc.tgt_used (mt hc.vflag_exact.mpr hflag))).symm
    · exact (beq_eq_false_iff_ne.mpr hflag).symm

theorem saturate_descOfFields (hc : Canonical P w) :
    saturate (descOfFields (readFields P w)) = .ok (flag (getField P w .sat)) := by
  refine saturate_eq_ok_iff.mpr ⟨fun _ _ => rfl, fun hsat => ?_, ?_⟩
  · exact (hc.sat_used (beq_iff_eq.mp hsat)).imp (fun h => ⟨h, hsat⟩) (fun h => ⟨h, hsat⟩)
  · rintro (⟨-, hsat⟩ | ⟨-, hsat⟩) <;> exact hsat

/-- A word without reserved bits is the word of its fields. -/
theorem writeFields_readFields (hP : P.Valid)
    (hres : ∀ b, b < 128 → (∀ f : Field, b < P.lo f ∨ P.hi f < b) → bit w b = false) :
    writeFields P (readFields P w) = w :=
  word_ext hP (fun f => by rw [getField_writeFields hP, getField_eq_fieldValue]) (bit_writeFields_reserved P hP _) hres

theorem encodeDesc_descOfFields (hP : P.Valid) (hc : Canonical P w) :
    encodeDesc P (descOfFields (readFields P w)) = .ok w := by
  obtain ⟨cf, hcf, hcfetch⟩ := exists_fetch_descOfFields hc (t := .constant) (v := getField P w .cfetch) nofun
    (fun s hs => by simp [srcOf, hs, typeCode, readFields]) hc.cfetch_used
  obtain ⟨af, haf, hafetch⟩ := exists_fetch_descOfFields hc (t := .attr) (v := (getField P w .afetch).setWidth 8) nofun
    (fun s hs => by simp [srcOf, hs, typeCode, readFields])
    fun hne => hc.afetch_used fun h0 => hne (by rw [h0]; rfl)
  obtain ⟨tg, htg, htgt, hvflag⟩ := exists_target_descOfFields hc
  obtain ⟨hpen, hpneg, hpswz⟩ := hc.gate_zero
  refine encodeDesc_ok_iff.mpr ⟨cf, af, tg, flag (getField P w .sat),
    ⟨not_contractBroken_descOfFields _, hcf, haf, htg, saturate_descOfFields hc⟩, ?_⟩
  have hafetch4 : (af.getD 0).setWidth 4 = getField P w .afetch := by
    rw [hafetch]
    exact setWidth_setWidth_of_lt 8 (by omega)
  have hshared : sharedOf (descOfFields (readFields P w)) cf af tg (flag (getField P w .sat)) = (readFields P w).sh := by
    simp only [sharedOf, hcfetch, hafetch4, htgt, hvflag, readFields, hpen, hpneg, hpswz]
    rfl
  have hfields : encodedFields P (descOfFields (readFields P w)) cf af tg (flag (getField P w .sat)) = readFields P w := by
    rw [encodedFields, vHalfOf_descOfFields hc, sHalfOf_descOfFields hc, slotAt_descOfFields hc (by decide),
      slotAt_descOfFields hc (by decide), slotAt_descOfFields hc (by decide), hshared]
    rfl
  rw [hfields, writeFields_readFields hP hc.reserved_zero]

end

/-- Settles O18: an accepted descriptor's fields are canonical, and a canonical word is that of the descriptor its fields
stand for. -/
theorem canonicalWordsAreTheImage : Obligations.CanonicalWordsAreTheImage := by
  refine fun P w hP => ⟨fun ⟨D, hD⟩ => ?_, fun hc => ⟨_, encodeDesc_descOfFields hP hc⟩⟩
  obtain ⟨cf, af, tg, sat, hacc, rfl⟩ := encodeDesc_ok_iff.mp hD
  exact canonical_of_accepted hP hacc

end Sys2Proof.Proofs
end

section
/-! PROOFS. The record of a word field by field (43_decoder.md R181), and that of the encoder's word read off the
descriptor (R192, R193). -/

namespace Sys2Proof.Proofs

open Sys2Proof.Machine

/-! ### The record of a word -/

theorem take_three {α : Type} (f : Nat → α) {n : Nat} (hn : n ≤ 3) : [f 0, f 1, f 2].take n = (List.range n).map f := by
  match n, hn with
  | 0, _ | 1, _ | 2, _ | 3, _ => rfl

/-- The sources of a vector op are those of its first slots, in slot order. -/
theorem vecSrcs_eq_map_range (F : Fields) {n : Nat} (hn : n ≤ 3) :
    vecSrcs F n = (List.range n).map fun i => srcOf F.sh (F.slot i) := by
  have hslots : [F.s0, F.s1, F.s2].take n = (List.range n).map F.slot := take_three F.slot hn
  rw [vecSrcs, hslots, List.map_map]
  rfl

theorem flag_eq_true_iff {b : BitVec 1} : flag b = true ↔ b = 1 := beq_iff_eq

/-- Settles O32: the decoder's own destinations and sources are those of R181, and each half is shown when its mask is not
zero. -/
theorem recordOfAWord : Obligations.RecordOfAWord := by
  intro P w
  refine ⟨dstOf (readFields P w).sh, fun i => srcOf (readFields P w).sh ((readFields P w).slot i), fun d => ?dst,
    fun i _ => rfl, ?record⟩
  case dst => simp only [dstOf, sentinel, readFields, flag_eq_true_iff]
  case record =>
    have hvec : vecRec P (readFields P w) = if getField P w .vmask ≠ 0 then _ else none :=
      if_congr present_iff rfl rfl
    have hsc : scaRec P (readFields P w) = if getField P w .smask ≠ 0 then _ else none :=
      if_congr present_iff rfl rfl
    have hpred : predOf (readFields P w).sh = if getField P w .pen = 1 then _ else none :=
      if_congr flag_eq_true_iff rfl rfl
    rw [decodeFields, recOfFields, recWith, hvec, hsc, hpred, vecRecNamed,
      vecSrcs_eq_map_range _ (vArity_le P (readFields P w).vec.op)]
    rfl

/-! ### The record of an accepted descriptor's word -/

/-- The saturate flag the checks agree on is that of the present ops (42_encoder.md R158). -/
theorem eq_of_saturate_eq_ok {D : Desc} {b : Bool} (h : saturate D = .ok b) :
    b = ((present D.vdst.mask && D.vdst.sat) || (present D.sdst.mask && D.sdst.sat)) := by
  unfold saturate at h
  split at h
  · exact nomatch h
  · exact (Except.ok.inj h).symm

section
variable {P : Params} {D : Desc} {cf af tg : Option (BitVec 8)} {sat : Bool}

/-- The shared target gives a varying destination its index back, and a temp index is never the sentinel. -/
theorem Accepted.dstOf_dstField (h : Accepted P D cf af tg sat) {d : Dst} (hd : d ∈ presentDsts D) :
    dstOf (sharedOf D cf af tg sat) (dstField d) = descDst d := by
  have hsentinel : dstField d = sentinel ↔ d.type = .varying :=
    dstField_eq_sentinel_iff (not_dstBroken_of_contract h.contract hd)
  unfold dstOf descDst
  by_cases ht : d.type = .varying
  · have htg : tg = some d.idx := h.target_eq hd ht
    rw [if_neg (not_not.mpr (hsentinel.mpr ht)), if_pos ht, htg]
    rfl
  · rw [if_pos (mt hsentinel.mp ht), if_neg ht, dstField, if_neg ht]

/-- An accepted temp register fits the 6 bits of a slot's index (42_encoder.md R154 (e)). -/
theorem Accepted.temp_idx_lt (h : Accepted P D cf af tg sat) {i : Nat} (hi : SlotEncoded P D i)
    (ht : (srcAt D i).type = .temp) : (srcAt D i).idx.toNat < 2 ^ 6 := by
  have hfit : ¬ 63 < (srcAt D i).idx.toNat := fun hlt =>
    not_srcBroken_of_contract h.contract hi (.inr (.inl ⟨ht, hlt⟩))
  omega

/-- A source's index comes back from its slot, or from the shared fetch of its type. -/
theorem Accepted.srcOf_slotOf_index (h : Accepted P D cf af tg sat) {i : Nat} (hi : SlotEncoded P D i) :
    (srcOf (sharedOf D cf af tg sat) (slotOf (srcAt D i))).index = (srcAt D i).idx := by
  unfold srcOf slotOf
  cases ht : (srcAt D i).type with
  | temp => exact setWidth_setWidth_of_lt 6 (h.temp_idx_lt hi ht)
  | attr =>
    rw [h.afetch_eq hi ht]
    exact setWidth_setWidth_of_lt 4 (h.attr_idx_lt hi ht)
  | constant =>
    rw [h.cfetch_eq hi ht]
    rfl
  | varying => exact absurd (.inl ht) (not_srcBroken_of_contract h.contract hi)

/-- A slot that a present op uses decodes to the descriptor's source, valid or not. -/
theorem Accepted.srcOf_slotAt (h : Accepted P D cf af tg sat) {i : Nat} (hi : i < 3)
    (huse : (D.vdst.mask ≠ 0 ∧ i < vArity P D.vop) ∨ (D.sdst.mask ≠ 0 ∧ i = 2)) :
    srcOf (sharedOf D cf af tg sat) (slotAt P D i) = descSrc (srcAt D i) := by
  unfold descSrc
  cases hvalid : (srcAt D i).valid with
  | true =>
    have henc : SlotEncoded P D i := ⟨hi, huse, hvalid⟩
    rw [slotAt_of_encoded henc, if_pos rfl, ← h.srcOf_slotOf_index henc]
    rfl
  | false =>
    have hempty : ¬ SlotEncoded P D i := fun ⟨_, _, hv⟩ => Bool.false_ne_true (hvalid.symm.trans hv)
    rw [slotAt_of_not_encoded hi hempty]
    rfl

/-- The vector half of the word decodes to the descriptor's vector op, with its own sources. -/
theorem Accepted.vecRec_eq (h : Accepted P D cf af tg sat) :
    vecRec P (encodedFields P D cf af tg sat) = (recOfDesc P D).vec := by
  by_cases hmask : D.vdst.mask = 0
  · rw [vecRec_of_absent ((vHalfOf_mask D).trans hmask)]
    exact (if_neg fun hp => present_iff.mp hp hmask).symm
  · have hhalf : (encodedFields P D cf af tg sat).vec = ⟨D.vop, D.vdst.mask, dstField D.vdst⟩ := vHalfOf_of_present hmask
    have hsrcs : vecSrcs (encodedFields P D cf af tg sat) (vArity P D.vop) =
        ([D.src0, D.src1, D.src2].take (vArity P D.vop)).map descSrc := by
      have hslots : [D.src0, D.src1, D.src2].take (vArity P D.vop) = (List.range (vArity P D.vop)).map (srcAt D) :=
        take_three (srcAt D) (vArity_le P D.vop)
      rw [vecSrcs_eq_map_range _ (vArity_le P D.vop), hslots, List.map_map]
      refine List.map_congr_left fun i hi => ?_
      have hlt : i < vArity P D.vop := List.mem_range.mp hi
      have hi3 : i < 3 := hlt.trans_le (vArity_le P D.vop)
      rw [slot_encodedFields hi3]
      exact h.srcOf_slotAt hi3 (.inl ⟨hmask, hlt⟩)
    rw [vecRec_of_present (by rw [hhalf]; exact hmask), vecRecNamed, hhalf, hsrcs]
    dsimp only [encodedFields]
    rw [h.dstOf_dstField (mem_presentDsts_iff.mpr ⟨.inl rfl, hmask⟩)]
    exact (if_pos (present_iff.mpr hmask)).symm

/-- The scalar half of the word decodes to the descriptor's scalar op, with slot 2. -/
theorem Accepted.scaRec_eq (h : Accepted P D cf af tg sat) :
    scaRec P (encodedFields P D cf af tg sat) = (recOfDesc P D).sc := by
  by_cases hmask : D.sdst.mask = 0
  · rw [scaRec_of_absent ((sHalfOf_mask D).trans hmask)]
    exact (if_neg fun hp => present_iff.mp hp hmask).symm
  · have hhalf : (encodedFields P D cf af tg sat).sc = ⟨D.sop, D.sdst.mask, dstField D.sdst⟩ := sHalfOf_of_present hmask
    have hsrc : srcOf (sharedOf D cf af tg sat) (slotAt P D 2) = descSrc D.src2 :=
      h.srcOf_slotAt (by decide) (.inr ⟨hmask, rfl⟩)
    rw [scaRec_of_present (by rw [hhalf]; exact hmask), scaRecNamed, hhalf]
    dsimp only [encodedFields]
    rw [hsrc, h.dstOf_dstField (mem_presentDsts_iff.mpr ⟨.inr rfl, hmask⟩)]
    exact (if_pos (present_iff.mpr hmask)).symm

theorem Accepted.recOfFields_eq (h : Accepted P D cf af tg sat) :
    recOfFields P (encodedFields P D cf af tg sat) = recOfDesc P D := by
  have hv : (encodedFields P D cf af tg sat).vec.mask = D.vdst.mask := vHalfOf_mask D
  have hs : (encodedFields P D cf af tg sat).sc.mask = D.sdst.mask := sHalfOf_mask D
  have hsat : (encodedFields P D cf af tg sat).sh.sat = _ := eq_of_saturate_eq_ok h.saturates
  rw [recOfFields, h.vecRec_eq, h.scaRec_eq, recWith, hv, hs, hsat]
  rfl

end

/-- Decode of encode is the record of the descriptor (43_decoder.md R193). -/
theorem decodeFields_of_encodeDesc {P : Params} (hP : P.Valid) {D : Desc} {w : BitWord} (h : encodeDesc P D = .ok w) :
    decodeFields P w = recOfDesc P D := by
  obtain ⟨cf, af, tg, sat, hacc, rfl⟩ := encodeDesc_ok_iff.mp h
  rw [decodeFields, readFields_writeFields hP, hacc.recOfFields_eq]

end Sys2Proof.Proofs
end

section
/-! PROOFS. A step runs the host's next action, and with it the decoded instruction; DEC shows every word, DISASM every word
of a stream (43_decoder.md R192 to R195, 42_encoder.md R167). -/

namespace Sys2Proof.Proofs

open Sys2Proof.Machine

/-! ### A step and its instruction -/

/-- Under all parameters a step that runs a command is that command. -/
theorem stepIn_of_command {P : Params} {s : State} {c : Command} {rest : List HostAction}
    (h : s.host = .command c :: rest) : stepIn P s = runCommandIn P c { s with host := rest } := by
  rw [stepIn, stepWith, h]
  rfl

theorem stepIn_of_dec {P : Params} {s : State} {rest : List HostAction} {i : Instr} (h : s.host = .command .dec :: rest)
    (hi : decodeWord P s.w = .ok i) : stepIn P s = execIn P i { s with host := rest } := by
  have hdec : runDec P (execIn P) { s with host := rest } = execIn P i { s with host := rest } := by
    rw [runDec, hi]
  exact (stepIn_of_command h).trans hdec

theorem stepIn_of_enc {P : Params} {s : State} {rest : List HostAction} {i : Instr} (h : s.host = .command .enc :: rest)
    (hi : descInstr P s.d = .ok i) : stepIn P s = execIn P i { s with host := rest } := by
  have henc : runEnc P (execIn P) { s with host := rest } = execIn P i { s with host := rest } := by
    rw [runEnc, hi]
  exact (stepIn_of_command h).trans henc

/-- The instruction of a table word is the one its container decodes to. -/
theorem decodeWord_of_decodeTableWord {nbits w : Nat} {i : Instr} (h : decodeTableWord nbits w = some i) :
    decodeWord params (tableWord nbits w) = .ok i := by
  rw [decodeTableWord, decodeBytes_bytesOfWords] at h
  cases hi : decodeWord params (tableWord nbits w) with
  | ok j =>
    rw [hi] at h
    exact congrArg Except.ok (Option.some.inj h)
  | error e =>
    rw [hi] at h
    exact nomatch h

/-- Settles O4: the machine is the block under the default parameters, and ENC and DEC run exec of what they decode. -/
theorem stepRunsTheDecodedInstruction : Obligations.StepRunsTheDecodedInstruction := by
  refine ⟨step_eq, runCommand_eq, fun i s => by rw [exec_eq_execIn], fun P s rest c => stepIn_of_command,
    fun P s rest i => stepIn_of_dec, fun P s rest i => stepIn_of_enc, fun s rest i h hi => ?_, fun s rest i h hi => ?_,
    fun s nbits w i hi => ?_⟩
  · rw [step_eq, exec_eq_execIn, stepIn_of_dec h hi]
  · rw [step_eq, exec_eq_execIn, stepIn_of_enc h hi]
  · have hword : decodeWord params (s.withFetchWord nbits w).w = .ok i := decodeWord_of_decodeTableWord hi
    rw [step_eq, exec_eq_execIn, stepIn_of_dec rfl hword]
    rfl

/-! ### DEC, and ENC before it -/

/-- Settles O31: DEC's result is the record of the word, and it has no refusal. -/
theorem decShowsEveryWord : Obligations.DecShowsEveryWord := fun _ => runCommand_of_ok (c := .dec) rfl

/-- ENC then DEC, under all valid parameters: the word in `W`, the record and the text of the descriptor. -/
theorem stepIn_enc_dec {P : Params} (hP : P.Valid) {s : State} {w : BitWord} {rest : List HostAction}
    (hhost : s.host = .command .enc :: .command .dec :: rest) (h : encodeDesc P s.d = .ok w) :
    ∃ m, stepIn P s = .next m ∧
      stepIn P m = .next { s with w := w, drec := recOfDesc P s.d, st := .ok, host := rest
                                  txt := .one (render P.text (recOfDesc P s.d)) } := by
  have henc : stepIn P s = .next { s with w := w, st := .ok, host := .command .dec :: rest } := by
    rw [stepIn_of_command hhost]
    exact (runEnc_eq P _).trans (encodeInto_ok h)
  refine ⟨_, henc, ?_⟩
  rw [stepIn_of_command rfl, ← decodeFields_of_encodeDesc hP h]
  exact (runDec_eq P _).trans (showRecord_eq P _ _)

/-- Settles O21: the record of the encoder's word is the descriptor's, and DEC writes that record and its text. -/
theorem decodeOfEncodeIsTheDescriptor : Obligations.DecodeOfEncodeIsTheDescriptor := by
  refine ⟨fun P D w hP h => ?_, fun P s w rest hP => stepIn_enc_dec hP, fun s w rest hhost h => ?_⟩
  · have hrec : decodeFields P w = recOfDesc P D := decodeFields_of_encodeDesc hP h
    exact ⟨hrec, congrArg (render P.text) hrec⟩
  · simp only [step_eq]
    exact stepIn_enc_dec params_valid hhost h

/-! ### DISASM -/

/-- The container of the sixteen bytes at an address. -/
def groupAt (b : Buffer) (a : Nat) : BitWord := wordsOfBytes ((List.range 16).map fun j => b.byte (a + j))

/-- Words inside the memory are all rendered, in address order. -/
theorem disasmWords_of_le (P : Params) {b : Buffer} (n : Nat) : ∀ {a : Nat}, a + 16 * n ≤ b.len →
    disasmWords P b n a = .ok ((List.range n).map fun k => decodeText P (groupAt b (a + 16 * k))) := by
  induction n with
  | zero => exact fun _ => rfl
  | succ n ih =>
    intro a h
    have hnext : ∀ k, a + 16 + 16 * k = a + 16 * (k + 1) := by omega
    have hgroup : readGroup b a = some (groupAt b a) := readGroup_eq_wordsOfBytes (by omega)
    rw [disasmWords, hgroup, ih (by omega), List.range_succ_eq_map, List.map_cons, List.map_map]
    simp only [hnext]
    rfl

theorem disassemble_accepted (P : Params) {b : Buffer} {sOff sLen : Nat} (hlen : sLen % 16 = 0)
    (hin : sOff + sLen ≤ b.len) :
    disassemble P b sOff sLen =
      .ok ((List.range (sLen / 16)).map fun k => decodeText P (groupAt b (sOff + 16 * k))) := by
  rw [disassemble, if_neg (by omega), disasmWords_of_le P (sLen / 16) (by omega)]

theorem disassemble_refused (P : Params) {b : Buffer} {sOff sLen : Nat} (h : sLen % 16 ≠ 0 ∨ b.len < sOff + sLen) :
    disassemble P b sOff sLen = .error (.raise .malformedContainer) := if_pos h

/-- Settles O39: a refused stream raises its status; an accepted one is read word by word to its end. -/
theorem disasmRendersEveryWord : Obligations.DisasmRendersEveryWord := by
  intro s sOff sLen
  refine ⟨fun h => runCommand_of_raise (c := .disasm sOff sLen) (disassemble_refused params h), fun hlen hin =>
    ⟨_, runCommand_of_ok (c := .disasm sOff sLen) (disassemble_accepted params hlen hin), by simp, fun k hk => ?_⟩⟩
  rw [List.getElem?_map, List.getElem?_range hk]
  rfl

end Sys2Proof.Proofs
end

section
/-! PROOFS. The text of a record: its operands and names (43_decoder.md R183 to R186, R191), its lines and their joining
(R187 to R190). -/

namespace Sys2Proof.Proofs

open Sys2Proof.Machine

/-! ### Operands and names -/

/-- The letter of a component number below 4 (30_encoding.md R67). -/
def letterOf (n : Nat) : Text := compLetter (BitVec.ofNat 2 n)

/-- The component that two bits of a swizzle select. -/
theorem compLetter_extractLsb' (z : BitVec 8) (k : Nat) :
    compLetter (z.extractLsb' k 2) = letterOf (z.toNat / 2 ^ k % 4) := by
  have hsel : z.extractLsb' k 2 = BitVec.ofNat 2 (z.toNat / 2 ^ k % 4) := by
    apply BitVec.eq_of_toNat_eq
    simp [Nat.shiftRight_eq_div_pow]
  rw [hsel, letterOf]

theorem renderSwz_eq (z : BitVec 8) :
    renderSwz z = letterOf (z.toNat / 64) ++ letterOf (z.toNat / 16 % 4) ++ letterOf (z.toNat / 4 % 4) ++
      letterOf (z.toNat % 4) := by
  have hx : z.toNat / 64 % 4 = z.toNat / 64 := by omega
  simp only [renderSwz, compLetter_extractLsb', Nat.reducePow, Nat.div_one, hx]

/-- The parts of a source in order: the sign stands outside abs (43_decoder.md R184). -/
theorem renderSrc_eq (T : TextStrings) (s : SrcRec) :
    renderSrc T s = (if s.neg then T.minus else []) ++ (if s.abs then T.absOpen else []) ++ typeLetter T s.type ++
      dec s.index.toNat ++ T.dot ++ renderSwz s.swz ++ (if s.abs then T.absClose else []) := by
  unfold renderSrc
  cases s.neg <;> cases s.abs <;> simp

/-- Settles O36: the renderers with the default strings in place, and the names from the rows of the table. -/
theorem operandsRender : Obligations.OperandsRender := by
  refine ⟨fun _ => rfl, fun _ => rfl, rfl, fun _ => rfl, fun z => ?swizzle, fun s => ?source, rfl, fun _ => rfl,
    fun r hr => ?vname, fun r hr => ?sname, fun _ => rfl, fun _ => rfl⟩
  case swizzle => exact ⟨letterOf, rfl, rfl, rfl, rfl, renderSwz_eq z⟩
  case source =>
    have htype : ∀ t, s.type = t → typeLetter params.text s.type = typeLetter params.text t := fun _ ht =>
      congrArg (typeLetter params.text) ht
    exact ⟨typeLetter params.text s.type, htype 0, htype 1, htype 2, htype 3, renderSrc_eq params.text s⟩
  case vname =>
    obtain ⟨-, -, hname, -⟩ := vectorRows_agree hr
    exact hname.symm
  case sname =>
    obtain ⟨-, -, hname⟩ := scalarRows_agree hr
    exact hname.symm

/-! ### Lines -/

theorem joinLines_eq_intercalate (sep : Text) (ls : List Text) : joinLines sep ls = sep.intercalate ls := by
  induction ls with
  | nil => rfl
  | cons l ls ih =>
    cases ls with
    | nil => simp [joinLines]
    | cons k ks =>
      rw [joinLines, ih, List.intercalate_cons_cons]
      exact nofun

theorem vecRec_isSome (P : Params) (F : Fields) : (vecRec P F).isSome = present F.vec.mask := by
  unfold vecRec
  cases present F.vec.mask <;> rfl

theorem scaRec_isSome (P : Params) (F : Fields) : (scaRec P F).isSome = present F.sc.mask := by
  unfold scaRec
  cases present F.sc.mask <;> rfl

/-- The line of an op with one source. -/
theorem scaLine_of_single {T : TextStrings} {r : DRec} {c : ScaRec} {x : SrcRec} (h : c.srcs = [x]) :
    scaLine T r c = renderPred T r.pred ++ renderSName T c.name ++ T.space ++ renderDst T c.dst ++
      (if r.sat then T.satSuffix else []) ++ T.dot ++ renderMask c.mask ++ T.comma ++ renderSrc T x := by
  rw [scaLine, opLine, h, List.flatMap_singleton, ← List.append_assoc]

/-- Settles O37: a half is shown exactly when it is present, and a record's lines are joined as they stand. -/
theorem linesStandInOrder : Obligations.LinesStandInOrder := by
  refine ⟨fun P w => ⟨(vecRec_isSome P _).symm, (scaRec_isSome P _).symm, fun c hc => ?one⟩, fun r =>
    ⟨_, _, _, joinLines_eq_intercalate _ _, fun h => ?noVec, fun v h => ?vec, fun h => ?noSc, fun c x h hx => ?sc, rfl⟩⟩
  case one => rw [eq_of_scaRec_eq_some hc]; rfl
  case noVec => rw [h]
  case vec => rw [h]; rfl
  case noSc => rw [h]
  case sc => rw [h]; exact congrArg (fun l => [l]) (scaLine_of_single hx)

end Sys2Proof.Proofs
end

section
/-! PROOFS. An op whose mask is zero reaches neither the word nor the text (44_vector_ops.md R229,
45_scalar_ops.md R239). -/

namespace Sys2Proof.Proofs

open Sys2Proof.Machine

/-! ### What the word of an accepted descriptor holds, part by part -/

/-- The halves and the slots of the encoder's word are those of the descriptor (42_encoder.md R159, R160). -/
theorem readFields_of_encodeDesc {P : Params} (hP : P.Valid) {D : Desc} {w : BitWord} (h : encodeDesc P D = .ok w) :
    (readFields P w).vec = vHalfOf D ∧ (readFields P w).sc = sHalfOf D ∧
      ∀ i, i < 3 → (readFields P w).slot i = slotAt P D i := by
  obtain ⟨cf, af, tg, sat, -, rfl⟩ := encodeDesc_ok_iff.mp h
  rw [readFields_writeFields hP]
  exact ⟨rfl, rfl, fun i hi => slot_encodedFields hi⟩

/-- A slot that no present op uses is empty, whatever source the descriptor gives for it. -/
theorem slotAt_of_unused {P : Params} {D : Desc} {i : Nat} (hi : i < 3)
    (h : ¬ ((D.vdst.mask ≠ 0 ∧ i < vArity P D.vop) ∨ (D.sdst.mask ≠ 0 ∧ i = 2))) : slotAt P D i = emptySlot :=
  slotAt_of_not_encoded hi fun ⟨_, huse, _⟩ => h huse

/-! ### What the encoder's answer is a function of -/

/-- Two descriptors with the same present destinations, encoded slots, sources, saturate, halves and last flag have the
same fields or the same refusal. -/
theorem encodeFields_congr {P : Params} {D D' : Desc} (hdsts : presentDsts D = presentDsts D')
    (hslots : encoded P D = encoded P D') (hsrcs : srcAt D = srcAt D') (hsat : saturate D = saturate D')
    (hvec : vHalfOf D = vHalfOf D') (hsc : sHalfOf D = sHalfOf D') (hlast : D.last = D'.last) :
    encodeFields P D = encodeFields P D' := by
  have hencoded : encodedSrcs P D = encodedSrcs P D' := by rw [encodedSrcs, encodedSrcs, hslots, hsrcs]
  have hcontract : contractOk P D = contractOk P D' := by rw [contractOk, contractOk, hdsts, hencoded]
  have hfetch : fetchIndex P D = fetchIndex P D' := by
    funext t
    rw [fetchIndex, fetchIndex, fetchCandidates, fetchCandidates, hencoded]
  have htarget : sharedTarget D = sharedTarget D' := by
    rw [sharedTarget, sharedTarget, targetCandidates, targetCandidates, hdsts]
  have hslot : slotAt P D = slotAt P D' := by
    funext i
    rw [slotAt, slotAt, hslots, hsrcs]
  have hshared : sharedOf D = sharedOf D' := by
    unfold sharedOf
    rw [hlast]
  rw [encodeFields, encodeFields, hcontract, hfetch, htarget, hsat, hvec, hsc, hslot, hshared]

theorem present_eq_false_iff {mask : BitVec 4} : present mask = false ↔ mask = 0 := bne_eq_false_iff_eq

/-- The opcode and the destination of an absent vector op do not reach the word. -/
theorem encodeDesc_of_vec_absent (P : Params) {D : Desc} (n : BitVec 5) {d : Dst} (hD : D.vdst.mask = 0)
    (hd : d.mask = 0) : encodeDesc P { D with vop := n, vdst := d } = encodeDesc P D := by
  have hD' : present D.vdst.mask = false := present_eq_false_iff.mpr hD
  have hd' : present d.mask = false := present_eq_false_iff.mpr hd
  refine congrArg (Except.map (writeFields P)) (encodeFields_congr ?dsts (funext fun i => ?slots) rfl ?sat ?vec rfl rfl)
  case dsts => simp [presentDsts, hD', hd']
  case slots => simp [encoded, used, hD', hd', srcAt]
  case sat => simp [saturate, hD', hd']
  case vec => simp [vHalfOf, hD', hd']

/-- The opcode and the destination of an absent scalar op do not reach the word. -/
theorem encodeDesc_of_sca_absent (P : Params) {D : Desc} (n : BitVec 4) {d : Dst} (hD : D.sdst.mask = 0)
    (hd : d.mask = 0) : encodeDesc P { D with sop := n, sdst := d } = encodeDesc P D := by
  have hD' : present D.sdst.mask = false := present_eq_false_iff.mpr hD
  have hd' : present d.mask = false := present_eq_false_iff.mpr hd
  refine congrArg (Except.map (writeFields P)) (encodeFields_congr ?dsts (funext fun i => ?slots) rfl ?sat rfl ?sc rfl)
  case dsts => simp [presentDsts, hD', hd']
  case slots => simp [encoded, used, hD', hd', srcAt]
  case sat => simp [saturate, hD', hd']
  case sc => simp [sHalfOf, hD', hd']

/-! ### The word with both ops absent -/

/-- The fields of the word of a descriptor without an op: all zero but for the last flag. -/
def opFreeFields (last : Bool) : Fields :=
  { vec := { op := 0, mask := 0, dst := 0 }, sc := { op := 0, mask := 0, dst := 0 }
    s0 := emptySlot, s1 := emptySlot, s2 := emptySlot
    sh := { last := last, tgt := 0, afetch := 0, cfetch := 0, pswz := 0, pneg := false, pen := false, sat := false,
            vflag := false } }

section
variable {P : Params} {D : Desc}

theorem slot_unused_of_both_absent (hv : D.vdst.mask = 0) (hs : D.sdst.mask = 0) (i : Nat) :
    ¬ ((D.vdst.mask ≠ 0 ∧ i < vArity P D.vop) ∨ (D.sdst.mask ≠ 0 ∧ i = 2)) := by
  rintro (⟨h, -⟩ | ⟨h, -⟩)
  · exact h hv
  · exact h hs

/-- Without an op no check has anything to refuse, and no shared field a candidate. -/
theorem accepted_of_both_absent (hv : D.vdst.mask = 0) (hs : D.sdst.mask = 0) : Accepted P D none none none false := by
  have hslot : ∀ i, ¬ SlotEncoded P D i := fun i ⟨_, huse, _⟩ => slot_unused_of_both_absent hv hs i huse
  have hfetch : ∀ t n, Fetches P D t n ↔ none = some n := fun t n =>
    ⟨fun ⟨i, hi, _⟩ => absurd hi (hslot i), nofun⟩
  have hdsts : presentDsts D = [] := by simp [presentDsts, hv, hs, present]
  refine ⟨?contract, hfetch .constant, hfetch .attr, fun n => ⟨?target, nofun⟩, ?saturate⟩
  case contract =>
    rintro (⟨h, -⟩ | ⟨h, -⟩ | ⟨i, hi, -⟩)
    · exact h hv
    · exact h hs
    · exact hslot i hi
  case target =>
    rintro ⟨d, hd, -⟩
    exact absurd (hdsts ▸ hd) List.not_mem_nil
  case saturate => simp [saturate_eq_ok_iff, hv, hs]

theorem encodedFields_of_both_absent (hv : D.vdst.mask = 0) (hs : D.sdst.mask = 0) :
    encodedFields P D none none none false = opFreeFields D.last := by
  have hslot : ∀ i, i < 3 → slotAt P D i = emptySlot := fun i hi =>
    slotAt_of_unused hi (slot_unused_of_both_absent hv hs i)
  rw [encodedFields, vHalfOf_of_absent hv, sHalfOf_of_absent hs, hslot 0 (by decide), hslot 1 (by decide),
    hslot 2 (by decide)]
  rfl

theorem encodeDesc_of_both_absent (hv : D.vdst.mask = 0) (hs : D.sdst.mask = 0) :
    encodeDesc P D = .ok (writeFields P (opFreeFields D.last)) :=
  encodeDesc_ok_iff.mpr ⟨none, none, none, false, accepted_of_both_absent hv hs,
    by rw [encodedFields_of_both_absent hv hs]⟩

end

theorem getField_zero (P : Params) (f : Field) : getField P 0 f = 0 := by
  rw [getField_eq_extractLsb']
  exact BitVec.extractLsb'_zero

theorem fieldValue_opFreeFields (last : Bool) {f : Field} (h : f ≠ .last) : fieldValue (opFreeFields last) f = 0 := by
  cases f
  case last => exact absurd rfl h
  all_goals rfl

/-- A field write leaves the bits outside the field. -/
theorem bit_putField_of_outside {P : Params} (hP : P.Valid) (w : BitWord) (f : Field) (v : BitVec f.width) {b : Nat}
    (hb : b < 128) (h : b < P.lo f ∨ P.hi f < b) : bit (putField P w f v) b = bit w b := by
  have hlo := field_lo_le_hi P f
  have hhi := field_hi_lt hP f
  rw [putField, bit_eq, bit_eq, getLsbD_setRange _ _ _ _ _ hlo hhi fun j hj =>
    setWidth_field_high v j (by rwa [field_hi_sub_lo] at hj)]
  exact if_neg (by omega)

theorem writeFields_opFreeFields {P : Params} (hP : P.Valid) (last : Bool) :
    writeFields P (opFreeFields last) = putField P 0 .last (BitVec.ofBool last) := by
  refine word_ext hP (fun f => ?_) (bit_writeFields_reserved P hP _) fun b hb hres => ?_
  · rw [getField_writeFields hP]
    by_cases hf : f = .last
    · rw [hf, getField_putField_same hP]
      rfl
    · rw [getField_putField_other hP _ _ _ _ (Ne.symm hf), getField_zero, fieldValue_opFreeFields last hf]
  · rw [bit_putField_of_outside hP _ _ _ hb (hres .last), bit_eq, BitVec.ofNat_eq_ofNat, BitVec.getLsbD_zero]

/-- `last` is spec bit 0 under every `LAYOUT`, the most significant bit of the first word (00_scope.md R7, R10). -/
theorem putField_last_zero {P : Params} (hP : P.Valid) (last : Bool) :
    putField P 0 .last (BitVec.ofBool last) = ofWords (if last then 0x80000000 else 0) 0 0 0 := by
  have hhi : P.hi .last = 0 := by rw [Params.hi, hP.last_first]; rfl
  rw [putField, hP.last_first, hhi]
  cases last <;> decide

/-! ### The text -/

/-- The lines of a word without an op: the terminal marker or nothing (43_decoder.md R190). -/
theorem decodeText_of_both_absent {P : Params} {w : BitWord} (hv : getField P w .vmask = 0)
    (hs : getField P w .smask = 0) : decodeText P w = if getField P w .last = 1 then P.text.lastLine else [] := by
  have hvec : vecRec P (readFields P w) = none := vecRec_of_absent hv
  have hsc : scaRec P (readFields P w) = none := scaRec_of_absent hs
  have hlines : renderLines P.text (decodeFields P w) = if getField P w .last = 1 then [P.text.lastLine] else [] := by
    rw [decodeFields, recOfFields, hvec, hsc]
    exact if_congr flag_eq_true_iff rfl rfl
  rw [decodeText, render, hlines]
  split <;> rfl

/-- Settles O20: an absent op's half and slots are empty in the encoder's fields, and its record is none. -/
theorem absentOpsAreOmitted : Obligations.AbsentOpsAreOmitted := by
  refine ⟨fun P D n d => encodeDesc_of_vec_absent P n, fun P D n d => encodeDesc_of_sca_absent P n,
    fun P D w hP hmask h => ?vec, fun P D w hP hmask h => ?sca, fun P D hP hv hs => ?both,
    fun P w => vecRec_of_absent (F := readFields P w),
    fun P w => scaRec_of_absent (F := readFields P w), fun P w => decodeText_of_both_absent⟩
  case vec =>
    obtain ⟨hvec, -, hslot⟩ := readFields_of_encodeDesc hP h
    rw [vHalfOf_of_absent hmask] at hvec
    have hempty : ∀ i, i < 2 → (readFields P w).slot i = emptySlot := by
      intro i hi
      rw [hslot i (by omega), slotAt_of_unused (by omega)]
      rintro (⟨hpresent, -⟩ | ⟨-, htwo⟩)
      · exact hpresent hmask
      · omega
    exact ⟨congrArg VHalf.op hvec, congrArg VHalf.dst hvec, congrArg VHalf.mask hvec, hempty 0 (by decide),
      hempty 1 (by decide)⟩
  case sca =>
    obtain ⟨-, hsc, hslot⟩ := readFields_of_encodeDesc hP h
    rw [sHalfOf_of_absent hmask] at hsc
    refine ⟨congrArg SHalf.op hsc, congrArg SHalf.dst hsc, congrArg SHalf.mask hsc, fun hthree => ?_⟩
    rw [hslot 2 (by decide), slotAt_of_unused (by decide)]
    rintro (⟨hpresent, harity⟩ | ⟨hpresent, -⟩)
    · exact hthree ⟨hpresent, Nat.le_antisymm (vArity_le P D.vop) harity⟩
    · exact hpresent hmask
  case both => rw [encodeDesc_of_both_absent hv hs, writeFields_opFreeFields hP, putField_last_zero hP]

end Sys2Proof.Proofs
end

section
/-! PROOFS. The vector rows of the opcode table, on both sides (44_vector_ops.md R210 to R227), and where the encode side
of all 24 rows refuses (45_scalar_ops.md R230, 60_exceptions.md R246). -/

namespace Sys2Proof.Proofs

open Sys2Proof.Machine

/-! ### A row as its mnemonic -/

/-- Everything in a vector row is given by its mnemonic and the tables. -/
theorem exists_eq_of_mem_vectorRows {r : VecRow} (hr : r ∈ vectorRows) :
    ∃ m, r = ⟨Instr.ofVec m, params.vnum m, m, vText m, arity m⟩ := by
  obtain ⟨hmake, hnumber, hname, harity⟩ := vectorRows_agree hr
  exact ⟨r.mnemonic, by rw [← hmake, ← hnumber, ← hname, ← harity]⟩

/-- Everything in a scalar row is given by its mnemonic and the tables. -/
theorem exists_eq_of_mem_scalarRows {r : ScaRow} (hr : r ∈ scalarRows) :
    ∃ m, r = ⟨Instr.ofSca m, params.snum m, m, sText m⟩ := by
  obtain ⟨hmake, hnumber, hname⟩ := scalarRows_agree hr
  exact ⟨r.mnemonic, by rw [← hmake, ← hnumber, ← hname]⟩

theorem vArity_vnum {P : Params} (hP : P.Valid) (m : VMnemonic) : vArity P (P.vnum m) = arity m := by
  rw [vArity, vLookup_vnum hP]

/-! ### The encode side -/

theorem exec_vecDesc (m : VMnemonic) (o : VecDesc) (s : State) :
    exec (Instr.ofVec m (.desc o)) s = encodeInto params s (o.toDesc (params.vnum m)) := exec_ofVec m _ s

theorem exec_scaDesc (m : SMnemonic) (o : ScaDesc) (s : State) :
    exec (Instr.ofSca m (.desc o)) s = encodeInto params s (o.toDesc (params.snum m)) := exec_ofSca m _ s

/-- A slot that a present op uses holds the descriptor's source, or is empty where that is not valid. -/
theorem slotAt_of_used {P : Params} {D : Desc} {i : Nat} (hi : i < 3)
    (huse : (D.vdst.mask ≠ 0 ∧ i < vArity P D.vop) ∨ (D.sdst.mask ≠ 0 ∧ i = 2)) :
    slotAt P D i = if (srcAt D i).valid then slotOf (srcAt D i) else emptySlot := by
  split
  · next hvalid => exact slotAt_of_encoded ⟨hi, huse, hvalid⟩
  · next hvalid => exact slotAt_of_not_encoded hi fun ⟨_, _, hv⟩ => hvalid hv

/-- Settles O27: with no check failing the encoder answers a word, whose vector half and slots are the descriptor's. -/
theorem vectorDescriptorsEncodeTheirRow : Obligations.VectorDescriptorsEncodeTheirRow := by
  intro r hr o s hmask hcontract hfetch hmodifier
  obtain ⟨m, rfl⟩ := exists_eq_of_mem_vectorRows hr
  obtain ⟨w, hw⟩ := encodeDesc_of_no_conflict hcontract hfetch hmodifier
  obtain ⟨hvec, -, hslot⟩ := readFields_of_encodeDesc params_valid hw
  rw [vHalfOf_of_present hmask] at hvec
  refine ⟨w, (exec_vecDesc m o s).trans (encodeInto_ok hw), hw, congrArg VHalf.op hvec, congrArg VHalf.mask hvec,
    congrArg VHalf.dst hvec, fun i hi => ?_⟩
  have hused : i < vArity params (params.vnum m) := (vArity_vnum params_valid m).symm ▸ hi
  have hi3 : i < 3 := hused.trans_le (vArity_le params _)
  rw [hslot i hi3, slotAt_of_used hi3 (.inl ⟨hmask, hused⟩)]

/-- Where the encode side refuses, the first failing check deciding, and that it writes `ST` alone. -/
theorem encodeInto_refuses (P : Params) (s : State) (D : Desc) :
    (ContractBroken P D → encodeInto P s D = .next { s with st := .contractViolation }) ∧
    (¬ ContractBroken P D → FetchConflict P D → encodeInto P s D = .next { s with st := .conflictingFetch }) ∧
    (¬ ContractBroken P D → ¬ FetchConflict P D → ModifierConflict D →
      encodeInto P s D = .next { s with st := .conflictingModifier }) := by
  obtain ⟨hcontract, hfetch, hmodifier, -⟩ := encoderDecidesTheStatus P D
  exact ⟨fun hc => encodeInto_error (hcontract.mpr hc), fun hc hf => encodeInto_error (hfetch.mpr ⟨hc, hf⟩),
    fun hc hf hm => encodeInto_error (hmodifier.mpr ⟨hc, hf, hm⟩)⟩

/-- Settles O29: the descriptor form of every row, vector or scalar, is the shared encode side. -/
theorem encodeSideRefuses : Obligations.EncodeSideRefuses := by
  refine ⟨fun r hr o s => ?vector, fun r hr o s => ?scalar⟩
  case vector =>
    obtain ⟨m, rfl⟩ := exists_eq_of_mem_vectorRows hr
    dsimp only
    rw [exec_vecDesc]
    exact encodeInto_refuses params s (o.toDesc (params.vnum m))
  case scalar =>
    obtain ⟨m, rfl⟩ := exists_eq_of_mem_scalarRows hr
    dsimp only
    rw [exec_scaDesc]
    exact encodeInto_refuses params s (o.toDesc (params.snum m))

/-! ### The decode side -/

/-- The record a vector row's word form shows: the row's own name and arity, the scalar half looked up beside it. -/
def vecWordRec (m : VMnemonic) (o : VecWord) : DRec :=
  recWith (o.toFields (params.vnum m)) (some (vecRecNamed (o.toFields (params.vnum m)) (.known m) (arity m)))
    (scaRec params (o.toFields (params.vnum m)))

theorem exec_vecWord (m : VMnemonic) {o : VecWord} (h : o.mask ≠ 0) (s : State) :
    exec (Instr.ofVec m (.word o)) s = showRecord params s (vecWordRec m o) := by
  rw [exec_ofVec, execVector, if_pos (present_iff.mpr h)]
  rfl

theorem present_eq_decide (mask : BitVec 4) : present mask = decide (mask ≠ 0) := by
  rw [Bool.eq_iff_iff, present_iff, decide_eq_true_iff]

/-- The record field by field (43_decoder.md R181). -/
theorem vecWordRec_eq (m : VMnemonic) {o : VecWord} (h : o.mask ≠ 0) :
    vecWordRec m o =
      { last := o.sh.last, vpresent := true, spresent := decide (o.sc.mask ≠ 0), pred := predOf o.sh, sat := o.sh.sat
        vec := some (vecRecNamed (o.toFields (params.vnum m)) (.known m) (arity m))
        sc := scaRec params (o.toFields (params.vnum m)) } := by
  rw [← present_iff.mpr h, ← present_eq_decide]
  rfl

/-- A record with a vector half starts with that half's line (43_decoder.md R189). -/
theorem renderLines_of_vec {T : TextStrings} {r : DRec} {v : VecRec} (h : r.vec = some v) :
    ∃ more, renderLines T r = vecLine T r v :: more := by
  rw [renderLines, h]
  exact ⟨_, rfl⟩

/-- Settles O25: the word form shows the row's record, whose first line is that of its vector half. -/
theorem vectorWordsDecodeToTheirRow : Obligations.VectorWordsDecodeToTheirRow := by
  intro r hr o s hmask
  obtain ⟨m, rfl⟩ := exists_eq_of_mem_vectorRows hr
  have hvec : (vecWordRec m o).vec = some (vecRecNamed (o.toFields (params.vnum m)) (.known m) (arity m)) := rfl
  obtain ⟨more, hlines⟩ := renderLines_of_vec (T := params.text) hvec
  exact ⟨vecWordRec m o, exec_vecWord m hmask s, vecWordRec_eq m hmask, rfl, more, hlines⟩

end Sys2Proof.Proofs
end

section
/-! PROOFS. The scalar rows of the opcode table, on both sides (45_scalar_ops.md R230 to R237). -/

namespace Sys2Proof.Proofs

open Sys2Proof.Machine

/-! ### The encode side -/

/-- Settles O28: with no check failing the encoder answers a word, whose scalar half is the descriptor's and whose slot 2
is used whatever the vector op is. -/
theorem scalarDescriptorsEncodeTheirRow : Obligations.ScalarDescriptorsEncodeTheirRow := by
  intro r hr o s hmask hcontract hfetch hmodifier
  obtain ⟨m, rfl⟩ := exists_eq_of_mem_scalarRows hr
  obtain ⟨w, hw⟩ := encodeDesc_of_no_conflict hcontract hfetch hmodifier
  obtain ⟨-, hsc, hslot⟩ := readFields_of_encodeDesc params_valid hw
  rw [sHalfOf_of_present hmask] at hsc
  have hslot2 : (readFields params w).slot 2 = if o.src2.valid then slotOf o.src2 else emptySlot :=
    (hslot 2 (by decide)).trans (slotAt_of_used (by decide) (.inr ⟨hmask, rfl⟩))
  exact ⟨w, (exec_scaDesc m o s).trans (encodeInto_ok hw), hw, congrArg SHalf.op hsc, congrArg SHalf.mask hsc,
    congrArg SHalf.dst hsc, hslot2⟩

/-! ### The decode side -/

/-- The record a scalar row's word form shows: the row's own name, the vector half looked up beside it. -/
def scaWordRec (m : SMnemonic) (o : ScaWord) : DRec :=
  recWith (o.toFields (params.snum m)) (vecRec params (o.toFields (params.snum m)))
    (some (scaRecNamed (o.toFields (params.snum m)) (.known m)))

theorem exec_scaWord (m : SMnemonic) {o : ScaWord} (h : o.mask ≠ 0) (s : State) :
    exec (Instr.ofSca m (.word o)) s = showRecord params s (scaWordRec m o) := by
  rw [exec_ofSca, execScalar, if_pos (present_iff.mpr h)]
  rfl

/-- The record field by field (43_decoder.md R181). -/
theorem scaWordRec_eq (m : SMnemonic) {o : ScaWord} (h : o.mask ≠ 0) :
    scaWordRec m o =
      { last := o.sh.last, vpresent := decide (o.vec.mask ≠ 0), spresent := true, pred := predOf o.sh, sat := o.sh.sat
        vec := vecRec params (o.toFields (params.snum m))
        sc := some (scaRecNamed (o.toFields (params.snum m)) (.known m)) } := by
  rw [← present_iff.mpr h, ← present_eq_decide]
  rfl

/-- The scalar half's line stands after the vector half's, if there is one, and before the terminal marker
(43_decoder.md R189, R190). -/
theorem renderLines_of_sca {T : TextStrings} {r : DRec} {c : ScaRec} (h : r.sc = some c) :
    renderLines T r = r.vec.toList.map (vecLine T r) ++ scaLine T r c :: if r.last then [T.lastLine] else [] := by
  rw [renderLines, h]
  cases r.vec <;> rfl

/-- A word's vector half is one record or none (30_encoding.md R79). -/
theorem length_vecRec (P : Params) (F : Fields) :
    (vecRec P F).toList.length = if F.vec.mask ≠ 0 then 1 else 0 := by
  split
  · next hmask => rw [vecRec_of_present hmask]; rfl
  · next hmask => rw [vecRec_of_absent (not_not.mp hmask)]; rfl

/-- Settles O26: the word form shows the row's record, whose scalar half's line stands between the vector half's and the
terminal marker. -/
theorem scalarWordsDecodeToTheirRow : Obligations.ScalarWordsDecodeToTheirRow := by
  intro r hr o s hmask
  obtain ⟨m, rfl⟩ := exists_eq_of_mem_scalarRows hr
  have hsc : (scaWordRec m o).sc = some (scaRecNamed (o.toFields (params.snum m)) (.known m)) := rfl
  refine ⟨scaWordRec m o, exec_scaWord m hmask s, scaWordRec_eq m hmask, rfl,
    (scaWordRec m o).vec.toList.map (vecLine params.text (scaWordRec m o)), _, ?lines, ?before, rfl⟩
  case lines => rw [renderLines_of_sca hsc, scaLine_of_single rfl]; rfl
  case before => exact (List.length_map _).trans (length_vecRec params _)

end Sys2Proof.Proofs
end

section
/-! PROOFS. No operation reads outside a memory (60_exceptions.md R257, 20_memory.md R50): every read of the parser, of the
group load and of the disassembly stands behind the bounds check that covers it. -/

namespace Sys2Proof.Proofs

open Sys2Proof.Machine

/-- A sequence does not raise when its first part does not, and neither does its rest on a result the first part gave. -/
theorem NeverRaises.bind_of_ok {ε α β : Type} {e : ε} {r : Except ε α} {f : α → Except ε β} (hr : NeverRaises e r)
    (hf : ∀ a, r = .ok a → NeverRaises e (f a)) : NeverRaises e (r >>= f) := by
  cases r with
  | error f => exact neverRaises_error fun hfe => hr (congrArg Except.error hfe)
  | ok a => exact hf a rfl

theorem malformed_neverRaises_outside {α : Type} : NeverRaises .outside (malformed : Result α) := neverRaises_error nofun

/-- Words inside the memory are read without leaving it. -/
theorem readWords_neverRaises_outside {b : Buffer} {a n : Nat} (h : a + 4 * n ≤ b.len) :
    NeverRaises .outside (needed (readWords b a n)) := by
  obtain ⟨ws, hws, -, -⟩ := readWords_of_le n a h
  rw [hws, needed_some]
  exact neverRaises_ok _ ws

/-! ### The parser -/

theorem readHeader_neverRaises_outside (b : Buffer) : NeverRaises .outside (readHeader b) := by
  unfold readHeader
  split
  · exact malformed_neverRaises_outside
  · next hlen =>
    exact .bind (readWords_neverRaises_outside (Nat.le_of_not_lt hlen)) fun _ => neverRaises_ok _ _

theorem checkHeader_neverRaises_outside (P : Params) (b : Buffer) (h : Header) :
    NeverRaises .outside (checkHeader P b h) :=
  .ite malformed_neverRaises_outside <| .ite malformed_neverRaises_outside <| .ite malformed_neverRaises_outside <|
    .ite malformed_neverRaises_outside <| .ite (neverRaises_error nofun) (neverRaises_ok _ _)

/-- The scan for a name's terminator ends at the container's size (41_container.md R127). -/
theorem readName_neverRaises_outside {b : Buffer} {size : Nat} (hs : size ≤ b.len) (off : Nat) :
    NeverRaises .outside (readName b size off) := by
  obtain ⟨-, herr⟩ | ⟨-, name, hname, -⟩ := readName_cases b size off hs
  · rw [herr]
    exact malformed_neverRaises_outside
  · rw [hname]
    exact neverRaises_ok _ name

/-- The values are read where the values offset passed its check (41_container.md R128), or not at all. -/
theorem readVector_neverRaises_outside {b : Buffer} {size off : Nat} (hs : size ≤ b.len) (kind : SymKind)
    (hoff : ¬ (off ≠ 0 ∧ off + 16 > size)) : NeverRaises .outside (readVector b kind off) := by
  unfold readVector
  split
  · next hv =>
    have hne : off ≠ 0 := of_decide_eq_true (Bool.and_eq_true_iff.mp hv).2
    exact .bind (readWords_neverRaises_outside (by omega)) fun _ => neverRaises_ok _ _
  · exact neverRaises_ok _ _

/-- A record inside the container is resolved without leaving it, wherever the layout puts its fields. -/
theorem parseRecord_neverRaises_outside (P : Params) {b : Buffer} {size i : Nat} (hs : size ≤ b.len)
    (hi : 48 + 48 * i + 48 ≤ size) : NeverRaises .outside (parseRecord P b size i) := by
  have hrecord : headerBytes + recordBytes * i + 4 * 12 ≤ b.len := hi.trans hs
  refine .bind (readWords_neverRaises_outside hrecord) fun r => .bind (readName_neverRaises_outside hs _) fun name => ?_
  split
  · exact malformed_neverRaises_outside
  · next hvalues => exact .bind (readVector_neverRaises_outside hs _ hvalues) fun _ => neverRaises_ok _ _

theorem parseRecords_neverRaises_outside (P : Params) {b : Buffer} {size : Nat} (hs : size ≤ b.len) (n : Nat) :
    ∀ {i : Nat}, 48 + 48 * (i + n) ≤ size → NeverRaises .outside (parseRecords P b size n i) := by
  induction n with
  | zero => exact fun _ => neverRaises_ok _ _
  | succ n ih =>
    exact fun _ => .bind (parseRecord_neverRaises_outside P hs (by omega)) fun _ =>
      .bind (ih (by omega)) fun _ => neverRaises_ok _ _

/-- The records are read only after the header's checks have put them inside the container, and it inside the buffer. -/
theorem parse_neverRaises_outside (P : Params) (b : Buffer) : NeverRaises .outside (parse P b) := by
  refine .bind (readHeader_neverRaises_outside b) fun h =>
    .bind_of_ok (checkHeader_neverRaises_outside P b h) fun _ hcheck => ?_
  obtain ⟨hinside, hroom, -⟩ := checkHeader_ok hcheck
  exact .bind (parseRecords_neverRaises_outside P hinside _ (by omega)) fun _ => neverRaises_ok _ _

/-! ### The stream -/

theorem loadGroup_neverRaises_outside (b : Buffer) (sOff k : Nat) : NeverRaises .outside (loadGroup b sOff k) := by
  obtain hin | hout := le_or_gt (sOff + 16 * k + 16) b.len
  · rw [loadGroup_accepted hin]
    exact neverRaises_ok _ _
  · rw [loadGroup_refused hout]
    exact neverRaises_error nofun

theorem disassemble_neverRaises_outside (P : Params) (b : Buffer) (sOff sLen : Nat) :
    NeverRaises .outside (disassemble P b sOff sLen) := by
  by_cases hbad : sLen % 16 ≠ 0 ∨ b.len < sOff + sLen
  · rw [disassemble_refused P hbad]
    exact neverRaises_error nofun
  · rw [disassemble_accepted P (by omega) (by omega)]
    exact neverRaises_ok _ _

/-- Settles O47: every read is covered by a bounds check, and what is read inside is all that a result depends on. -/
theorem noReadOutsideTheMemories : Obligations.NoReadOutsideTheMemories :=
  ⟨parse_neverRaises_outside, loadGroup_neverRaises_outside, disassemble_neverRaises_outside, fun _ _ h =>
    ⟨fun P => parse_congr P h, congrFun₂ (loadGroup_congr h), fun P => congrFun₂ (disassemble_congr P h)⟩⟩

end Sys2Proof.Proofs
end

section
/-! PROOFS. How every command and every step ends: always in a next state (60_exceptions.md R240), with each status exactly
for its causes (R241 to R245, R248), a refusal writing `ST` alone (R246) and standing when the command is issued again
(R251). -/

namespace Sys2Proof.Proofs

open Sys2Proof.Machine

/-! ### A command's result and the causes of its refusal -/

/-- A result is refused with the one status `refused` holds of, or is given and `refused` holds of none. -/
def EndsBy {α : Type} (r : Result α) (refused : Status → Prop) : Prop :=
  (∃ e, r = .error (.raise e) ∧ ∀ f, refused f ↔ f = e) ∨ ((∃ x, r = .ok x) ∧ ∀ f, ¬ refused f)

/-- The only status that can refuse a command other than ENC and PARSE (60_exceptions.md R241, R244). -/
def soleStatus : Command → Status
  | .bwLoadb _ _ | .disasm _ _ => .malformedContainer
  | _ => .contractViolation

theorem eq_soleStatus_of_refusedWith {s : State} {c : Command} {f : Status} (henc : c ≠ .enc) (hparse : c ≠ .parse)
    (h : c.refusedWith s f) : f = soleStatus c := by
  cases c with
  | enc => exact absurd rfl henc
  | parse => exact absurd rfl hparse
  | _ => cases f <;> simp_all [Command.refusedWith, soleStatus]

/-- A command with one possible status is refused exactly when that status has its cause. -/
theorem endsBy_of_soleStatus {s : State} {c : Command} (henc : c ≠ .enc) (hparse : c ≠ .parse)
    (hraise : c.refusedWith s (soleStatus c) → commandResult params c s = .error (.raise (soleStatus c)))
    (hok : ¬ c.refusedWith s (soleStatus c) → ∃ x, commandResult params c s = .ok x) :
    EndsBy (commandResult params c s) (c.refusedWith s) := by
  by_cases hcause : c.refusedWith s (soleStatus c)
  · exact .inl ⟨_, hraise hcause, fun f => ⟨eq_soleStatus_of_refusedWith henc hparse, fun hf => hf ▸ hcause⟩⟩
  · exact .inr ⟨hok hcause, fun f hf => hcause (eq_soleStatus_of_refusedWith henc hparse hf ▸ hf)⟩

/-- ENC ends by the encoder's first failing check (42_encoder.md R164). -/
theorem enc_endsBy (s : State) : EndsBy (commandResult params .enc s) (Command.refusedWith s .enc) := by
  obtain ⟨hc, he⟩ | ⟨hc, hf, he⟩ | ⟨hc, hf, hm, he⟩ | ⟨hc, hf, hm, w, hw⟩ := encodeDesc_cases params s.d
  · exact .inl ⟨_, congrArg liftStatus he, fun f => by cases f <;> simp [Command.refusedWith, hc]⟩
  · exact .inl ⟨_, congrArg liftStatus he, fun f => by cases f <;> simp [Command.refusedWith, hc, hf]⟩
  · exact .inl ⟨_, congrArg liftStatus he, fun f => by cases f <;> simp [Command.refusedWith, hc, hf, hm]⟩
  · exact .inr ⟨⟨w, congrArg liftStatus hw⟩, fun f => by cases f <;> simp [Command.refusedWith, hc, hf, hm]⟩

/-- PARSE ends by the container's first failing check (41_container.md R134). -/
theorem parse_endsBy (s : State) : EndsBy (commandResult params .parse s) (Command.refusedWith s .parse) := by
  obtain ⟨hbroken, hp⟩ | ⟨hgood, hfull, hp⟩ | ⟨hgood, hfits, hbad, hp⟩ | ⟨hgood, hfits, hrecs, hp⟩ :=
    parse_cases params rfl s.bufView
  · exact .inl ⟨_, hp, fun f => by cases f <;> simp [Command.refusedWith, hbroken]⟩
  · exact .inl ⟨_, hp, fun f => by cases f <;> simp [Command.refusedWith, hgood, hfull]⟩
  · exact .inl ⟨_, hp, fun f => by cases f <;> simp [Command.refusedWith, hgood, hfits, hbad]⟩
  · have hnone : ¬ ∃ i, i < s.bufView.num 12 ∧ RecordBroken s.bufView i := fun ⟨i, hi, hbad⟩ => hrecs i hi hbad
    exact .inr ⟨hp, fun f => by cases f <;> simp [Command.refusedWith, hgood, hfits, hnone]⟩

/-- Every command ends by the causes its rules list. -/
theorem commandResult_endsBy (c : Command) (s : State) : EndsBy (commandResult params c s) (c.refusedWith s) := by
  cases c with
  | enc => exact enc_endsBy s
  | parse => exact parse_endsBy s
  | bwZero | bwStorew | dec => exact endsBy_of_soleStatus nofun nofun False.elim fun _ => ⟨_, rfl⟩
  | bwLoadw words =>
    exact endsBy_of_soleStatus nofun nofun (fun h => congrArg liftStatus (fromWords_refused h))
      fun h => ⟨_, congrArg liftStatus (fromWords_accepted (Nat.le_of_not_lt h))⟩
  | bwLoadb sOff k =>
    exact endsBy_of_soleStatus nofun nofun (fun h => loadGroup_refused h)
      fun h => ⟨_, loadGroup_accepted (Nat.le_of_not_lt h)⟩
  | bwExtract lo hi =>
    refine endsBy_of_soleStatus nofun nofun (fun h => congrArg liftStatus (extract_refused s.w h)) fun h => ?_
    obtain ⟨hlo, hhi⟩ := not_not.mp h
    exact ⟨_, congrArg liftStatus (extract_accepted s.w hlo hhi)⟩
  | bwInsert lo hi value =>
    refine endsBy_of_soleStatus nofun nofun (fun h => congrArg liftStatus (insert_refused s.w h)) fun h => ?_
    obtain ⟨hrange, hvalue⟩ := not_or.mp h
    obtain ⟨hlo, hhi⟩ := not_not.mp hrange
    exact ⟨_, congrArg liftStatus (insert_accepted s.w hlo hhi (Nat.lt_of_not_le hvalue))⟩
  | bwGetbit i =>
    exact endsBy_of_soleStatus nofun nofun (fun h => congrArg liftStatus (getBit_refused s.w h))
      fun h => ⟨_, congrArg liftStatus (getBit_accepted s.w (Nat.lt_of_not_le h))⟩
  | bwSetbit i b =>
    refine endsBy_of_soleStatus nofun nofun (fun h => congrArg liftStatus (setBit_refused s.w h)) fun h => ?_
    obtain ⟨hi, hb⟩ := not_or.mp h
    exact ⟨_, congrArg liftStatus (setBit_accepted s.w (Nat.lt_of_not_le hi) (Nat.le_of_not_lt hb))⟩
  | disasm sOff sLen =>
    refine endsBy_of_soleStatus nofun nofun (fun h => disassemble_refused params h) fun h => ?_
    obtain ⟨hlen, hin⟩ := not_or.mp h
    exact ⟨_, disassemble_accepted params (not_not.mp hlen) (Nat.le_of_not_lt hin)⟩

/-- Settles O49: a command writes its result with `ST = OK`, or is refused with the status that has its cause. -/
theorem statusesHaveTheirCauses : Obligations.StatusesHaveTheirCauses := by
  intro c s
  obtain ⟨e, hraise, hrefused⟩ | ⟨⟨x, hx⟩, hnone⟩ := commandResult_endsBy c s
  · exact ⟨_, runCommand_of_raise hraise, fun f _ => eq_comm.trans (hrefused f).symm⟩
  · exact ⟨_, runCommand_of_ok hx, fun f hf => iff_of_false hf.symm (hnone f)⟩

/-! ### Every step answers -/

theorem runAction_answers (a : HostAction) (s : State) : ∃ t, runAction params exec a s = .next t := by
  cases a with
  | command c =>
    obtain ⟨t, ht, -⟩ := statusesHaveTheirCauses c s
    exact ⟨t, ht⟩
  | _ => exact ⟨_, rfl⟩

theorem step_answers (s : State) : ∃ t, step s = .next t := by
  unfold step stepWith
  split
  · exact ⟨s, rfl⟩
  · exact runAction_answers _ _

theorem encodeInto_answers (P : Params) (s : State) (D : Desc) : ∃ t, encodeInto P s D = .next t := by
  cases hD : encodeDesc P D with
  | ok w => exact ⟨_, encodeInto_ok hD⟩
  | error e => exact ⟨_, encodeInto_error hD⟩

/-- A word form shows its record and a descriptor form is encoded or refused; neither stops the machine. -/
theorem exec_answers (i : Instr) (s : State) : ∃ t, exec i s = .next t := by
  cases hi : i.isWord with
  | true =>
    obtain ⟨r, hr⟩ := exec_of_word hi s
    exact ⟨_, hr.trans (showRecord_eq params s r)⟩
  | false =>
    obtain ⟨D, hD⟩ := exec_of_desc hi s
    rw [hD]
    exact encodeInto_answers params s D

/-- Settles O48, from the answers of every action of the host and of both operand forms. -/
theorem everyStepAnswersNext : Obligations.EveryStepAnswersNext := ⟨step_answers, exec_answers⟩

/-! ### A refused command -/

/-- The inversion of a refusal: the command's function raised the status, and that status alone is written. -/
theorem runCommand_refused {c : Command} {s t : State} (h : runCommand c s = .next t) (hst : t.st ≠ .ok) :
    ∃ e, commandResult params c s = .error (.raise e) ∧ t = s.raise e := by
  obtain ⟨x, -, rfl⟩ | hrefused := runCommand_next h
  · exact absurd rfl hst
  · exact hrefused

/-- Settles O50, by the inversion of a refusal. -/
theorem refusalWritesOnlyTheStatus : Obligations.RefusalWritesOnlyTheStatus := by
  intro c s t h hst
  obtain ⟨e, -, rfl⟩ := runCommand_refused h hst
  rfl

theorem buffer_same_refl (b : Buffer) : b.same b := ⟨rfl, fun _ _ => rfl⟩

/-- No command reads `ST` (10_state.md R35, column "reads"). -/
theorem inputsAgree_raise (s : State) (e : Status) (c : Command) : Command.inputsAgree (s.raise e) s c := by
  cases c with
  | bwZero | bwLoadw _ => trivial
  | bwLoadb _ _ | disasm _ _ => exact buffer_same_refl s.strmView
  | parse => exact buffer_same_refl s.bufView
  | _ => rfl

/-- Settles O51: a refusal changes nothing the command reads, so its function raises the same status again. -/
theorem retryIsRefusedAgain : Obligations.RetryIsRefusedAgain := by
  intro c s t h hst
  obtain ⟨e, hraise, rfl⟩ := runCommand_refused h hst
  exact runCommand_of_raise ((commandResult_congr params (inputsAgree_raise s e c)).trans hraise)

end Sys2Proof.Proofs
end

section
/-! PROOFS. The host's actions one by one (70_reset_and_hazards.md R271, R272, R275), the reset state and what the commands
make of it (R270), and that the parsed symbols are copies (R274). -/

namespace Sys2Proof.Proofs

open Sys2Proof.Machine

/-! ### A step and the host's plan -/

/-- With no action of the host left the block waits (70_reset_and_hazards.md R271). -/
theorem step_of_host_nil {s : State} (h : s.host = []) : step s = .next s := by
  unfold step stepWith
  rw [h]

/-- Settles O2: a step carries out the host's oldest action, and each action is its one write. -/
theorem hostActionsRunInOrder : Obligations.HostActionsRunInOrder := fun _ =>
  ⟨step_of_host_nil, fun _ =>
    ⟨fun _ => step_of_host, fun _ => step_of_host, fun _ => step_of_host, fun _ => step_of_host,
      fun _ _ => step_of_host, fun _ _ => step_of_host, step_of_host⟩⟩

/-! ### The parsed registers -/

/-- Two states hold the same parsed header, symbols and diagnostics (10_state.md R28 to R30). -/
def SameSymbols (s t : State) : Prop := t.hdr = s.hdr ∧ t.nsym = s.nsym ∧ t.sym = s.sym ∧ t.diag = s.diag

/-- Of all commands only PARSE writes the parsed registers (10_state.md R35, column "writes on success"). -/
theorem commandWrite_sameSymbols (P : Params) (s : State) {c : Command} (hc : c ≠ .parse) (x : CommandOutput c) :
    SameSymbols s (commandWrite P s c x).succeed := by
  cases c with
  | parse => exact absurd rfl hc
  | _ => exact ⟨rfl, rfl, rfl, rfl⟩

theorem runCommand_sameSymbols {c : Command} {s t : State} (hc : c ≠ .parse) (h : runCommand c s = .next t) :
    SameSymbols s t := by
  obtain ⟨x, -, rfl⟩ | ⟨e, -, rfl⟩ := runCommand_next h
  · exact commandWrite_sameSymbols params s hc x
  · exact ⟨rfl, rfl, rfl, rfl⟩

theorem runAction_sameSymbols {a : HostAction} {s t : State} (hparse : a ≠ .command .parse) (hreset : a ≠ .reset)
    (h : runAction params exec a s = .next t) : SameSymbols s t := by
  cases a with
  | command c => exact runCommand_sameSymbols (fun hc => hparse (congrArg HostAction.command hc)) h
  | reset => exact absurd rfl hreset
  | _ => exact Host.Outcome.next.inj h ▸ ⟨rfl, rfl, rfl, rfl⟩

/-- The inversion of a successful PARSE: the buffer parsed, and the result stands in the parsed registers. -/
theorem runCommand_parse_inv {s t : State} (h : runCommand .parse s = .next t) (hst : t.st = .ok) :
    ∃ p, parse params s.bufView = .ok p ∧ t = (s.writeParsed p).succeed := by
  obtain hp | ⟨e, he, rfl⟩ := runCommand_next h
  · exact hp
  · obtain rfl : e = .ok := hst
    exact absurd he (commandResult_neverRaises_ok params .parse s)

/-- Settles O55: only PARSE and reset write the parsed registers, and PARSE writes all of them. -/
theorem symbolsAreCopies : Obligations.SymbolsAreCopies := by
  refine ⟨fun s t a rest hhost hparse hreset h => ?keep, fun s t rest hhost h hst => ?replace⟩
  case keep =>
    rw [step_of_host hhost] at h
    have hkeep : SameSymbols { s with host := rest } t := runAction_sameSymbols hparse hreset h
    exact hkeep
  case replace =>
    rw [step_of_host hhost] at h
    obtain ⟨p, hp, rfl⟩ := runCommand_parse_inv h hst
    exact ⟨p, hp, rfl, Nat.mod_eq_of_lt (parse_length_lt hp), rfl, rfl⟩

/-! ### The reset state -/

/-- Settles O57: the state after the reset event, whose plan, read-out and reset count the invariant does not mention. -/
theorem goodAtReset : Obligations.GoodAtReset :=
  good_of_eq (afterReset_good State.reset) rfl rfl rfl rfl rfl rfl rfl

/-- Every range of the zero container is zero. -/
theorem rangeValue_zero (lo hi : Nat) : rangeValue 0 lo hi = 0 := by
  rw [rangeValue, BitVec.ofNat_eq_ofNat, BitVec.zero_ushiftRight, BitVec.zero_and]

/-- The zero word shows neither an op nor the terminal marker (43_decoder.md R190). -/
theorem decodeText_zero (P : Params) : decodeText P 0 = [] := by
  rw [decodeText_of_both_absent (getField_zero P .vmask) (getField_zero P .smask), getField_zero]
  exact if_neg (by decide)

/-- The word of the absent instruction is the zero word (10_state.md R23). -/
theorem encodeDesc_absentDesc {P : Params} (hP : P.Valid) : encodeDesc P absentDesc = .ok 0 := by
  have hword : ofWords 0 0 0 0 = 0 := by decide
  rw [encodeDesc_of_both_absent rfl rfl, writeFields_opFreeFields hP, putField_last_zero hP]
  exact congrArg Except.ok hword

/-- A buffer too short for a header does not parse (41_container.md R121). -/
theorem parse_of_len_lt (P : Params) {b : Buffer} (h : b.len < 48) :
    parse P b = .error (.raise .malformedContainer) := by
  rw [parse, readHeader, if_pos (show b.len < headerBytes from h)]
  rfl

/-- The size field of a parsed container counts its header (41_container.md R134, check (2)). -/
theorem le_size_of_parse_ok {P : Params} {b : Buffer} {p : Parsed} (h : parse P b = .ok p) : 48 ≤ p.hdr.size.toNat := by
  obtain ⟨-, hcheck, -⟩ := parse_ok h
  obtain ⟨-, hroom, -⟩ := checkHeader_ok hcheck
  omega

theorem runCommand_bwExtract_reset {lo hi : Nat} (hlo : lo ≤ hi) (hhi : hi < 128) :
    runCommand (.bwExtract lo hi) State.reset = .next State.reset := by
  have hzero : extract State.reset.w lo hi = .ok 0 :=
    (extract_accepted 0 hlo hhi).trans (congrArg Except.ok (rangeValue_zero lo hi))
  exact runCommand_of_ok (c := .bwExtract lo hi) (congrArg liftStatus hzero)

theorem runCommand_enc_reset : runCommand .enc State.reset = .next State.reset :=
  runCommand_of_ok (c := .enc) (congrArg liftStatus (encodeDesc_absentDesc params_valid))

theorem runCommand_dec_reset : runCommand .dec State.reset = .next State.reset := by
  have hrec : decodeFields params State.reset.w = absentRec := absentRec_eq_decodeFields_zero.symm
  have htext : render params.text absentRec = [] :=
    (congrArg (render params.text) absentRec_eq_decodeFields_zero).trans (decodeText_zero params)
  have hshow : (State.reset.showRec params absentRec).succeed = State.reset := by
    rw [State.showRec, htext]
    rfl
  exact (runCommand_of_ok (c := .dec) (congrArg Except.ok hrec)).trans (congrArg Host.Outcome.next hshow)

theorem runCommand_parse_reset :
    runCommand .parse State.reset = .next { State.reset with st := .malformedContainer } :=
  runCommand_of_raise (c := .parse) (parse_of_len_lt params (b := State.reset.bufView) (by decide))

theorem runCommand_disasm_reset : runCommand (.disasm 0 0) State.reset = .next { State.reset with txt := .many [] } :=
  runCommand_of_ok (c := .disasm 0 0) (disassemble_accepted params rfl (Nat.zero_le _))

/-- A successful PARSE leaves a header whose size is not 0, so never the reset header (70_reset_and_hazards.md R270). -/
theorem parsed_header_ne_reset {s t : State} (h : runCommand .parse s = .next t) (hst : t.st = .ok) :
    t.hdr ≠ State.reset.hdr ∧ 48 ≤ t.hdr.size.toNat := by
  obtain ⟨p, hp, rfl⟩ := runCommand_parse_inv h hst
  have hsize : 48 ≤ p.hdr.size.toNat := le_size_of_parse_ok hp
  refine ⟨fun hhdr => ?_, hsize⟩
  have hzero : p.hdr.size = 0 := congrArg Header.size hhdr
  rw [hzero] at hsize
  exact absurd hsize (by decide)

/-- Settles O1: the registers are those of the table, and each command computes the value its register holds. -/
theorem resetLeavesTheTable : Obligations.ResetLeavesTheTable :=
  ⟨rfl, rfl, rfl, absentRec_eq_decodeFields_zero, rfl, rfl, decodeText_zero params, rfl, rfl, rfl, rfl, rfl, rfl, rfl, rfl,
    runCommand_of_ok (c := .bwZero) rfl, fun _ _ => runCommand_bwExtract_reset, runCommand_enc_reset,
    runCommand_dec_reset, runCommand_parse_reset, runCommand_disasm_reset, fun _ _ => parsed_header_ne_reset⟩

end Sys2Proof.Proofs
end
